-- ==== Sys2Proof/Word.lean ====
section
/-! DEFINITION. The word types of HBP (spec/00_scope.md R9, spec/20_memory.md R50) and the shape of a sparse memory. -/

namespace Sys2Proof

/-- A register, a command word, a bus word: 32 bits, unsigned (R9, R80). -/
abbrev Word := BitVec 32

/-- One byte of OBUF or IBUF (R42). -/
abbrev Byte := BitVec 8

/-- A byte address of the host port: `ADDR_W = 24` (R50). -/
abbrev Addr := BitVec 24

/-- A sparse memory: the cells written so far, by index. `Machine/Ops.lean` has its operations and its canonical form
`Memory.wf`; an unlisted cell holds no defined value (R43). `Memory Byte` is `List Host.Cell`. -/
abbrev Memory (α : Type) := List (Nat × α)

end Sys2Proof
end

