-- ==== Sys2Proof/Config.lean ====
section
/-! DEFINITION. What a build of HBP fixes (spec/00_scope.md R6, R7) and the free values (`draw`, R13, R43). -/

namespace Sys2Proof

/-- The control word of a CT entry: VALID and LEN (spec/10_state.md R40, spec/20_memory.md R56). -/
structure CtControl where
  valid : Bool
  len   : BitVec 6
deriving DecidableEq, Repr

/-- One child descriptor of a DT node: LEAF and VAL (R41, R57). -/
structure Desc where
  leaf : Bool
  val  : BitVec 16
deriving DecidableEq, Repr

/-- The fields of ROOT; its bits [29:16] are reserved (R35). -/
structure Root where
  valid  : Bool
  isLeaf : Bool
  val    : BitVec 16
deriving DecidableEq, Repr

/-- What CT, DT, ROOT and DEGEN_WEIGHT hold: a table image (spec/40_table_generation.md R112 to R114).
`ctControl` lists the CT control words and `ctCode` the CT code words by symbol, `dtLeft` and `dtRight` the child
descriptors by node. A symbol with no listed control word has VALID = 0; every other unlisted cell is don't-care. -/
structure TableImage where
  ctControl   : Memory CtControl
  ctCode      : Memory Word
  dtLeft      : Memory Desc
  dtRight     : Memory Desc
  root        : Root
  degenWeight : Word
deriving DecidableEq, Repr

/-- No tree and no code: ROOT.VALID = 0, every CT[s].VALID = 0 (R102, R191). -/
def TableImage.empty : TableImage :=
  { ctControl := [], ctCode := [], dtLeft := [], dtRight := [],
    root := { valid := false, isLeaf := false, val := 0 }, degenWeight := 0 }

/-- The build parameters of R6. `romImage` is CT_INIT, DT_INIT, ROOT_INIT and DEGEN_INIT together, "ignored when 1"
(TABLES_WRITABLE = 1). DESIGN CHOICE (log 1): the parameters are data held in State, so that a statement about every
state is a statement about every build. -/
structure Params where
  symW           : Nat
  maxCodeLen     : Nat
  obufSize       : Nat
  ibufSize       : Nat
  tablesWritable : Bool
  romImage       : TableImage
deriving DecidableEq, Repr

/-- The default values of R6. -/
def Params.standard : Params :=
  { symW := 8, maxCodeLen := 32, obufSize := 4096, ibufSize := 4096, tablesWritable := true,
    romImage := TableImage.empty }

/-- `ALPHABET = 2^SYM_W` (R7). -/
def Params.alphabet (p : Params) : Nat := 2 ^ p.symW

/-- `DT_NODES = ALPHABET - 1` (R7). -/
def Params.dtNodes (p : Params) : Nat := p.alphabet - 1

/-- The legal values of the numeric parameters, the table of R6. -/
abbrev Params.legal (p : Params) : Prop :=
  (1 ≤ p.symW ∧ p.symW ≤ 16) ∧ (1 ≤ p.maxCodeLen ∧ p.maxCodeLen ≤ 32) ∧
  (p.obufSize % 4 = 0 ∧ 4 ≤ p.obufSize ∧ p.obufSize ≤ 65536) ∧
  (p.ibufSize % 4 = 0 ∧ 4 ≤ p.ibufSize ∧ p.ibufSize ≤ 65536)

/-- A `draw`: a value the spec does not fix, "a free input under no law" (R13, R43, R69). The `n`-th draw, of width `w`.
DESIGN CHOICE (log 4): it has no body, so nothing can be proved of its value. -/
opaque Config.draw : (n : Nat) → (w : Nat) → BitVec w

end Sys2Proof
end

