-- ==== Sys2Proof/Syntax.lean ====
section
/-! DEFINITION. The nine commands of HBP, one constructor per row of spec/opcode_table.json (spec/30_encoding.md R82). -/

namespace Sys2Proof

/-- A command. Its operands are those the decode function of R87 gives: the bit count `N = NM1 + 1` of format N and the
symbol SYM of format S (R81); every other operand is a register (R45). -/
inductive Instr where
  /-- NOP, OPC 0x0 (R160). -/
  | nop
  /-- ENC_INIT, OPC 0x1 (R121). -/
  | encInit
  /-- PUT_BITS n, OPC 0x2 (R122). -/
  | putBits (n : Nat)
  /-- ENC_SYM sym, OPC 0x3 (R124). -/
  | encSym (sym : Nat)
  /-- FLUSH, OPC 0x4 (R125). -/
  | flush
  /-- DEC_INIT, OPC 0x5 (R140). -/
  | decInit
  /-- GET_BITS n, OPC 0x6 (R141). -/
  | getBits (n : Nat)
  /-- DEC_SYM, OPC 0x7 (R142). -/
  | decSym
  /-- SOFT_RESET, OPC 0x8 (R161). -/
  | softReset
deriving DecidableEq, Repr

end Sys2Proof
end

