-- ==== Sys2Proof/WellFormed.lean ====
section
/-! DEFINITION. Which commands a build of HBP has (spec/30_encoding.md R81, R85). -/

namespace Sys2Proof

/-- The operand checks: a bit count lies in `1..32` (R81: "The operand is N = NM1 + 1, in 1..32"), and a symbol is
"legal only if SYM < ALPHABET" (R81, R85). -/
def Instr.wf (p : Params) : Instr → Bool
  | .nop       => true
  | .encInit   => true
  | .putBits n => decide (1 ≤ n ∧ n ≤ 32)
  | .encSym s  => decide (s < p.alphabet)
  | .flush     => true
  | .decInit   => true
  | .getBits n => decide (1 ≤ n ∧ n ≤ 32)
  | .decSym    => true
  | .softReset => true

end Sys2Proof
end

