-- ==== Sys2Proof/Decode.lean ====
section
/-! DEFINITION. Decoding a command word (spec/30_encoding.md R80 to R87), total on every 32-bit word and rejecting by
name, and after it the encoder, written from the same tables (R82, R92). -/

namespace Sys2Proof

/-- Why a word encodes no command: the three conditions of R85. -/
inductive Illegal where
  /-- A bit marked "must be 0" in the word's format is 1. -/
  | mustBeZero
  /-- OPC is ENC_SYM and `w[15:0] ≥ ALPHABET`. -/
  | symbolRange
  /-- OPC is 0x9 to 0xF (R86). -/
  | reservedOpcode
deriving DecidableEq, Repr

/-- `OPC = w[31:28]` (R81). -/
def opcField (w : Word) : Nat := (w.extractLsb' 28 4).toNat

/-- `N = NM1 + 1` with `NM1 = w[4:0]` (R81, R83). -/
def countField (w : Word) : Nat := (w.extractLsb' 0 5).toNat + 1

/-- `SYM = w[15:0]`, unsigned (R81, R84). -/
def symField (w : Word) : Nat := (w.extractLsb' 0 16).toNat

/-- Format Z: bits [27:0] must be 0 (R80). -/
def formatZ (w : Word) (i : Instr) : Except Illegal Instr :=
  if w.extractLsb' 0 28 = 0 then .ok i else .error .mustBeZero

/-- Format N: bits [27:5] must be 0 (R80). -/
def formatN (w : Word) (i : Nat → Instr) : Except Illegal Instr :=
  if w.extractLsb' 5 23 = 0 then .ok (i (countField w)) else .error .mustBeZero

/-- Format S: bits [27:16] must be 0 and `w[15:0] < ALPHABET` (R80, R85). -/
def formatS (p : Params) (w : Word) (i : Nat → Instr) : Except Illegal Instr :=
  if w.extractLsb' 16 12 = 0 then
    if symField w < p.alphabet then .ok (i (symField w)) else .error .symbolRange
  else .error .mustBeZero

/-- The decode function (R87). -/
def decode (p : Params) (w : Word) : Except Illegal Instr :=
  match opcField w with
  | 0x0 => formatZ w .nop
  | 0x1 => formatZ w .encInit
  | 0x2 => formatN w .putBits
  | 0x3 => formatS p w .encSym
  | 0x4 => formatZ w .flush
  | 0x5 => formatZ w .decInit
  | 0x6 => formatN w .getBits
  | 0x7 => formatZ w .decSym
  | 0x8 => formatZ w .softReset
  | _   => .error .reservedOpcode

/-- What the host asks of the decoder: the command that the word `w` of `nbits` bits encodes, in a build with the default
parameters (log 12). Every bit above `nbits` is 0. -/
def decodeTableWord (nbits w : Nat) : Option Instr :=
  match decode Params.standard (BitVec.ofNat 32 (w % 2 ^ nbits)) with
  | .ok i    => some i
  | .error _ => none

/-- The OPC value of each command (R82). -/
def opcode : Instr → Nat
  | .nop       => 0x0
  | .encInit   => 0x1
  | .putBits _ => 0x2
  | .encSym _  => 0x3
  | .flush     => 0x4
  | .decInit   => 0x5
  | .getBits _ => 0x6
  | .decSym    => 0x7
  | .softReset => 0x8

/-- The operand bits `[27:0]`: 0 for format Z, `n - 1` for format N, the symbol for format S (R80, R92). -/
def operandBits : Instr → Nat
  | .nop       => 0
  | .encInit   => 0
  | .putBits n => n - 1
  | .encSym s  => s
  | .flush     => 0
  | .decInit   => 0
  | .getBits n => n - 1
  | .decSym    => 0
  | .softReset => 0

/-- `Encode` of R92: "`OPC << 28`, plus `n - 1` for format N, plus `s` for format S". -/
def encode (i : Instr) : Word := BitVec.ofNat 32 ((opcode i) <<< 28 + operandBits i)

/-- One row of the opcode map: a word `w` selects it when `w & mask = match` (R82). -/
structure OpcodeRow where
  mnemonic : String
  pattern  : Word
  mask     : Word
deriving DecidableEq, Repr

/-- The opcode map of R82. -/
def opcodeMap : List OpcodeRow :=
  [ ⟨"NOP",        0x00000000#32, 0xFFFFFFFF#32⟩,
    ⟨"ENC_INIT",   0x10000000#32, 0xFFFFFFFF#32⟩,
    ⟨"PUT_BITS",   0x20000000#32, 0xFFFFFFE0#32⟩,
    ⟨"ENC_SYM",    0x30000000#32, 0xFFFF0000#32⟩,
    ⟨"FLUSH",      0x40000000#32, 0xFFFFFFFF#32⟩,
    ⟨"DEC_INIT",   0x50000000#32, 0xFFFFFFFF#32⟩,
    ⟨"GET_BITS",   0x60000000#32, 0xFFFFFFE0#32⟩,
    ⟨"DEC_SYM",    0x70000000#32, 0xFFFFFFFF#32⟩,
    ⟨"SOFT_RESET", 0x80000000#32, 0xFFFFFFFF#32⟩ ]

/-- Does the word select this row? (R82) -/
def OpcodeRow.selects (r : OpcodeRow) (w : Word) : Bool := w &&& r.mask == r.pattern

/-- The name the opcode map gives a command (R82). -/
def mnemonic : Instr → String
  | .nop       => "NOP"
  | .encInit   => "ENC_INIT"
  | .putBits _ => "PUT_BITS"
  | .encSym _  => "ENC_SYM"
  | .flush     => "FLUSH"
  | .decInit   => "DEC_INIT"
  | .getBits _ => "GET_BITS"
  | .decSym    => "DEC_SYM"
  | .softReset => "SOFT_RESET"

end Sys2Proof
end

