-- ==== Sys2Proof/Machine/State.lean ====
section
/-! DEFINITION. The state of HBP (spec/10_state.md R20 to R49), the agents' turns, and the state after reset
(spec/70_reset_and_hazards.md R191). -/

namespace Sys2Proof.Machine

/-- One step of one agent (spec/00_scope.md R12, spec/20_memory.md R54, R55, R66): a host transaction, a turn of the
engine, or an assertion and release of `rst` (R190). -/
inductive Turn where
  /-- The host's `BusRead(a)` (R54). -/
  | busRead (a : Addr)
  /-- The host's `BusWrite(a, w)` (R55). -/
  | busWrite (a : Addr) (w : Word)
  /-- The engine's step, if it is enabled (R90). -/
  | engine
  /-- Hardware reset (R190). -/
  | hardReset
deriving DecidableEq, Repr

/-- CTRL's fields (R25); bits [15:3] are reserved and have no storage. -/
structure Ctrl where
  strict   : Bool
  ieDone   : Bool
  ieErr    : Bool
  spaceSym : BitVec 16
deriving DecidableEq, Repr

/-- STATUS's fields (R26) but BUSY, which is "PEND is non-empty" (R38). `errors` is `STATUS[19:8]`. -/
structure Status where
  done      : Bool
  resValid  : Bool
  eos       : Bool
  encClosed : Bool
  errors    : BitVec 12
deriving DecidableEq, Repr

/-- The cause codes, the STATUS bits 8 to 19 in order (spec/60_exceptions.md R172). -/
inductive ErrFlag where
  | illegal
  | empty
  | missing
  | malformed
  | table
  | oflow
  | underrun
  | seq
  | param
  | overrun
  | busywr
  | addr
deriving DecidableEq, Repr

/-- The reasons a step could stop the machine: NONE. "HBP never traps, halts or stalls on an error" (R170): every error
is a STATUS bit in a next state (log 15). -/
inductive Fault
deriving DecidableEq, Repr

/-- The reasons the model refuses. -/
inductive Refusal where
  /-- Raised only by an arm of `exec` whose command has no meaning yet; no arm is one. Safe: nothing can be proved of a
  run that has stopped. -/
  | notModelled (mnemonic : String)
deriving DecidableEq, Repr

/-- The state of HBP (R20). -/
structure State where
  /-- The build (R6, R7), shown by PARAM0 and PARAM1 (R23, R24); no step writes it. -/
  params      : Params
  /-- CTRL (R25). -/
  ctrl        : Ctrl
  /-- STATUS (R26). -/
  status      : Status
  /-- PEND, the pending-command slot (R38). -/
  pend        : Option Word
  /-- DATA (R28). -/
  data        : Word
  /-- RESULT (R29). -/
  result      : Word
  /-- BITCOUNT (R30). -/
  bitcount    : Word
  /-- OPTR (R31). -/
  optr        : Word
  /-- BITLEN (R33). -/
  bitlen      : Word
  /-- IPTR (R34). -/
  iptr        : Word
  /-- DEGEN_REMAIN (R37). -/
  degenRemain : Word
  /-- ACC, the packer accumulator (R39). -/
  acc         : BitVec 8
  /-- ACC_N, the number of pending bits (R39). -/
  accN        : BitVec 3
  /-- CT, DT, ROOT and DEGEN_WEIGHT (R35, R36, R40, R41). -/
  tables      : TableImage
  /-- OBUF (R42): the bytes written since reset. -/
  obuf        : Memory Byte
  /-- IBUF (R42): the bytes written since reset. -/
  ibuf        : Memory Byte
  /-- The MODEL's own field: the turns still to come, in the one total order of R66 (log 2). -/
  agenda      : List Turn
  /-- The MODEL's own field: the word the last BusRead returned, the port's `rdata` (R71, log 7). -/
  answer      : Option Word
  /-- The MODEL's own field: how many free values have been drawn (log 4). -/
  draws       : Nat
deriving DecidableEq, Repr

/-- The tables after reset: nothing loaded, or the ROM image (R49, R191). -/
def resetTables (p : Params) : TableImage :=
  if p.tablesWritable then TableImage.empty else p.romImage

/-- The state after reset of a build with the parameters `p` (R191). The model's own fields start empty
(DESIGN CHOICE, log 2, 4, 7). -/
def State.resetOf (p : Params) : State :=
  { params := p,
    ctrl := { strict := false, ieDone := false, ieErr := false, spaceSym := 0x0020 },
    status := { done := false, resValid := false, eos := false, encClosed := false, errors := 0 },
    pend := none, data := 0, result := 0, bitcount := 0, optr := 0, bitlen := 0, iptr := 0, degenRemain := 0,
    acc := 0, accN := 0, tables := resetTables p, obuf := [], ibuf := [],
    agenda := [], answer := none, draws := 0 }

/-- The machine right after reset (R191), with the default parameters of R6 (log 1). -/
def State.reset : State := State.resetOf Params.standard

end Sys2Proof.Machine
end

