-- ==== Sys2Proof/Machine/Flags.lean ====
section
/-! DEFINITION. STATUS as a word, its cause codes, write-1-to-clear, and `irq` (spec/10_state.md R26, R44,
spec/60_exceptions.md R172, R177). -/

namespace Sys2Proof.Machine

/-- The place of an error bit inside `STATUS[19:8]`: its cause code less 8 (R172). -/
def errIndex : ErrFlag → Nat
  | .illegal   => 0
  | .empty     => 1
  | .missing   => 2
  | .malformed => 3
  | .table     => 4
  | .oflow     => 5
  | .underrun  => 6
  | .seq       => 7
  | .param     => 8
  | .overrun   => 9
  | .busywr    => 10
  | .addr      => 11

/-- The cause code, a STATUS bit position (R172). -/
def causeCode (e : ErrFlag) : Nat := 8 + errIndex e

/-- The bit of `e` alone, as `STATUS[19:8]`. -/
def errMask (e : ErrFlag) : BitVec 12 := BitVec.twoPow 12 (errIndex e)

/-- `STATUS[bit of e] <- 1`: "a new error while bits are set ORs in its bit" (R180). -/
def setErr (e : ErrFlag) (s : State) : State :=
  { s with status := { s.status with errors := s.status.errors ||| errMask e } }

/-- `BUSY = 1` exactly when PEND is non-empty (R38). -/
def busy (s : State) : Bool := s.pend.isSome

/-- STATUS as the 32-bit word of R26: reserved bits [31:20] and [7:5] are 0. -/
def statusWord (s : State) : Word :=
  0#12 ++ s.status.errors ++ 0#3 ++ BitVec.ofBool s.status.encClosed ++ BitVec.ofBool s.status.eos ++
    BitVec.ofBool s.status.resValid ++ BitVec.ofBool s.status.done ++ BitVec.ofBool (busy s)

/-- A bus write of `w` to STATUS: "for each W1C bit j (bits 1, 8..19): if w[j] = 1 then STATUS[j] <- 0" (R55 case 2). -/
def w1cStatus (w : Word) (s : State) : State :=
  { s with status := { s.status with
      done   := s.status.done && !w.getLsbD 1,
      errors := s.status.errors &&& ~~~ w.extractLsb' 8 12 } }

/-- The interrupt output: `(CTRL.IE_DONE and STATUS.DONE) or (CTRL.IE_ERR and (STATUS[19:8] != 0))` (R44). -/
def irq (s : State) : Bool :=
  (s.ctrl.ieDone && s.status.done) || (s.ctrl.ieErr && s.status.errors != 0)

end Sys2Proof.Machine
end

