-- ==== Sys2Proof/Machine/Ops.lean ====
section
/-! DEFINITION. The shared operations: sparse memories (spec/10_state.md R42, R43), how a command ends
(spec/30_encoding.md R93, spec/60_exceptions.md R171), the packer (spec/41_encode.md R120) and hardware reset
(spec/70_reset_and_hazards.md R190). -/

namespace Sys2Proof.Machine

/-! ### Sparse memories -/

/-- The one canonical form of a memory: indexes strictly rising. An unlisted cell holds no value (R43), so no entry can
equal what an unlisted cell reads as. -/
abbrev Memory.wf {α : Type} (m : Memory α) : Prop := m.Pairwise (fun x y => x.1 < y.1)

/-- The value written at index `a` since reset, if any. -/
def Memory.read? {α : Type} : Memory α → Nat → Option α
  | [], _ => none
  | (k, v) :: m, a => if k = a then some v else Memory.read? m a

/-- Write the cell at index `a`; it keeps the canonical form. -/
def Memory.write {α : Type} : Memory α → Nat → α → Memory α
  | [], a, v => [(a, v)]
  | (k, w) :: m, a, v =>
    if a < k then (a, v) :: (k, w) :: m
    else if a = k then (a, v) :: m
    else (k, w) :: Memory.write m a v

/-- Read a cell of `w` bits: its value, or, if nothing has written it since reset, "a `draw`: any value of the cell's
width, chosen afresh at each read" (R43). `d` counts the draws taken so far; the second component counts them after. -/
def readCell {α : Type} (w : Nat) (ofBits : BitVec w → α) (m : Memory α) (a : Nat) (d : Nat) : α × Nat :=
  match Memory.read? m a with
  | some v => (v, d)
  | none   => (ofBits (Config.draw d w), d + 1)

/-- `MemRead(M, a, 1)` (R11). -/
def readByte (m : Memory Byte) (a : Nat) (d : Nat) : Byte × Nat := readCell 8 id m a d

/-- The descriptor whose 17 stored bits are LEAF, then VAL (R41). -/
def descOfBits (b : BitVec 17) : Desc := { leaf := b.getLsbD 16, val := b.extractLsb' 0 16 }

/-- Read one child descriptor of a DT node, one cell (R41, R43). -/
def readDesc (m : Memory Desc) (i : Nat) (d : Nat) : Desc × Nat := readCell 17 descOfBits m i d

/-! ### How a command ends -/

/-- `complete` (R93): RES_VALID says whether the command wrote RESULT, DONE is set, PEND is emptied (and with it BUSY). -/
def complete (wroteResult : Bool) (s : State) : State :=
  { s with status := { s.status with resValid := wroteResult, done := true }, pend := none }

/-- `raise Err(e)` (R171), applied to the state the command STARTED from, so that every update made so far is discarded:
the error bit and DONE are set, RES_VALID is cleared, PEND is emptied. "No other state changes." -/
def raiseErr (e : ErrFlag) (s : State) : State :=
  { s with status := { s.status with errors := s.status.errors ||| errMask e, resValid := false, done := true },
           pend := none }

/-- The free values a command has drawn count even where it ends in an error (log 6). -/
def withDraws (d : Nat) (s : State) : State := { s with draws := d }

/-! ### The packer -/

/-- Assign one bit of a vector. -/
def assignBit {w : Nat} (x : BitVec w) (k : Nat) (b : Bool) : BitVec w :=
  if b then x ||| BitVec.twoPow w k else x &&& ~~~ BitVec.twoPow w k

/-- What one pushed bit can change: ACC, ACC_N, OPTR and OBUF (R120). -/
structure Packer where
  acc  : BitVec 8
  accN : BitVec 3
  optr : Word
  obuf : Memory Byte
deriving DecidableEq, Repr

/-- The packer's part of the state. -/
def packerOf (s : State) : Packer := { acc := s.acc, accN := s.accN, optr := s.optr, obuf := s.obuf }

/-- The state with the packer's part replaced. -/
def withPacker (p : Packer) (s : State) : State :=
  { s with acc := p.acc, accN := p.accN, optr := p.optr, obuf := p.obuf }

/-- One pass of R120's loop: `ACC[7 - ACC_N] <- b`, and on the eighth bit the byte goes to `OBUF[OPTR]`. -/
def pushBit (b : Bool) (p : Packer) : Packer :=
  let acc := assignBit p.acc (7 - p.accN.toNat) b
  if p.accN.toNat + 1 = 8 then
    { acc := 0, accN := 0, optr := p.optr + 1, obuf := Memory.write p.obuf p.optr.toNat acc }
  else { p with acc := acc, accN := p.accN + 1 }

/-- R120's loop over `j = 0 .. n-1`: the bits `v[n-1], ..., v[0]`, first bit first. -/
def pushLoop (v : Word) : Nat → Packer → Packer
  | 0, p     => p
  | k + 1, p => pushLoop v k (pushBit (v.getLsbD k) p)

/-- `PushBits(n, v)` (R120): all `n` bits or none, "checked before any change". Exact arithmetic (R9). -/
def pushBits (n : Nat) (v : Word) (s : State) : Except ErrFlag State :=
  if s.optr.toNat + (s.accN.toNat + n) / 8 > s.params.obufSize then .error .oflow
  else .ok { withPacker (pushLoop v n (packerOf s)) s with bitcount := s.bitcount + BitVec.ofNat 32 n }

/-! ### Hardware reset -/

/-- `rst` asserted and released (R190): every piece of state holds the value of R191. The turns still to come and the
count of draws are the model's own and go on (log 8). -/
def hardReset (s : State) : State :=
  { State.resetOf s.params with agenda := s.agenda, draws := s.draws }

end Sys2Proof.Machine
end

