-- ==== Sys2Proof/Machine/Operands.lean ====
section
/-! DEFINITION. What a command reads: code-table entries and the fallback (spec/41_encode.md R123), input bits
(spec/20_memory.md R62), and the decode walk (spec/42_decode.md R142). -/

namespace Sys2Proof.Machine

/-! ### The code table -/

/-- `CT[t].VALID`: 0 where nothing has been written since reset (R40, R191). -/
def ctValid (s : State) (t : Nat) : Bool :=
  match Memory.read? s.tables.ctControl t with
  | some c => c.valid
  | none   => false

/-- `CT[t].LEN`, one read of the cell (R43). -/
def ctLen (s : State) (t : Nat) (d : Nat) : BitVec 6 × Nat :=
  match Memory.read? s.tables.ctControl t with
  | some c => (c.len, d)
  | none   => (Config.draw d 6, d + 1)

/-- `CT[t].CODE`, one read of the cell (R43). -/
def ctCode (s : State) (t : Nat) (d : Nat) : Word × Nat := readCell 32 id s.tables.ctCode t d

/-- `min { t < ALPHABET | CT[t].VALID = 1 }`, or none where no entry is valid (R123). Only a listed symbol can be valid. -/
def leastValid (s : State) : Option Nat :=
  ((s.tables.ctControl.map Prod.fst).filter (fun t => decide (t < s.params.alphabet) && ctValid s t)).min?

/-- The first half of `Lookup(sym)`: which entry is used, and whether it is a fallback (R123). -/
def chooseEntry (s : State) (sym : Nat) : Except ErrFlag (Nat × Bool) :=
  if ctValid s sym then .ok (sym, false)
  else
    match leastValid s with
    | none => .error .empty
    | some least =>
      if s.ctrl.strict then .error .missing
      else
        let sp := s.ctrl.spaceSym.toNat
        if sp < s.params.alphabet && ctValid s sp then .ok (sp, true) else .ok (least, true)

/-- What `Lookup` returns: LEN, CODE (of which only `CODE[LEN-1:0]` is packed) and the fallback mark (R123). -/
structure Found where
  len      : Nat
  code     : Word
  fallback : Bool
deriving DecidableEq, Repr

/-- The second half of `Lookup`: read the entry once (log 5) and check its LEN (R123, spec/00_scope.md R8). -/
def readEntry (s : State) (t : Nat) (fb : Bool) : Except ErrFlag Found × Nat :=
  let (len, d1) := ctLen s t s.draws
  let (code, d2) := ctCode s t d1
  if len.toNat = 0 ∨ len.toNat > s.params.maxCodeLen then (.error .table, d2)
  else (.ok { len := len.toNat, code := code, fallback := fb }, d2)

/-- `Lookup(sym)` (R123), with the number of draws taken after it. -/
def lookup (s : State) (sym : Nat) : Except ErrFlag Found × Nat :=
  match chooseEntry s sym with
  | .error e     => (.error e, s.draws)
  | .ok (t, fb)  => readEntry s t fb

/-! ### The input stream -/

/-- `InBit(k) = MemRead(IBUF, k div 8, 1)[7 - (k mod 8)]` (R62). -/
def inBit (ibuf : Memory Byte) (k : Nat) (d : Nat) : Bool × Nat :=
  let (b, d1) := readByte ibuf (k / 8) d
  (b.getLsbD (7 - k % 8), d1)

/-- R141's loop: `n` passes of `v <- 2 · v + InBit(p)`, from bit `p` on. -/
def takeBits (ibuf : Memory Byte) : (n p v d : Nat) → Nat × Nat
  | 0, _, v, d     => (v, d)
  | n + 1, p, v, d =>
    let (b, d1) := inBit ibuf p d
    takeBits ibuf n (p + 1) (2 * v + b.toNat) d1

/-- `BITLEN > 8 · IBUF_SIZE` (R140, R141, R142). -/
def bitlenTooBig (s : State) : Bool := decide (s.bitlen.toNat > 8 * s.params.ibufSize)

/-! ### The decode walk -/

/-- `c <- (b = 0) ? DT[node].LEFT : DT[node].RIGHT`: '0' left, '1' right (R142). -/
def readChild (s : State) (b : Bool) (node : Nat) (d : Nat) : Desc × Nat :=
  readDesc (if b then s.tables.dtRight else s.tables.dtLeft) node d

/-- What the loop of R142 does, the state being fixed. `left` is `BITLEN - p`, the number of bits not yet consumed, so
`p >= BITLEN` is `left = 0`. It answers the symbol emitted and the bit index after its code, or the error raised,
and the number of draws taken. -/
def walk (s : State) : (left node p d : Nat) → Except ErrFlag (BitVec 16 × Nat) × Nat
  | 0, node, _, d =>
    if node ≥ s.params.dtNodes then (.error .table, d) else (.error .malformed, d)
  | left + 1, node, p, d =>
    if node ≥ s.params.dtNodes then (.error .table, d)
    else
      let (b, d1) := inBit s.ibuf p d
      let (c, d2) := readChild s b node d1
      if c.leaf then
        if c.val.toNat ≥ s.params.alphabet then (.error .table, d2) else (.ok (c.val, p + 1), d2)
      else walk s left c.val.toNat (p + 1) d2

end Sys2Proof.Machine
end

