-- ==== Sys2Proof/Machine/Bus.lean ====
section
/-! DEFINITION. The host port: the address map (spec/20_memory.md R51), the registers as words (spec/10_state.md R22 to
R37), and the two transactions BusRead and BusWrite (R54, R55). -/

namespace Sys2Proof.Machine

/-- The 16 registers (R21). -/
inductive Reg where
  | id
  | param0
  | param1
  | ctrl
  | status
  | cmd
  | data
  | result
  | bitcount
  | optr
  | packState
  | bitlen
  | iptr
  | root
  | degenWeight
  | degenRemain
deriving DecidableEq, Repr

/-- The register at word `k` of the register block: byte offset `4k` (R21). -/
def regAt : Nat → Option Reg
  | 0  => some .id
  | 1  => some .param0
  | 2  => some .param1
  | 3  => some .ctrl
  | 4  => some .status
  | 5  => some .cmd
  | 6  => some .data
  | 7  => some .result
  | 8  => some .bitcount
  | 9  => some .optr
  | 10 => some .packState
  | 11 => some .bitlen
  | 12 => some .iptr
  | 13 => some .root
  | 14 => some .degenWeight
  | 15 => some .degenRemain
  | _  => none

/-- A register's byte offset (R21). -/
def regOffset : Reg → Addr
  | .id          => 0x000
  | .param0      => 0x004
  | .param1      => 0x008
  | .ctrl        => 0x00C
  | .status      => 0x010
  | .cmd         => 0x014
  | .data        => 0x018
  | .result      => 0x01C
  | .bitcount    => 0x020
  | .optr        => 0x024
  | .packState   => 0x028
  | .bitlen      => 0x02C
  | .iptr        => 0x030
  | .root        => 0x034
  | .degenWeight => 0x038
  | .degenRemain => 0x03C

/-- What a good address names (R51): a register; the four bytes of OBUF or IBUF from byte `4k` on; a child descriptor of
a DT node; the control or the code word of a CT entry. -/
inductive Target where
  | reg (r : Reg)
  | obuf (k : Nat)
  | ibuf (k : Nat)
  | dtLeft (i : Nat)
  | dtRight (i : Nat)
  | ctControl (s : Nat)
  | ctCode (s : Nat)
deriving DecidableEq, Repr

/-- The address map of R51. `none`: the address is misaligned or unmapped, and the access is bad (R53). -/
def target (p : Params) (addr : Addr) : Option Target :=
  let a := addr.toNat
  if a % 4 ≠ 0 then none
  else if a < 0x40 then (regAt (a / 4)).map .reg
  else if 0x010000 ≤ a ∧ a < 0x010000 + p.obufSize then some (.obuf (a - 0x010000))
  else if 0x020000 ≤ a ∧ a < 0x020000 + p.ibufSize then some (.ibuf (a - 0x020000))
  else if 0x080000 ≤ a ∧ a < 0x080000 + 8 * p.dtNodes then
    (if (a - 0x080000) % 8 = 0 then some (.dtLeft ((a - 0x080000) / 8)) else some (.dtRight ((a - 0x080000) / 8)))
  else if 0x100000 ≤ a ∧ a < 0x100000 + 8 * p.alphabet then
    (if (a - 0x100000) % 8 = 0 then some (.ctControl ((a - 0x100000) / 8)) else some (.ctCode ((a - 0x100000) / 8)))
  else none

/-! ### Words of registers and table cells -/

/-- ID: "HUF1" (R22). -/
def idWord : Word := 0x48554631

/-- PARAM0 (R23). -/
def param0Word (p : Params) : Word :=
  0#15 ++ BitVec.ofBool p.tablesWritable ++ 0#2 ++ BitVec.ofNat 6 p.maxCodeLen ++ 0#3 ++ BitVec.ofNat 5 p.symW

/-- PARAM1 (R24). -/
def param1Word (p : Params) : Word := BitVec.ofNat 16 (p.ibufSize - 1) ++ BitVec.ofNat 16 (p.obufSize - 1)

/-- CTRL (R25). -/
def ctrlWord (c : Ctrl) : Word :=
  c.spaceSym ++ 0#13 ++ BitVec.ofBool c.ieErr ++ BitVec.ofBool c.ieDone ++ BitVec.ofBool c.strict

/-- The fields a write to CTRL stores (R55 case 7). -/
def ctrlOfWord (w : Word) : Ctrl :=
  { strict := w.getLsbD 0, ieDone := w.getLsbD 1, ieErr := w.getLsbD 2, spaceSym := w.extractLsb' 16 16 }

/-- PACK_STATE: `[2:0] = ACC_N` and `[15:8] = ACC` (R32). -/
def packStateWord (s : State) : Word := 0#16 ++ s.acc ++ 0#5 ++ s.accN

/-- ROOT (R35). -/
def rootWord (r : Root) : Word := BitVec.ofBool r.valid ++ BitVec.ofBool r.isLeaf ++ 0#14 ++ r.val

/-- The fields a write to ROOT stores (R55 case 7). -/
def rootOfWord (w : Word) : Root :=
  { valid := w.getLsbD 31, isLeaf := w.getLsbD 30, val := w.extractLsb' 0 16 }

/-- A descriptor word: `[31] = LEAF`, `[15:0] = VAL` (R57). -/
def descWord (c : Desc) : Word := BitVec.ofBool c.leaf ++ 0#15 ++ c.val

/-- The fields a write to a descriptor word stores (R55 case 7). -/
def descOfWord (w : Word) : Desc := { leaf := w.getLsbD 31, val := w.extractLsb' 0 16 }

/-- A CT control word: `[31] = VALID`, `[5:0] = LEN` (R56). -/
def ctControlWord (valid : Bool) (len : BitVec 6) : Word := BitVec.ofBool valid ++ 0#25 ++ len

/-- The fields a write to a CT control word stores (R55 case 7). -/
def ctControlOfWord (w : Word) : CtControl := { valid := w.getLsbD 31, len := w.extractLsb' 0 6 }

/-- A register's value (R22 to R37); CMD reads 0 (R27). -/
def regWord (s : State) : Reg → Word
  | .id          => idWord
  | .param0      => param0Word s.params
  | .param1      => param1Word s.params
  | .ctrl        => ctrlWord s.ctrl
  | .status      => statusWord s
  | .cmd         => 0
  | .data        => s.data
  | .result      => s.result
  | .bitcount    => s.bitcount
  | .optr        => s.optr
  | .packState   => packStateWord s
  | .bitlen      => s.bitlen
  | .iptr        => s.iptr
  | .root        => rootWord s.tables.root
  | .degenWeight => s.tables.degenWeight
  | .degenRemain => s.degenRemain

/-- A word of a byte buffer, from byte `k` on: byte `k + j` is bits `[8j+7:8j]` (R60). -/
def readLanes (m : Memory Byte) (k : Nat) (d : Nat) : Word × Nat :=
  let (b0, d1) := readByte m k d
  let (b1, d2) := readByte m (k + 1) d1
  let (b2, d3) := readByte m (k + 2) d2
  let (b3, d4) := readByte m (k + 3) d3
  (b3 ++ b2 ++ b1 ++ b0, d4)

/-- Write a word into a byte buffer: `M[k+j] <- w[8j+7:8j]` for `j = 0..3` (R55 case 7, R60). -/
def writeLanes (m : Memory Byte) (k : Nat) (w : Word) : Memory Byte :=
  Memory.write (Memory.write (Memory.write (Memory.write m k (w.extractLsb' 0 8))
    (k + 1) (w.extractLsb' 8 8)) (k + 2) (w.extractLsb' 16 8)) (k + 3) (w.extractLsb' 24 8)

/-- The value at a good address: the case list of R54. A cell nothing has written is a draw (R43). -/
def targetWord (s : State) : Target → Word × Nat
  | .reg r       => (regWord s r, s.draws)
  | .obuf k      => readLanes s.obuf k s.draws
  | .ibuf k      => readLanes s.ibuf k s.draws
  | .dtLeft i    => let (c, d) := readDesc s.tables.dtLeft i s.draws; (descWord c, d)
  | .dtRight i   => let (c, d) := readDesc s.tables.dtRight i s.draws; (descWord c, d)
  | .ctControl t => let (l, d) := ctLen s t s.draws; (ctControlWord (ctValid s t) l, d)
  | .ctCode t    => ctCode s t s.draws

/-! ### Transactions -/

/-- Engine-written state (R69). -/
def engineWritten : Target → Bool
  | .reg .status | .reg .result | .reg .bitcount | .reg .optr | .reg .packState | .reg .iptr | .reg .degenRemain => true
  | .obuf _ => true
  | _ => false

/-- What a read returns while BUSY = 1 of engine-written state: a draw, and for STATUS "bit 0 = 1 exactly, other bits
draw" (R54, R69). -/
def busyDraw (s : State) : Target → Word
  | .reg .status => Config.draw s.draws 32 ||| 1
  | _            => Config.draw s.draws 32

/-- `BusRead(a)` (R54), one host step: the word returned stands in `answer`. -/
def busRead (a : Addr) (s : State) : State :=
  match target s.params a with
  | none => { setErr .addr s with answer := some 0 }
  | some t =>
    if busy s && engineWritten t then { s with answer := some (busyDraw s t), draws := s.draws + 1 }
    else
      let (w, d) := targetWord s t
      { s with answer := some w, draws := d }

/-- Read-only state: a write is ignored, with no flag (R55 case 4). -/
def readOnly : Target → Bool
  | .reg .id | .reg .param0 | .reg .param1 | .reg .result | .reg .bitcount | .reg .optr | .reg .packState
  | .reg .iptr | .reg .degenRemain => true
  | .obuf _ => true
  | _ => false

/-- The tables, fixed when `TABLES_WRITABLE = 0` (R49, R55 case 5). -/
def tableTarget : Target → Bool
  | .reg .root | .reg .degenWeight => true
  | .dtLeft _ | .dtRight _ | .ctControl _ | .ctCode _ => true
  | _ => false

/-- `perform the write` (R55 case 7). "Bits a write does not name are ignored." -/
def performWrite (w : Word) (s : State) : Target → State
  | .reg .ctrl        => { s with ctrl := ctrlOfWord w }
  | .reg .data        => { s with data := w }
  | .reg .bitlen      => { s with bitlen := w }
  | .reg .degenWeight => { s with tables := { s.tables with degenWeight := w } }
  | .reg .root        => { s with tables := { s.tables with root := rootOfWord w } }
  | .ibuf k           => { s with ibuf := writeLanes s.ibuf k w }
  | .dtLeft i         => { s with tables := { s.tables with dtLeft := Memory.write s.tables.dtLeft i (descOfWord w) } }
  | .dtRight i        => { s with tables := { s.tables with dtRight := Memory.write s.tables.dtRight i (descOfWord w) } }
  | .ctControl t      =>
    { s with tables := { s.tables with ctControl := Memory.write s.tables.ctControl t (ctControlOfWord w) } }
  | .ctCode t         => { s with tables := { s.tables with ctCode := Memory.write s.tables.ctCode t w } }
  | _                 => s

/-- `BusWrite(a, w)` (R55), one host step: the first case that applies decides it. -/
def busWrite (a : Addr) (w : Word) (s : State) : State :=
  match target s.params a with
  | none => setErr .addr s
  | some (.reg .status) => w1cStatus w s
  | some (.reg .cmd) => if busy s then setErr .overrun s else { s with pend := some w }
  | some t =>
    if readOnly t then s
    else if !s.params.tablesWritable && tableTarget t then setErr .addr s
    else if busy s then setErr .busywr s
    else performWrite w s t

end Sys2Proof.Machine
end

