-- ==== Sys2Proof/Machine/ControlCommands.lean ====
section
/-! DEFINITION. The control family: NOP and SOFT_RESET (spec/43_control.md R160, R161). -/

namespace Sys2Proof.Machine

/-- NOP (R160): `complete`, and nothing else. -/
def execNop (s : State) : Host.Outcome State Fault Refusal := .next (complete false s)

/-- SOFT_RESET (R161): the packer, the unpacker and STATUS[19:1] go to their reset values, then `complete`. -/
def execSoftReset (s : State) : Host.Outcome State Fault Refusal :=
  .next (complete false
    { s with acc := 0, accN := 0, optr := 0, bitcount := 0, iptr := 0, degenRemain := 0, result := 0,
             status := { done := false, resValid := false, eos := false, encClosed := false, errors := 0 } })

end Sys2Proof.Machine
end

