-- ==== Sys2Proof/Machine/DecodeCommands.lean ====
section
/-! DEFINITION. The decode family: DEC_INIT, GET_BITS, DEC_SYM (spec/42_decode.md R140 to R142). -/

namespace Sys2Proof.Machine

/-- DEC_INIT (R140). -/
def execDecInit (s : State) : Host.Outcome State Fault Refusal :=
  if !s.tables.root.valid then .next (raiseErr .empty s)
  else if !s.tables.root.isLeaf && bitlenTooBig s then .next (raiseErr .param s)
  else .next (complete false
    { s with iptr := 0, degenRemain := s.tables.degenWeight, status := { s.status with eos := false } })

/-- GET_BITS n (R141): the next `n` input bits, first bit most significant, into RESULT. -/
def execGetBits (n : Nat) (s : State) : Host.Outcome State Fault Refusal :=
  if bitlenTooBig s then .next (raiseErr .param s)
  else if s.iptr.toNat + n > s.bitlen.toNat then .next (raiseErr .underrun s)
  else
    let (v, d) := takeBits s.ibuf n s.iptr.toNat 0 s.draws
    .next (complete true
      { withDraws d s with result := BitVec.ofNat 32 v, iptr := s.iptr + BitVec.ofNat 32 n })

/-- "No symbol left": EOS is set and nothing is emitted (R142). -/
def endOfStream (s : State) : State := complete false { s with status := { s.status with eos := true } }

/-- DEC_SYM's branch for a leaf root, the degenerate one-leaf tree (R142). -/
def decSymLeafRoot (s : State) : Host.Outcome State Fault Refusal :=
  if s.tables.root.val.toNat ≥ s.params.alphabet then .next (raiseErr .table s)
  else if s.degenRemain = 0 then .next (endOfStream s)
  else .next (complete true
    { s with result := s.tables.root.val.setWidth 32, degenRemain := s.degenRemain - 1,
             status := { s.status with eos := false } })

/-- DEC_SYM's branch for an internal root: the walk of DT from ROOT (R142). -/
def decSymWalk (s : State) : Host.Outcome State Fault Refusal :=
  if bitlenTooBig s then .next (raiseErr .param s)
  else if s.iptr.toNat ≥ s.bitlen.toNat then .next (endOfStream s)
  else
    match walk s (s.bitlen.toNat - s.iptr.toNat) s.tables.root.val.toNat s.iptr.toNat s.draws with
    | (.error e, d)      => .next (raiseErr e (withDraws d s))
    | (.ok (sym, p), d)  => .next (complete true
        { withDraws d s with result := sym.setWidth 32, iptr := BitVec.ofNat 32 p,
                             status := { s.status with eos := false } })

/-- DEC_SYM (R142). -/
def execDecSym (s : State) : Host.Outcome State Fault Refusal :=
  if !s.tables.root.valid then .next (raiseErr .empty s)
  else if s.tables.root.isLeaf then decSymLeafRoot s
  else decSymWalk s

end Sys2Proof.Machine
end

