-- ==== Sys2Proof/Machine/EncodeCommands.lean ====
section
/-! DEFINITION. The encode family: ENC_INIT, PUT_BITS, ENC_SYM, FLUSH (spec/41_encode.md R121 to R125). -/

namespace Sys2Proof.Machine

/-- ENC_INIT (R121). -/
def execEncInit (s : State) : Host.Outcome State Fault Refusal :=
  .next (complete false
    { s with acc := 0, accN := 0, optr := 0, bitcount := 0, status := { s.status with encClosed := false } })

/-- PUT_BITS n (R122): packs `DATA[n-1:0]`. -/
def execPutBits (n : Nat) (s : State) : Host.Outcome State Fault Refusal :=
  if s.status.encClosed then .next (raiseErr .seq s)
  else
    match pushBits n s.data s with
    | .error e => .next (raiseErr e s)
    | .ok t    => .next (complete false t)

/-- ENC_SYM sym (R124): packs `CODE[LEN-1:0]` of the entry `Lookup` finds; MISSING is set when it is a fallback. -/
def execEncSym (sym : Nat) (s : State) : Host.Outcome State Fault Refusal :=
  if s.status.encClosed then .next (raiseErr .seq s)
  else
    match lookup s sym with
    | (.error e, d) => .next (raiseErr e (withDraws d s))
    | (.ok f, d) =>
      match pushBits f.len f.code (withDraws d s) with
      | .error e => .next (raiseErr e (withDraws d s))
      | .ok t    => .next (complete false (if f.fallback then setErr .missing t else t))

/-- FLUSH (R125): pads with zero bits to a byte boundary, writes the last byte, and closes the stream. -/
def execFlush (s : State) : Host.Outcome State Fault Refusal :=
  if s.status.encClosed then .next (complete false s)
  else if s.accN.toNat > 0 then
    if s.optr.toNat + 1 > s.params.obufSize then .next (raiseErr .oflow s)
    else .next (complete false
      { s with obuf := Memory.write s.obuf s.optr.toNat s.acc, optr := s.optr + 1, acc := 0, accN := 0,
               status := { s.status with encClosed := true } })
  else .next (complete false { s with status := { s.status with encClosed := true } })

end Sys2Proof.Machine
end

