-- ==== Sys2Proof/Machine/Dispatch.lean ====
section
/-! DEFINITION. Which meaning each command has: one arm per constructor of Instr (spec/30_encoding.md R82). -/

namespace Sys2Proof.Machine

def exec (i : Instr) (s : State) : Host.Outcome State Fault Refusal :=
  match i with
  | .nop => Sys2Proof.Machine.execNop s
  | .encInit => Sys2Proof.Machine.execEncInit s
  | .putBits n => Sys2Proof.Machine.execPutBits n s
  | .encSym sym => Sys2Proof.Machine.execEncSym sym s
  | .flush => Sys2Proof.Machine.execFlush s
  | .decInit => Sys2Proof.Machine.execDecInit s
  | .getBits n => Sys2Proof.Machine.execGetBits n s
  | .decSym => Sys2Proof.Machine.execDecSym s
  | .softReset => Sys2Proof.Machine.execSoftReset s

end Sys2Proof.Machine
end

