-- ==== Sys2Proof/Machine/Step.lean ====
section
/-! DEFINITION. One step of HBP: the next agent's turn (spec/00_scope.md R12, spec/20_memory.md R66, spec/30_encoding.md
R90). -/

namespace Sys2Proof.Machine

/-- `EngineStep` on the pending word (R90): decode it, raise ERR_ILLEGAL if it encodes no command (R85), else run it. -/
def engineStep (w : Word) (s : State) : Host.Outcome State Fault Refusal :=
  match decode s.params w with
  | .error _ => .next (raiseErr .illegal s)
  | .ok i    => exec i s

/-- The engine's turn: enabled exactly when PEND is non-empty (R90); otherwise nothing happens (log 3). -/
def engineTurn (s : State) : Host.Outcome State Fault Refusal :=
  match s.pend with
  | none   => .next s
  | some w => engineStep w s

/-- One step: the first turn of the agenda; with none to come, the engine's turn (R202, log 3). -/
def step (s : State) : Host.Outcome State Fault Refusal :=
  match s.agenda with
  | []                       => engineTurn s
  | .engine :: rest          => engineTurn { s with agenda := rest }
  | .busRead a :: rest       => .next (busRead a { s with agenda := rest })
  | .busWrite a w :: rest    => .next (busWrite a w { s with agenda := rest })
  | .hardReset :: rest       => .next (hardReset { s with agenda := rest })

/-- The state in which the very next step is the engine's and runs the command word `w` of `nbits` bits: the word stands
in PEND, the place the engine takes its command from (R38, R90), and the engine moves next (log 11). -/
def State.withFetchWord (s : State) (nbits w : Nat) : State :=
  { s with pend := some (BitVec.ofNat 32 (w % 2 ^ nbits)), agenda := .engine :: s.agenda }

end Sys2Proof.Machine
end

