-- ==== Sys2Proof/Machine/HostTables.lean ====
section
/-! DEFINITION. Reference functions on bit strings (spec/00_scope.md R10, spec/41_encode.md R126, spec/42_decode.md R143)
and the host-side rules of spec/40_table_generation.md (R101 to R115): what a conforming host computes and loads. HBP
executes none of it (R4); no field of State holds any of it (R20), and only statements use it (log 13). -/

namespace Sys2Proof.Machine

/-! ### Bit strings -/

/-- `expand(x) = x[7] x[6] ... x[0]` (R143). -/
def byteBits (x : Byte) : List Bool :=
  [x.getLsbD 7, x.getLsbD 6, x.getLsbD 5, x.getLsbD 4, x.getLsbD 3, x.getLsbD 2, x.getLsbD 1, x.getLsbD 0]

/-- The bit string `v[n-1] ... v[0]`, first bit first (R10, R120). -/
def bitsOf (v : Word) : Nat → List Bool
  | 0     => []
  | k + 1 => v.getLsbD k :: bitsOf v k

/-- The number a bit string spells, first bit most significant (R10). -/
def bitsValue (bs : List Bool) : Nat := bs.foldl (fun v b => 2 * v + b.toNat) 0

/-- `B ++ "0"^((8 - |B| mod 8) mod 8)` (R126). -/
def padBits (bs : List Bool) : List Bool := bs ++ List.replicate ((8 - bs.length % 8) % 8) false

/-- `pack(B)`: the padded bit string, 8 bits per byte, most significant first (R126). -/
def packBytes (bs : List Bool) : List Byte :=
  (List.range ((padBits bs).length / 8)).map
    (fun i => BitVec.ofNat 8 (bitsValue (((padBits bs).drop (8 * i)).take 8)))

/-- `unpack(P, L)`: the first `L` bits of the bytes expanded (R143). -/
def unpackBits (bytes : List Byte) (len : Nat) : List Bool := (bytes.flatMap byteBits).take len

/-! ### Frequency table and tree -/

/-- `build(text)`: each distinct symbol with its count (R101), in ascending symbol order (R103). -/
def buildFrequencies (text : List Nat) : Memory Nat :=
  text.foldl (fun table s => Memory.write table s ((Memory.read? table s).getD 0 + 1)) []

/-- A Huffman tree with the weights of its nodes (R104, R105). -/
inductive Tree where
  | leaf (sym weight : Nat)
  | node (left right : Tree) (weight : Nat)
deriving DecidableEq, Repr

/-- The weight of a tree's root. -/
def treeWeight : Tree → Nat
  | .leaf _ w   => w
  | .node _ _ w => w

/-- A tree in the priority queue, with its insertion sequence number (R103). -/
structure QueueItem where
  seq  : Nat
  tree : Tree
deriving DecidableEq, Repr

/-- Least `(weight, seq)` first, in lexicographic order (R104). -/
def queueBefore (x y : QueueItem) : Bool :=
  treeWeight x.tree < treeWeight y.tree || (treeWeight x.tree == treeWeight y.tree && x.seq < y.seq)

/-- Insert into a queue kept in extraction order. -/
def queueInsert (x : QueueItem) : List QueueItem → List QueueItem
  | []     => [x]
  | y :: q => if queueBefore x y then x :: y :: q else y :: queueInsert x q

/-- The leaves, "inserted in ascending symbol order and numbered 0, 1, 2, ... in that order" (R103). -/
def initialQueue (table : Memory Nat) : List QueueItem :=
  (table.zipIdx.map (fun e => { seq := e.2, tree := Tree.leaf e.1.1 e.1.2 })).foldl (fun q x => queueInsert x q) []

/-- The loop of R104, `fuel` passes at most: the two least items become the children of a new node, "the first node
extracted becomes the left child". -/
def mergeQueue : (fuel seq : Nat) → List QueueItem → Option Tree
  | _, _, []  => none
  | _, _, [x] => some x.tree
  | 0, _, _   => none
  | fuel + 1, seq, x :: y :: rest =>
    mergeQueue fuel (seq + 1)
      (queueInsert { seq := seq, tree := .node x.tree y.tree (treeWeight x.tree + treeWeight y.tree) } rest)

/-- `buildTree(table)` (R104, R105): `none` is EmptyAlphabetError (R102). -/
def buildTree (table : Memory Nat) : Option Tree := mergeQueue table.length table.length (initialQueue table)

/-! ### Codes -/

/-- The walk of R106: the code of each leaf below a node reached by `path`. -/
def walkCodes : Tree → List Bool → List (Nat × List Bool)
  | .leaf s _, path   => [(s, path)]
  | .node l r _, path => walkCodes l (path ++ [false]) ++ walkCodes r (path ++ [true])

/-- `assignCodes(root)` (R106), and the code "1" for a bare leaf (R107). -/
def assignCodes : Tree → List (Nat × List Bool)
  | .leaf s _   => [(s, [true])]
  | .node l r w => walkCodes (.node l r w) []

/-- `codes[s]`, if `s` has a code. -/
def codeOf (codes : List (Nat × List Bool)) (s : Nat) : Option (List Bool) := Memory.read? codes s

/-- `code'(s)` of R110: the code of `s`, else that of the space character, else that of the least symbol with a code. -/
def codeOrFallback (codes : List (Nat × List Bool)) (space s : Nat) : Option (List Bool) :=
  match codeOf codes s with
  | some c => some c
  | none =>
    match codeOf codes space with
    | some c => some c
    | none   => ((codes.map Prod.fst).min?).bind (codeOf codes)

/-- `encode(text, codes)` (R110); `none` where the table is empty. -/
def encodeText (codes : List (Nat × List Bool)) (space : Nat) (text : List Nat) : Option (List Bool) :=
  (text.mapM (codeOrFallback codes space)).map List.flatten

/-- The loop of `decode` for an Internal root (R111); `none` is MalformedPayloadError. -/
def decodeLoop (root : Tree) : Tree → List Bool → Option (List Nat)
  | n, []      => if n = root then some [] else none
  | n, b :: bs =>
    match n with
    | .leaf _ _   => none
    | .node l r _ =>
      match (if b then r else l) with
      | .leaf s _ => (decodeLoop root root bs).map (s :: ·)
      | m         => decodeLoop root m bs

/-- `decode(root, bits)` (R111). -/
def decodeText (root : Tree) (bits : List Bool) : Option (List Nat) :=
  match root with
  | .leaf s w   => some (List.replicate w s)
  | .node _ _ _ => decodeLoop root root bits

/-! ### Table images -/

/-- How many Internal nodes a tree has. -/
def internalNodes : Tree → Nat
  | .leaf _ _   => 0
  | .node l r _ => internalNodes l + internalNodes r + 1

/-- The descriptor of a child `m` that has index `j` if it is Internal (R113). -/
def childDesc (m : Tree) (j : Nat) : Desc :=
  match m with
  | .leaf s _   => { leaf := true, val := BitVec.ofNat 16 s }
  | .node _ _ _ => { leaf := false, val := BitVec.ofNat 16 j }

/-- The DT slots of a tree whose Internal nodes are numbered in pre-order from `i` on: index, LEFT, RIGHT (R113). -/
def dtSlots : Tree → Nat → List (Nat × Desc × Desc)
  | .leaf _ _, _   => []
  | .node l r _, i =>
    (i, childDesc l (i + 1), childDesc r (i + 1 + internalNodes l)) ::
      (dtSlots l (i + 1) ++ dtSlots r (i + 1 + internalNodes l))

/-- The root image: ROOT (R114). -/
def rootImage : Tree → Root
  | .leaf s _   => { valid := true, isLeaf := true, val := BitVec.ofNat 16 s }
  | .node _ _ _ => { valid := true, isLeaf := false, val := 0 }

/-- DEGEN_WEIGHT: the weight of a leaf root, else 0 (R114). -/
def degenImage : Tree → Word
  | .leaf _ w   => BitVec.ofNat 32 w
  | .node _ _ _ => 0

/-- The whole image of a tree (R112, R113, R114). -/
def treeImage (t : Tree) : TableImage :=
  { ctControl := (assignCodes t).foldl
      (fun m c => Memory.write m c.1 { valid := true, len := BitVec.ofNat 6 c.2.length }) [],
    ctCode := (assignCodes t).foldl (fun m c => Memory.write m c.1 (BitVec.ofNat 32 (bitsValue c.2))) [],
    dtLeft := (dtSlots t 0).map (fun x => (x.1, x.2.1)),
    dtRight := (dtSlots t 0).map (fun x => (x.1, x.2.2)),
    root := rootImage t,
    degenWeight := degenImage t }

/-- What a conforming host loads for a text: the image of its tree, or no tree (R102, R104, R105). -/
def textImage (text : List Nat) : TableImage :=
  match buildTree (buildFrequencies text) with
  | none   => TableImage.empty
  | some t => treeImage t

/-- "Every code length is at most MAX_CODE_LEN and every symbol is below ALPHABET" (R115). -/
def fitsBuild (p : Params) (codes : List (Nat × List Bool)) : Bool :=
  codes.all (fun c => decide (c.1 < p.alphabet) && decide (c.2.length ≤ p.maxCodeLen))

end Sys2Proof.Machine
end

