-- ==== Sys2Proof/Machine/Assembler.lean ====
section
/-! DEFINITION. The host's statements and pseudo-instructions as the turns they stand for (spec/30_encoding.md R91, R92;
spec/70_reset_and_hazards.md R193 to R195). -/

namespace Sys2Proof.Machine

/-- `WR reg, value` (R91). -/
def wrReg (r : Reg) (v : Word) : Turn := .busWrite (regOffset r) v

/-- `RD reg` (R91). -/
def rdReg (r : Reg) : Turn := .busRead (regOffset r)

/-- `POLL`, where the engine takes its turn after `waits` polls that read BUSY = 1 (R91, log 17). -/
def poll (waits : Nat) : List Turn :=
  List.replicate waits (rdReg .status) ++ [.engine, rdReg .status]

/-- A command mnemonic with its operands: `WR CMD, Encode(C)`, then `POLL` (R92). -/
def issue (i : Instr) (waits : Nat) : List Turn := wrReg .cmd (encode i) :: poll waits

/-- `PUTV n, v` (R92). -/
def putv (n : Nat) (v : Word) (waits : Nat) : List Turn := wrReg .data v :: issue (.putBits n) waits

/-- `ENC_STR "t"` (R92). -/
def encStr (text : List Nat) (waits : Nat) : List Turn := text.flatMap (fun c => issue (.encSym c) waits)

/-- The address of a CT control word, `0x100000 + 8s` (R56). -/
def ctControlAddr (s : Nat) : Addr := BitVec.ofNat 24 (0x100000 + 8 * s)

/-- The address of a CT code word, `0x100000 + 8s + 4` (R56). -/
def ctCodeAddr (s : Nat) : Addr := BitVec.ofNat 24 (0x100000 + 8 * s + 4)

/-- The address of a LEFT descriptor, `0x080000 + 8i` (R57). -/
def dtLeftAddr (i : Nat) : Addr := BitVec.ofNat 24 (0x080000 + 8 * i)

/-- The address of a RIGHT descriptor, `0x080000 + 8i + 4` (R57). -/
def dtRightAddr (i : Nat) : Addr := BitVec.ofNat 24 (0x080000 + 8 * i + 4)

/-- The address of the IBUF word of bytes `4k .. 4k+3` (R59). -/
def ibufAddr (k : Nat) : Addr := BitVec.ofNat 24 (0x020000 + 4 * k)

/-- The address of the OBUF word of bytes `4k .. 4k+3` (R58). -/
def obufAddr (k : Nat) : Addr := BitVec.ofNat 24 (0x010000 + 4 * k)

/-- `LDCODE s, "b"` (R92). -/
def ldcode (s : Nat) (b : List Bool) : List Turn :=
  [ .busWrite (ctControlAddr s) (0x80000000 ||| BitVec.ofNat 32 b.length),
    .busWrite (ctCodeAddr s) (BitVec.ofNat 32 (bitsValue b)) ]

/-- `LDNODE i, L, R` (R92). -/
def ldnode (i : Nat) (l r : Desc) : List Turn :=
  [ .busWrite (dtLeftAddr i) (descWord l), .busWrite (dtRightAddr i) (descWord r) ]

/-- `LDROOT` of a root image (R92). -/
def ldroot (r : Root) : List Turn := [ wrReg .root (rootWord r) ]

/-- Step 2 of R193 for a tree: the CT image, the DT image, ROOT and DEGEN_WEIGHT. -/
def loadTree (t : Tree) : List Turn :=
  (assignCodes t).flatMap (fun c => ldcode c.1 c.2) ++
  (dtSlots t 0).flatMap (fun x => ldnode x.1 x.2.1 x.2.2) ++
  ldroot (rootImage t) ++ [ wrReg .degenWeight (degenImage t) ]

/-- The word of a payload's bytes `4k .. 4k+3`; "bytes past m in the last word are don't-care" (R59), and `filler` says
what the host writes there. -/
def payloadWord (bytes : List Byte) (filler : Byte) (k : Nat) : Word :=
  (bytes.getD (4 * k + 3) filler) ++ (bytes.getD (4 * k + 2) filler) ++
    (bytes.getD (4 * k + 1) filler) ++ (bytes.getD (4 * k) filler)

/-- Load a payload of `m` bytes into IBUF: "words 0 .. ceil(m/4) - 1" (R59). -/
def loadPayload (bytes : List Byte) (filler : Byte) : List Turn :=
  (List.range ((bytes.length + 3) / 4)).map (fun k => .busWrite (ibufAddr k) (payloadWord bytes filler k))

/-- An encode sequence of R194. -/
def encodeSequence (text : List Nat) (waits : Nat) : List Turn :=
  issue .encInit waits ++ encStr text waits ++ issue .flush waits

/-- A decode sequence of R195 of `n` DEC_SYM commands, the payload and BITLEN written first. -/
def decodeSequence (bytes : List Byte) (filler : Byte) (bitlen : Word) (n waits : Nat) : List Turn :=
  loadPayload bytes filler ++ [ wrReg .bitlen bitlen ] ++ issue .decInit waits ++
    (List.replicate n (issue .decSym waits ++ [ rdReg .result ])).flatten

end Sys2Proof.Machine
end

