-- ==== Sys2Proof/Safety.lean ====
section
/-! DEFINITION. What holds of every reachable state, and the views of a state that the statements speak of. -/

namespace Sys2Proof.Machine

/-! ### The invariant -/

/-- Every listed index is below the size of the memory. -/
abbrev keysBelow {α : Type} (m : Memory α) (n : Nat) : Prop := ∀ x ∈ m, x.1 < n

/-- CT and DT are in canonical form and inside their sizes (spec/10_state.md R40, R41). -/
structure TablesWf (p : Params) (im : TableImage) : Prop where
  controlWf    : Memory.wf im.ctControl
  codeWf       : Memory.wf im.ctCode
  leftWf       : Memory.wf im.dtLeft
  rightWf      : Memory.wf im.dtRight
  controlBelow : keysBelow im.ctControl p.alphabet
  codeBelow    : keysBelow im.ctCode p.alphabet
  leftBelow    : keysBelow im.dtLeft p.dtNodes
  rightBelow   : keysBelow im.dtRight p.dtNodes

/-- A legal build: the numbers of R6 and a ROM image that fits them. -/
structure BuildOk (p : Params) : Prop where
  legal : p.legal
  image : TablesWf p p.romImage

/-- The packer invariant, the three facts of spec/41_encode.md R127. -/
structure PackerInv (s : State) : Prop where
  /-- "if `ENC_CLOSED = 0`: `BITCOUNT = 8 · OPTR + ACC_N`, and `ACC_N ≤ 7`" (the bound is ACC_N's type). -/
  whileOpen   : s.status.encClosed = false → s.bitcount.toNat = 8 * s.optr.toNat + s.accN.toNat
  /-- "if `ENC_CLOSED = 1`: `ACC_N = 0` and `OPTR = ceil(BITCOUNT / 8)`". -/
  whileClosed : s.status.encClosed = true → s.accN = 0 ∧ s.optr.toNat = (s.bitcount.toNat + 7) / 8
  /-- "`ACC mod 2^(8 - ACC_N) = 0`". -/
  accLow      : s.acc.toNat % 2 ^ (8 - s.accN.toNat) = 0

/-- What every reachable state satisfies. -/
structure Inv (s : State) : Prop where
  build        : BuildOk s.params
  tables       : TablesWf s.params s.tables
  /-- "No bus write changes them" (R49). -/
  romFixed     : s.params.tablesWritable = false → s.tables = s.params.romImage
  obufWf       : Memory.wf s.obuf
  obufBelow    : keysBelow s.obuf s.params.obufSize
  ibufWf       : Memory.wf s.ibuf
  ibufBelow    : keysBelow s.ibuf s.params.ibufSize
  /-- `0 ≤ OPTR ≤ OBUF_SIZE` (R31, R48). -/
  optrBound    : s.optr.toNat ≤ s.params.obufSize
  /-- The bytes of the stream, below OPTR, have been written. -/
  streamWritten : ∀ i < s.optr.toNat, (Memory.read? s.obuf i).isSome = true
  /-- `IPTR ≤ 8 · IBUF_SIZE` (R48). -/
  iptrBound    : s.iptr.toNat ≤ 8 * s.params.ibufSize
  packer       : PackerInv s

/-! ### Views of a state -/

/-- The first `n` bytes of a buffer, if all have been written. -/
def bufferBytes (m : Memory Byte) (n : Nat) : Option (List Byte) := (List.range n).mapM (Memory.read? m)

/-- The payload so far, `OBUF[0..OPTR-1]`. -/
def payload (s : State) : Option (List Byte) := bufferBytes s.obuf s.optr.toNat

/-- The pending bits of the accumulator: `ACC[7-j]` is the `j`-th for `j < ACC_N` (R39). -/
def pendingBits (s : State) : List Bool := (byteBits s.acc).take s.accN.toNat

/-- The packed stream: the bits of the payload so far and the pending bits. -/
def packedBits (s : State) : Option (List Bool) :=
  (payload s).map (fun bytes => bytes.flatMap byteBits ++ pendingBits s)

/-- IBUF holds the bytes `P` from index 0 on (R143). -/
def ibufHolds (s : State) (bytes : List Byte) : Prop :=
  ∀ i < bytes.length, Memory.read? s.ibuf i = bytes[i]?

/-- DT and ROOT hold the image of the tree `t` (spec/40_table_generation.md R113, R114). -/
def holdsTree (s : State) (t : Tree) : Prop :=
  (∀ x ∈ dtSlots t 0, Memory.read? s.tables.dtLeft x.1 = some x.2.1 ∧ Memory.read? s.tables.dtRight x.1 = some x.2.2) ∧
  s.tables.root = rootImage t

/-- The node R142's loop stands at after consuming `bits` from `node` on, where every node on the way is in range and every
child descriptor on the way is written and internal. -/
def follow (s : State) : List Bool → Nat → Option Nat
  | [], node      => some node
  | b :: bs, node =>
    if node < s.params.dtNodes then
      match Memory.read? (if b then s.tables.dtRight else s.tables.dtLeft) node with
      | some c => if c.leaf then none else follow s bs c.val.toNat
      | none   => none
    else none

/-- CT holds the image of the codes `codes` (R112). -/
def holdsCodes (s : State) (codes : List (Nat × List Bool)) : Prop :=
  ∀ sym, match codeOf codes sym with
    | some k => Memory.read? s.tables.ctControl sym = some { valid := true, len := BitVec.ofNat 6 k.length } ∧
        Memory.read? s.tables.ctCode sym = some (BitVec.ofNat 32 (bitsValue k))
    | none => ctValid s sym = false

/-- The symbols of a tree, left to right. -/
def treeSymbols : Tree → List Nat
  | .leaf s _   => [s]
  | .node l r _ => treeSymbols l ++ treeSymbols r

/-- The entry `Lookup(sym)` uses and its fallback mark, in the words of R123: the symbol's own entry if it is valid; else,
with STRICT = 0, the space character's if that is valid, else the valid entry of least symbol value. -/
def LookupChooses (s : State) (sym entry : Nat) (fb : Bool) : Prop :=
  (ctValid s sym = true ∧ entry = sym ∧ fb = false) ∨
  (ctValid s sym = false ∧ s.ctrl.strict = false ∧ fb = true ∧
    (∃ u < s.params.alphabet, ctValid s u = true) ∧
    if s.ctrl.spaceSym.toNat < s.params.alphabet ∧ ctValid s s.ctrl.spaceSym.toNat = true then
      entry = s.ctrl.spaceSym.toNat
    else
      entry < s.params.alphabet ∧ ctValid s entry = true ∧ ∀ u < entry, ctValid s u = false)

/-- The bit strings of the given lengths, one after another from the front of `bs` (R143's "consecutive slices"). -/
def slices : List Nat → List Bool → List (List Bool)
  | [], _       => []
  | n :: ns, bs => bs.take n :: slices ns (bs.drop n)

/-- What no command writes (R28, R33, R63): the build, CTRL, DATA, BITLEN, the tables and IBUF; and of the model's own
fields the turns still to come and the last answer. -/
def sameHostState (s t : State) : Prop :=
  t.params = s.params ∧ t.ctrl = s.ctrl ∧ t.data = s.data ∧ t.bitlen = s.bitlen ∧ t.tables = s.tables ∧
  t.ibuf = s.ibuf ∧ t.agenda = s.agenda ∧ t.answer = s.answer

/-- The unpacker's registers and flag: IPTR, DEGEN_REMAIN, RESULT, EOS. -/
def sameUnpacker (s t : State) : Prop :=
  t.iptr = s.iptr ∧ t.degenRemain = s.degenRemain ∧ t.result = s.result ∧ t.status.eos = s.status.eos

/-- The packer's registers, flag and buffer: ACC, ACC_N, OPTR, BITCOUNT, ENC_CLOSED, OBUF. -/
def samePacker (s t : State) : Prop :=
  t.acc = s.acc ∧ t.accN = s.accN ∧ t.optr = s.optr ∧ t.bitcount = s.bitcount ∧
  t.status.encClosed = s.status.encClosed ∧ t.obuf = s.obuf

/-- The ranges of the address map that name nothing (spec/20_memory.md R51). -/
def unmapped (p : Params) (a : Addr) : Prop :=
  ¬ (a.toNat < 0x40 ∨
     (0x010000 ≤ a.toNat ∧ a.toNat < 0x010000 + p.obufSize) ∨
     (0x020000 ≤ a.toNat ∧ a.toNat < 0x020000 + p.ibufSize) ∨
     (0x080000 ≤ a.toNat ∧ a.toNat < 0x080000 + 8 * p.dtNodes) ∨
     (0x100000 ≤ a.toNat ∧ a.toNat < 0x100000 + 8 * p.alphabet))

/-- A turn of the host: a bus transaction. -/
def isHostTurn : Turn → Bool
  | .busRead _    => true
  | .busWrite _ _ => true
  | .engine       => false
  | .hardReset    => false

/-! ### Runs of commands -/

/-- Run the commands in order. -/
def execAll : List Instr → State → Option State
  | [], s        => some s
  | i :: rest, s =>
    match exec i s with
    | .next t => execAll rest t
    | _       => none

/-- The state `exec i s` answers, if it is a next state. -/
def execNext (i : Instr) (s : State) : Option State :=
  match exec i s with
  | .next t => some t
  | _       => none

/-- The state with `STATUS[19:8]` replaced. -/
def withErrors (e : BitVec 12) (s : State) : State := { s with status := { s.status with errors := e } }

/-- The command completes without error and without warning: from the state with the error bits clear it sets none. (A bit
that is set already does not tell, because "a repeat of a set bit changes nothing", R180. A run that reads unwritten cells is
judged by the draws it takes itself: log 4.) -/
def setsNoError (i : Instr) (s : State) : Bool :=
  match execNext i (withErrors 0 s) with
  | some t => t.status.errors == 0
  | none   => false

/-- No command of the run fails, the host writing DATA before each: `(v, i)` is `WR DATA, v`, then `i`. -/
def noneFails : List (Word × Instr) → State → Bool
  | [], _ => true
  | (v, i) :: rest, s =>
    setsNoError i { s with data := v } &&
      match execNext i { s with data := v } with
      | some t => noneFails rest t
      | none   => false

/-- What a PUT_BITS or ENC_SYM that took the state `s` to `t` packed "by those that completed without error: the `N` bits
of a PUT_BITS, or the code of an ENC_SYM" (R126). A command of the two that completes without error packs at least one bit,
and one that ends in an error leaves BITCOUNT as it was. -/
def bitsPacked (i : Instr) (s t : State) : List Bool :=
  if t.bitcount = s.bitcount then []
  else
    match i with
    | .putBits n  => bitsOf s.data n
    | .encSym sym =>
      match (lookup s sym).1 with
      | .ok f    => bitsOf f.code f.len
      | .error _ => []
    | _ => []

/-- Run the commands in order, the host writing DATA before each: `(v, i)` is `WR DATA, v`, then `i`. The second component
collects, in order, the bit strings packed (R126). -/
def encodeRun : List (Word × Instr) → State → Option (State × List Bool)
  | [], s => some (s, [])
  | (v, i) :: rest, s =>
    match execNext i { s with data := v } with
    | none => none
    | some t => (encodeRun rest t).map (fun r => (r.1, bitsPacked i { s with data := v } t ++ r.2))

/-- Run `n` commands `i`, collecting RESULT after each that leaves RES_VALID = 1 (spec/70_reset_and_hazards.md R195). -/
def collect (i : Instr) : Nat → State → Option (State × List Word)
  | 0, s     => some (s, [])
  | n + 1, s =>
    match execNext i s with
    | none => none
    | some t => (collect i n t).map (fun r => (r.1, (if t.status.resValid then [t.result] else []) ++ r.2))

/-- Run GET_BITS commands of the given sizes, collecting RESULT after each (R143). -/
def getBitsRun : List Nat → State → Option (State × List Word)
  | [], s => some (s, [])
  | n :: ns, s =>
    match execNext (.getBits n) s with
    | none => none
    | some t => (getBitsRun ns t).map (fun r => (r.1, (if t.status.resValid then [t.result] else []) ++ r.2))

end Sys2Proof.Machine
end

