-- ==== Sys2Proof/Certificates/Slice0/Obligations.lean ====
section
/-! DEFINITION. The statements about HBP for the provers. Each docstring names the rule of spec/ it formalises. -/

open Sys2Proof Sys2Proof.Machine

/-! ### Encoding -/

/-- "`Encode` is the inverse of rule R87" (spec/30_encoding.md R92), one direction: every well-formed command, with every
operand, decodes back from its word. -/
def Obligations.EncodedCommandDecodesBack : Prop :=
  ∀ (p : Params) (i : Instr), p.legal → i.wf p = true → decode p (encode i) = .ok i

/-- The other direction of R92: a word that decodes is the encoding of a well-formed command, so no bit is dropped. -/
def Obligations.DecodedWordIsTheEncodingOfItsCommand : Prop :=
  ∀ (p : Params) (w : Word) (i : Instr), decode p w = .ok i → i.wf p = true ∧ encode i = w

/-- R85 and R162: which words are illegal, in plain arithmetic on the word, and what executing one does. The turn taken off
the agenda is the model's form of the order of steps (log 2), and that the engine moves when the agenda is empty is the
model's choice (log 3). -/
def Obligations.WordIsIllegalExactlyUnderTheThreeConditions : Prop :=
  (∀ (p : Params) (w : Word),
    (∃ e, decode p w = .error e) ↔
      (w.toNat / 2 ^ 28 ∈ [0, 1, 4, 5, 7, 8] ∧ w.toNat % 2 ^ 28 ≠ 0) ∨
      (w.toNat / 2 ^ 28 ∈ [2, 6] ∧ w.toNat % 2 ^ 28 / 2 ^ 5 ≠ 0) ∨
      (w.toNat / 2 ^ 28 = 3 ∧ (w.toNat % 2 ^ 28 / 2 ^ 16 ≠ 0 ∨ p.alphabet ≤ w.toNat % 2 ^ 16)) ∨
      9 ≤ w.toNat / 2 ^ 28) ∧
  (∀ (s : State) (w : Word) (e : Illegal) (rest : List Turn),
    s.pend = some w → decode s.params w = .error e → s.agenda = .engine :: rest ∨ s.agenda = [] ∧ rest = [] →
      step s = .next { s with
        pend := none, agenda := rest,
        status := { s.status with errors := s.status.errors ||| errMask .illegal, resValid := false, done := true } })

/-- R82: a word selects at most one row of the opcode map, and it decodes to a row's command exactly when it selects that
row (and, for ENC_SYM, its symbol is below ALPHABET). -/
def Obligations.OpcodeMapDecidesTheCommand : Prop :=
  (∀ w : Word, ∀ r ∈ opcodeMap, ∀ r' ∈ opcodeMap, r.selects w = true → r'.selects w = true → r = r') ∧
  (∀ (p : Params) (w : Word), ∀ r ∈ opcodeMap,
    (∃ i, decode p w = .ok i ∧ mnemonic i = r.mnemonic) ↔
      (r.selects w = true ∧ (r.mnemonic = "ENC_SYM" → w.toNat % 2 ^ 16 < p.alphabet)))

/-- R83 and R84: how the operands are assembled, with the words those rules write out. -/
def Obligations.OperandFieldsAreReadAsWritten : Prop :=
  (∀ (p : Params) (w : Word) (n : Nat),
    decode p w = .ok (.putBits n) ∨ decode p w = .ok (.getBits n) → n = w.toNat % 2 ^ 5 + 1) ∧
  (∀ (p : Params) (w : Word) (sym : Nat), decode p w = .ok (.encSym sym) → sym = w.toNat % 2 ^ 16) ∧
  decode Params.standard 0x20000000 = .ok (.putBits 1) ∧
  decode Params.standard 0x2000001F = .ok (.putBits 32) ∧
  decode Params.standard 0x60000007 = .ok (.getBits 8) ∧
  decode Params.standard 0x30000061 = .ok (.encSym 0x61) ∧
  decode Params.standard 0x30000100 = .error .symbolRange

/-! ### Steps and agents -/

/-- R90: when the engine moves and PEND decodes to a command, the step is that command's meaning on the state with the
engine's turn taken off the agenda. -/
def Obligations.EngineStepRunsTheDecodedCommand : Prop :=
  ∀ (s : State) (w : Word) (i : Instr) (rest : List Turn),
    s.pend = some w → decode s.params w = .ok i →
      (s.agenda = [] → step s = exec i s) ∧
      (s.agenda = .engine :: rest → step s = exec i { s with agenda := rest })

/-- R12, R66, R90: a step is the next agent's turn. What an engine's turn does while PEND is empty, and that the engine
moves when the agenda is empty, are the model's choice (log 3); the order on the agenda is log 2. -/
def Obligations.StepTakesTheNextTurn : Prop :=
  ∀ (s : State) (rest : List Turn),
    (∀ a, s.agenda = .busRead a :: rest → step s = .next (busRead a { s with agenda := rest })) ∧
    (∀ a w, s.agenda = .busWrite a w :: rest → step s = .next (busWrite a w { s with agenda := rest })) ∧
    (s.agenda = .hardReset :: rest → step s = .next (hardReset { s with agenda := rest })) ∧
    (s.agenda = .engine :: rest → s.pend = none → step s = .next { s with agenda := rest }) ∧
    (s.agenda = [] → s.pend = none → step s = .next s)

/-- R170: "HBP never traps, halts or stalls on an error". Every step, and every command in every state, answers a next
state. -/
def Obligations.EveryStepAnswersANextState : Prop :=
  (∀ s : State, ∃ t, step s = .next t) ∧ (∀ (i : Instr) (s : State), ∃ t, exec i s = .next t)

/-- R202: "Every accepted command completes": however many host transactions come first, the pending command is still
there at the engine's turn, and that turn completes it. -/
def Obligations.AcceptedCommandCompletesAtTheEnginesTurn : Prop :=
  ∀ (s : State) (w : Word) (host rest : List Turn),
    s.pend = some w → s.agenda = host ++ .engine :: rest → (∀ x ∈ host, isHostTurn x = true) →
      ∃ t, Host.Core.run Sys2Proof.core (host.length + 1) s = .next t ∧
        t.pend = none ∧ t.status.done = true ∧ t.agenda = rest

/-- R171, R175: a command has only the effect of one error, whose code is 8 to 16, or it completes (R93): DONE is set, PEND
is empty, RES_VALID says whether it wrote RESULT (GET_BITS, and a DEC_SYM that emitted a symbol, R26), and no error bit is
set but MISSING as a warning (R174). What else a completing command does is said command by command below. SOFT_RESET clears
the error bits and is not meant. -/
def Obligations.CommandCompletesOrSetsExactlyOneErrorBit : Prop :=
  ∀ (i : Instr) (s t : State), i ≠ .softReset → exec i s = .next t →
    (∃ e d, causeCode e ≤ 16 ∧ s.draws ≤ d ∧ t = raiseErr e (withDraws d s)) ∨
    (t.status.done = true ∧ t.pend = none ∧
      (t.status.resValid = true ↔ (∃ n, i = .getBits n) ∨ (i = .decSym ∧ t.status.eos = false)) ∧
      (t.status.errors = s.status.errors ∨
        (∃ sym, i = .encSym sym) ∧ t.status.errors = s.status.errors ||| errMask .missing))

/-- R63, R28, R33: no command writes the tables, IBUF, CTRL, DATA, BITLEN or the build. -/
def Obligations.NoCommandWritesHostState : Prop :=
  ∀ (i : Instr) (s t : State), exec i s = .next t → sameHostState s t

/-- R171 to R173, bit by bit of STATUS: raising an error sets its bit and DONE, clears RES_VALID and BUSY, and leaves
every other bit; a bus error sets its bit alone; no register and no memory changes. The bits are R172's twelve. -/
def Obligations.RaisedErrorShowsInStatusAlone : Prop :=
  [ErrFlag.illegal, .empty, .missing, .malformed, .table, .oflow, .underrun, .seq, .param, .overrun, .busywr, .addr].map
    causeCode = [8, 9, 10, 11, 12, 13, 14, 15, 16, 17, 18, 19] ∧
  ∀ (e : ErrFlag) (s : State),
    (∀ j, (statusWord (setErr e s)).getLsbD j = if j = causeCode e then true else (statusWord s).getLsbD j) ∧
    { setErr e s with status := s.status } = s ∧
    (∀ j, (statusWord (raiseErr e s)).getLsbD j =
      if j = causeCode e ∨ j = 1 then true
      else if j = 2 ∨ j = 0 then false
      else (statusWord s).getLsbD j) ∧
    sameHostState s (raiseErr e s) ∧ sameUnpacker s (raiseErr e s) ∧ samePacker s (raiseErr e s) ∧
    (raiseErr e s).draws = s.draws

/-- R179, R180: "Error bits block nothing". Whatever error bits are set, a command does the same; the bits it raises are ORed
in, and of those set before it clears none (SOFT_RESET clears all). (Where a cell the command reads is unwritten, both runs
take the same draw: the model's choice, log 4.) -/
def Obligations.ErrorBitsBlockNothing : Prop :=
  ∀ (i : Instr) (s : State) (e : BitVec 12), ∃ (t : State) (raised : BitVec 12),
    exec i s = .next t ∧
    (i ≠ .softReset →
      t.status.errors = s.status.errors ||| raised ∧ exec i (withErrors e s) = .next (withErrors (e ||| raised) t)) ∧
    (i = .softReset → t.status.errors = 0 ∧ exec i (withErrors e s) = .next t)

/-! ### Encode family -/

/-- R121. -/
def Obligations.EncInitStartsAnEmptyStream : Prop :=
  (∀ (p : Params) (w : Word), w.toNat / 2 ^ 28 = 1 →
    (w = 0x10000000 → decode p w = .ok .encInit) ∧ (w ≠ 0x10000000 → ∃ e, decode p w = .error e)) ∧
  (∀ s : State, exec .encInit s = .next { s with
    acc := 0, accN := 0, optr := 0, bitcount := 0, pend := none,
    status := { s.status with encClosed := false, resValid := false, done := true } })

/-- R122, with the errors in its order. The bytes stored are those from OPTR on, `(ACC_N + n) div 8` of them (R120). -/
def Obligations.PutBitsAppendsTheLowBitsOfData : Prop :=
  (∀ (p : Params) (w : Word), w.toNat / 2 ^ 28 = 2 → w.toNat % 2 ^ 28 / 2 ^ 5 ≠ 0 → ∃ e, decode p w = .error e) ∧
  ∀ (s : State) (n : Nat), s.params.legal → 1 ≤ n → n ≤ 32 →
    decode s.params (0x20000000 + BitVec.ofNat 32 (n - 1)) = .ok (.putBits n) ∧
    (s.status.encClosed = true → exec (.putBits n) s = .next (raiseErr .seq s)) ∧
    (s.status.encClosed = false → s.optr.toNat + (s.accN.toNat + n) / 8 > s.params.obufSize →
      exec (.putBits n) s = .next (raiseErr .oflow s)) ∧
    (s.status.encClosed = false → s.optr.toNat + (s.accN.toNat + n) / 8 ≤ s.params.obufSize →
      ∃ t, exec (.putBits n) s = .next t ∧
        packedBits t = (packedBits s).map (· ++ bitsOf s.data n) ∧
        t.optr.toNat = s.optr.toNat + (s.accN.toNat + n) / 8 ∧
        t.accN.toNat = (s.accN.toNat + n) % 8 ∧
        (s.acc.toNat % 2 ^ (8 - s.accN.toNat) = 0 → t.acc.toNat % 2 ^ (8 - t.accN.toNat) = 0) ∧
        t.bitcount = s.bitcount + BitVec.ofNat 32 n ∧
        t.status = { s.status with resValid := false, done := true } ∧ t.pend = none ∧
        (∀ a, a < s.optr.toNat ∨ s.optr.toNat + (s.accN.toNat + n) / 8 ≤ a →
          Memory.read? t.obuf a = Memory.read? s.obuf a) ∧
        sameHostState s t ∧ sameUnpacker s t ∧ t.draws = s.draws)

/-- R124 and R123, the command that completes: the entry Lookup chooses is packed, and MISSING is set exactly when it is a
fallback. The bytes stored are those from OPTR on, `(ACC_N + LEN) div 8` of them. -/
def Obligations.EncSymPacksTheCodeLookupChooses : Prop :=
  ∀ (s : State) (sym entry : Nat) (fb : Bool) (len : BitVec 6) (code : Word),
    s.params.legal → sym < s.params.alphabet → s.status.encClosed = false →
    LookupChooses s sym entry fb →
    Memory.read? s.tables.ctControl entry = some { valid := true, len := len } →
    Memory.read? s.tables.ctCode entry = some code →
    1 ≤ len.toNat → len.toNat ≤ s.params.maxCodeLen →
    s.optr.toNat + (s.accN.toNat + len.toNat) / 8 ≤ s.params.obufSize →
      decode s.params (0x30000000 + BitVec.ofNat 32 sym) = .ok (.encSym sym) ∧
      ∃ t, exec (.encSym sym) s = .next t ∧
        packedBits t = (packedBits s).map (· ++ bitsOf code len.toNat) ∧
        t.optr.toNat = s.optr.toNat + (s.accN.toNat + len.toNat) / 8 ∧
        t.accN.toNat = (s.accN.toNat + len.toNat) % 8 ∧
        (s.acc.toNat % 2 ^ (8 - s.accN.toNat) = 0 → t.acc.toNat % 2 ^ (8 - t.accN.toNat) = 0) ∧
        t.bitcount = s.bitcount + BitVec.ofNat 32 len.toNat ∧
        t.status = { s.status with
          errors := if fb then s.status.errors ||| errMask .missing else s.status.errors,
          resValid := false, done := true } ∧
        t.pend = none ∧
        (∀ a, a < s.optr.toNat ∨ s.optr.toNat + (s.accN.toNat + len.toNat) / 8 ≤ a →
          Memory.read? t.obuf a = Memory.read? s.obuf a) ∧
        sameHostState s t ∧ sameUnpacker s t ∧ t.draws = s.draws

/-- R124's errors in their order, ERR_ILLEGAL apart (decode): ERR_SEQ, ERR_EMPTY, MISSING with STRICT = 1, ERR_TABLE,
ERR_OFLOW (with which MISSING is not set). The last two hold whether or not the chosen entry's code word is written: where it
is not, a draw is counted (log 5, 6). -/
def Obligations.EncSymRaisesItsErrorsInOrder : Prop :=
  ∀ (s : State) (sym : Nat), sym < s.params.alphabet →
    (s.status.encClosed = true → exec (.encSym sym) s = .next (raiseErr .seq s)) ∧
    (s.status.encClosed = false →
      ((∀ u < s.params.alphabet, ctValid s u = false) → exec (.encSym sym) s = .next (raiseErr .empty s)) ∧
      ((∃ u < s.params.alphabet, ctValid s u = true) → ctValid s sym = false → s.ctrl.strict = true →
        exec (.encSym sym) s = .next (raiseErr .missing s)) ∧
      (∀ entry fb len, LookupChooses s sym entry fb →
        Memory.read? s.tables.ctControl entry = some { valid := true, len := len } →
        ∃ d, s.draws ≤ d ∧ (Memory.read? s.tables.ctCode entry ≠ none → d = s.draws) ∧
          (len.toNat = 0 ∨ len.toNat > s.params.maxCodeLen →
            exec (.encSym sym) s = .next (raiseErr .table (withDraws d s))) ∧
          (1 ≤ len.toNat → len.toNat ≤ s.params.maxCodeLen →
            s.optr.toNat + (s.accN.toNat + len.toNat) / 8 > s.params.obufSize →
            exec (.encSym sym) s = .next (raiseErr .oflow (withDraws d s)))))

/-- R43 on the encode side: where the host has written the control word of the entry Lookup chooses but not its code word,
ENC_SYM still completes, with LEN bits of SOME value packed and every other effect as with a written one: the statement holds
whatever the draw is. That one draw is counted is the model's (log 4, 5). -/
def Obligations.EncSymOfAnUnwrittenCodeWordPacksADraw : Prop :=
  ∀ (s : State) (sym entry : Nat) (fb : Bool) (len : BitVec 6),
    s.params.legal → sym < s.params.alphabet → s.status.encClosed = false →
    LookupChooses s sym entry fb →
    Memory.read? s.tables.ctControl entry = some { valid := true, len := len } →
    Memory.read? s.tables.ctCode entry = none →
    1 ≤ len.toNat → len.toNat ≤ s.params.maxCodeLen →
    s.optr.toNat + (s.accN.toNat + len.toNat) / 8 ≤ s.params.obufSize →
      ∃ t v, exec (.encSym sym) s = .next t ∧
        packedBits t = (packedBits s).map (· ++ bitsOf v len.toNat) ∧
        t.optr.toNat = s.optr.toNat + (s.accN.toNat + len.toNat) / 8 ∧
        t.accN.toNat = (s.accN.toNat + len.toNat) % 8 ∧
        (s.acc.toNat % 2 ^ (8 - s.accN.toNat) = 0 → t.acc.toNat % 2 ^ (8 - t.accN.toNat) = 0) ∧
        t.bitcount = s.bitcount + BitVec.ofNat 32 len.toNat ∧
        t.status = { s.status with
          errors := if fb then s.status.errors ||| errMask .missing else s.status.errors,
          resValid := false, done := true } ∧
        t.pend = none ∧
        (∀ a, a < s.optr.toNat ∨ s.optr.toNat + (s.accN.toNat + len.toNat) / 8 ≤ a →
          Memory.read? t.obuf a = Memory.read? s.obuf a) ∧
        sameHostState s t ∧ sameUnpacker s t ∧ t.draws = s.draws + 1

/-- R125: FLUSH pads the stream with zero bits to a byte boundary, writes the last byte at OPTR, and closes the stream. The
premise on ACC's low bits is R127's, and holds of every reachable state (Obligations.EveryStepKeepsTheInvariant). -/
def Obligations.FlushPadsWritesAndCloses : Prop :=
  (∀ (p : Params) (w : Word), w.toNat / 2 ^ 28 = 4 →
    (w = 0x40000000 → decode p w = .ok .flush) ∧ (w ≠ 0x40000000 → ∃ e, decode p w = .error e)) ∧
  ∀ s : State, s.params.legal →
    (s.status.encClosed = true → exec .flush s = .next { s with
      pend := none, status := { s.status with resValid := false, done := true } }) ∧
    (s.status.encClosed = false → 0 < s.accN.toNat → s.optr.toNat + 1 > s.params.obufSize →
      exec .flush s = .next (raiseErr .oflow s)) ∧
    (s.status.encClosed = false → (s.accN = 0 ∨ s.optr.toNat + 1 ≤ s.params.obufSize) →
      s.optr.toNat ≤ s.params.obufSize → s.acc.toNat % 2 ^ (8 - s.accN.toNat) = 0 →
      ∃ t, exec .flush s = .next t ∧
        payload t = (packedBits s).map packBytes ∧
        t.optr.toNat = (8 * s.optr.toNat + s.accN.toNat + 7) / 8 ∧
        t.acc = 0 ∧ t.accN = 0 ∧ t.bitcount = s.bitcount ∧
        t.status = { s.status with encClosed := true, resValid := false, done := true } ∧ t.pend = none ∧
        (∀ a, a ≠ s.optr.toNat ∨ s.accN = 0 → Memory.read? t.obuf a = Memory.read? s.obuf a) ∧
        sameHostState s t ∧ sameUnpacker s t ∧ t.draws = s.draws)

/-- The frame of the storing commands, on every path: PUT_BITS, ENC_SYM and FLUSH store only the bytes of OBUF from the old
OPTR up to the new one, and leave the unpacker as it was (R63, R120, R125). -/
def Obligations.StoringCommandsStoreOnlyBetweenOldAndNewOptr : Prop :=
  ∀ (i : Instr) (s t : State), s.params.legal → s.optr.toNat ≤ s.params.obufSize →
    ((∃ n, i = .putBits n) ∨ (∃ sym, i = .encSym sym) ∨ i = .flush) → exec i s = .next t →
      s.optr.toNat ≤ t.optr.toNat ∧ t.optr.toNat ≤ s.params.obufSize ∧
      (∀ a, a < s.optr.toNat ∨ t.optr.toNat ≤ a → Memory.read? t.obuf a = Memory.read? s.obuf a) ∧
      sameUnpacker s t ∧ sameHostState s t

/-! ### Decode family -/

/-- R140, with the errors in its order. -/
def Obligations.DecInitStartsADecode : Prop :=
  (∀ (p : Params) (w : Word), w.toNat / 2 ^ 28 = 5 →
    (w = 0x50000000 → decode p w = .ok .decInit) ∧ (w ≠ 0x50000000 → ∃ e, decode p w = .error e)) ∧
  ∀ s : State,
    (s.tables.root.valid = false → exec .decInit s = .next (raiseErr .empty s)) ∧
    (s.tables.root.valid = true → s.tables.root.isLeaf = false → s.bitlen.toNat > 8 * s.params.ibufSize →
      exec .decInit s = .next (raiseErr .param s)) ∧
    (s.tables.root.valid = true → (s.tables.root.isLeaf = true ∨ s.bitlen.toNat ≤ 8 * s.params.ibufSize) →
      exec .decInit s = .next { s with
        iptr := 0, degenRemain := s.tables.degenWeight, pend := none,
        status := { s.status with eos := false, resValid := false, done := true } })

/-- R141: GET_BITS completes whatever IBUF holds, and where IBUF holds the bytes `P` it returns the next `n` bits of
`unpack(P, BITLEN)`, first bit most significant. -/
def Obligations.GetBitsReturnsTheNextBits : Prop :=
  (∀ (p : Params) (w : Word), w.toNat / 2 ^ 28 = 6 → w.toNat % 2 ^ 28 / 2 ^ 5 ≠ 0 → ∃ e, decode p w = .error e) ∧
  ∀ (s : State) (n : Nat), s.params.legal → 1 ≤ n → n ≤ 32 →
    decode s.params (0x60000000 + BitVec.ofNat 32 (n - 1)) = .ok (.getBits n) ∧
    (s.bitlen.toNat > 8 * s.params.ibufSize → exec (.getBits n) s = .next (raiseErr .param s)) ∧
    (s.bitlen.toNat ≤ 8 * s.params.ibufSize → s.iptr.toNat + n > s.bitlen.toNat →
      exec (.getBits n) s = .next (raiseErr .underrun s)) ∧
    (s.bitlen.toNat ≤ 8 * s.params.ibufSize → s.iptr.toNat + n ≤ s.bitlen.toNat →
      ∃ v d, exec (.getBits n) s = .next { s with
          result := BitVec.ofNat 32 v, iptr := s.iptr + BitVec.ofNat 32 n, pend := none, draws := d,
          status := { s.status with resValid := true, done := true } } ∧
        v < 2 ^ n ∧ (s.iptr + BitVec.ofNat 32 n).toNat = s.iptr.toNat + n ∧
        ∀ bytes : List Byte, ibufHolds s bytes → s.bitlen.toNat ≤ 8 * bytes.length →
          v = bitsValue (((unpackBits bytes s.bitlen.toNat).drop s.iptr.toNat).take n) ∧ d = s.draws)

/-- R142, the branch of a leaf root: "the bit-string is ignored entirely in this branch". -/
def Obligations.DecSymOfALeafRootRepeatsItsSymbol : Prop :=
  ∀ s : State, s.tables.root.valid = true → s.tables.root.isLeaf = true →
    (s.params.alphabet ≤ s.tables.root.val.toNat → exec .decSym s = .next (raiseErr .table s)) ∧
    (s.tables.root.val.toNat < s.params.alphabet → s.degenRemain = 0 →
      exec .decSym s = .next { s with
        pend := none, status := { s.status with eos := true, resValid := false, done := true } }) ∧
    (s.tables.root.val.toNat < s.params.alphabet → 0 < s.degenRemain.toNat →
      exec .decSym s = .next { s with
        result := s.tables.root.val.setWidth 32, degenRemain := s.degenRemain - 1, pend := none,
        status := { s.status with eos := false, resValid := true, done := true } } ∧
      (s.degenRemain - 1).toNat = s.degenRemain.toNat - 1)

/-- R142, the checks before the walk: no tree, BITLEN out of range, end of the stream at a code boundary. -/
def Obligations.DecSymChecksBeforeTheWalk : Prop :=
  (∀ (p : Params) (w : Word), w.toNat / 2 ^ 28 = 7 →
    (w = 0x70000000 → decode p w = .ok .decSym) ∧ (w ≠ 0x70000000 → ∃ e, decode p w = .error e)) ∧
  ∀ s : State,
    (s.tables.root.valid = false → exec .decSym s = .next (raiseErr .empty s)) ∧
    (s.tables.root.valid = true → s.tables.root.isLeaf = false →
      (s.bitlen.toNat > 8 * s.params.ibufSize → exec .decSym s = .next (raiseErr .param s)) ∧
      (s.bitlen.toNat ≤ 8 * s.params.ibufSize → s.bitlen.toNat ≤ s.iptr.toNat →
        exec .decSym s = .next { s with
          pend := none, status := { s.status with eos := true, resValid := false, done := true } }) ∧
      (s.bitlen.toNat ≤ 8 * s.params.ibufSize → s.iptr.toNat < s.bitlen.toNat →
        s.params.dtNodes ≤ s.tables.root.val.toNat → exec .decSym s = .next (raiseErr .table s)))

/-- R142, the walk, where DT and ROOT hold the image of a tree and IBUF the bytes `P`: the bits from IPTR on that spell a
symbol's code emit that symbol; bits that run out before any code is complete raise ERR_MALFORMED and move nothing. -/
def Obligations.DecSymWalksTheLoadedTree : Prop :=
  ∀ (s : State) (l r : Tree) (w : Nat) (bytes : List Byte),
    s.params.legal → holdsTree s (.node l r w) →
    internalNodes (.node l r w) ≤ s.params.dtNodes →
    (∀ x ∈ treeSymbols (.node l r w), x < s.params.alphabet) →
    ibufHolds s bytes → s.bitlen.toNat ≤ 8 * bytes.length → s.bitlen.toNat ≤ 8 * s.params.ibufSize →
    (∀ sym code, (sym, code) ∈ assignCodes (.node l r w) →
      code <+: (unpackBits bytes s.bitlen.toNat).drop s.iptr.toNat →
        exec .decSym s = .next { s with
          result := BitVec.ofNat 32 sym, iptr := s.iptr + BitVec.ofNat 32 code.length, pend := none,
          status := { s.status with eos := false, resValid := true, done := true } }) ∧
    (s.iptr.toNat < s.bitlen.toNat →
      (∀ sym code, (sym, code) ∈ assignCodes (.node l r w) →
        ¬ code <+: (unpackBits bytes s.bitlen.toNat).drop s.iptr.toNat) →
        exec .decSym s = .next (raiseErr .malformed s))

/-- R142, the loop, over any DT whatever, a cyclic or inconsistent one included: where the bits from IPTR on lead along
internal children to a node, what that node and its next bit do. -/
def Obligations.DecSymFollowsTheDecodeTable : Prop :=
  ∀ (s : State) (bytes : List Byte) (path : List Bool) (node : Nat),
    s.tables.root.valid = true → s.tables.root.isLeaf = false →
    ibufHolds s bytes → s.bitlen.toNat ≤ 8 * bytes.length → s.bitlen.toNat ≤ 8 * s.params.ibufSize →
    s.iptr.toNat < s.bitlen.toNat → path <+: (unpackBits bytes s.bitlen.toNat).drop s.iptr.toNat →
    follow s path s.tables.root.val.toNat = some node →
    (s.params.dtNodes ≤ node → exec .decSym s = .next (raiseErr .table s)) ∧
    (node < s.params.dtNodes → path.length = s.bitlen.toNat - s.iptr.toNat →
      exec .decSym s = .next (raiseErr .malformed s)) ∧
    (∀ (b : Bool) (c : Desc), node < s.params.dtNodes →
      path ++ [b] <+: (unpackBits bytes s.bitlen.toNat).drop s.iptr.toNat →
      Memory.read? (if b then s.tables.dtRight else s.tables.dtLeft) node = some c → c.leaf = true →
        (s.params.alphabet ≤ c.val.toNat → exec .decSym s = .next (raiseErr .table s)) ∧
        (c.val.toNat < s.params.alphabet → exec .decSym s = .next { s with
          result := c.val.setWidth 32, iptr := s.iptr + BitVec.ofNat 32 (path.length + 1), pend := none,
          status := { s.status with eos := false, resValid := true, done := true } }))

/-- R142 with R43 and R193, "A decode over an unwritten DT slot can therefore emit any symbol or raise ERR_TABLE or
ERR_MALFORMED": once the walk starts, whatever DT and IBUF hold or leave unwritten, DEC_SYM emits a symbol below ALPHABET
after at least one bit and none past BITLEN, or raises one of those two errors. The count of draws is the model's (log 4, 6). -/
def Obligations.DecSymWalkEmitsASymbolOrRaisesTableOrMalformed : Prop :=
  ∀ s : State, s.tables.root.valid = true → s.tables.root.isLeaf = false → s.bitlen.toNat ≤ 8 * s.params.ibufSize →
    s.iptr.toNat < s.bitlen.toNat →
    ∃ d, s.draws ≤ d ∧
      (exec .decSym s = .next (raiseErr .table (withDraws d s)) ∨
       exec .decSym s = .next (raiseErr .malformed (withDraws d s)) ∨
       ∃ (sym : BitVec 16) (k : Nat), sym.toNat < s.params.alphabet ∧ 1 ≤ k ∧ s.iptr.toNat + k ≤ s.bitlen.toNat ∧
         exec .decSym s = .next { s with
           result := sym.setWidth 32, iptr := s.iptr + BitVec.ofNat 32 k, pend := none, draws := d,
           status := { s.status with eos := false, resValid := true, done := true } })

/-- R48, R142: a decode command moves IPTR only forward and never past BITLEN, whatever DT and IBUF hold. -/
def Obligations.DecodeCommandsMoveIptrOnlyUpToBitlen : Prop :=
  ∀ (i : Instr) (s t : State), ((∃ n, 1 ≤ n ∧ i = .getBits n) ∨ i = .decSym) → exec i s = .next t →
    t.iptr = s.iptr ∨
    (s.iptr.toNat < t.iptr.toNat ∧ t.iptr.toNat ≤ s.bitlen.toNat ∧ s.bitlen.toNat ≤ 8 * s.params.ibufSize ∧
      t.status.resValid = true)

/-- The frame of the commands that store nothing: OBUF reads as before; NOP and the decode family leave the packer as it
was, and NOP and ENC_INIT the unpacker (R121, R140 to R142, R160, R161). -/
def Obligations.CommandsThatStoreNothingLeaveObuf : Prop :=
  ∀ (i : Instr) (s t : State), exec i s = .next t →
    (i ∈ [Instr.nop, .encInit, .decInit, .decSym, .softReset] ∨ (∃ n, i = .getBits n) →
      ∀ a, Memory.read? t.obuf a = Memory.read? s.obuf a) ∧
    (i ∈ [Instr.nop, .decInit, .decSym] ∨ (∃ n, i = .getBits n) → samePacker s t) ∧
    (i ∈ [Instr.nop, .encInit] → sameUnpacker s t)

/-! ### Control family -/

/-- R160. -/
def Obligations.NopOnlyCompletes : Prop :=
  (∀ (p : Params) (w : Word), w.toNat / 2 ^ 28 = 0 →
    (w = 0 → decode p w = .ok .nop) ∧ (w ≠ 0 → ∃ e, decode p w = .error e)) ∧
  (∀ s : State, exec .nop s = .next { s with
    pend := none, status := { s.status with resValid := false, done := true } }) ∧
  (∀ s t : State, statusWord s = 0x00000004 → exec .nop s = .next t → statusWord t = 0x00000002)

/-- R161. -/
def Obligations.SoftResetClearsTheStreamsAndStatus : Prop :=
  (∀ (p : Params) (w : Word), w.toNat / 2 ^ 28 = 8 →
    (w = 0x80000000 → decode p w = .ok .softReset) ∧ (w ≠ 0x80000000 → ∃ e, decode p w = .error e)) ∧
  (∀ s : State, ∃ t, exec .softReset s = .next t ∧
    t.acc = 0 ∧ t.accN = 0 ∧ t.optr = 0 ∧ t.bitcount = 0 ∧ t.iptr = 0 ∧ t.degenRemain = 0 ∧ t.result = 0 ∧
    statusWord t = 0x00000002 ∧ t.pend = none ∧ t.obuf = s.obuf ∧ sameHostState s t ∧ t.draws = s.draws)

/-! ### Host port -/

/-- The addresses of R21 and R51, R56 to R59 as numbers, by the names the statements use. -/
def Obligations.AddressesAreThoseOfTheMap : Prop :=
  [Reg.id, .param0, .param1, .ctrl, .status, .cmd, .data, .result, .bitcount, .optr, .packState, .bitlen, .iptr, .root,
    .degenWeight, .degenRemain].map (fun r => (regOffset r).toNat) =
    [0x000, 0x004, 0x008, 0x00C, 0x010, 0x014, 0x018, 0x01C, 0x020, 0x024, 0x028, 0x02C, 0x030, 0x034, 0x038, 0x03C] ∧
  ∀ p : Params, p.legal →
    (∀ k, 4 * k < p.obufSize → (obufAddr k).toNat = 0x010000 + 4 * k) ∧
    (∀ k, 4 * k < p.ibufSize → (ibufAddr k).toNat = 0x020000 + 4 * k) ∧
    (∀ i, i < p.dtNodes → (dtLeftAddr i).toNat = 0x080000 + 8 * i ∧ (dtRightAddr i).toNat = 0x080000 + 8 * i + 4) ∧
    (∀ c, c < p.alphabet → (ctControlAddr c).toNat = 0x100000 + 8 * c ∧ (ctCodeAddr c).toNat = 0x100000 + 8 * c + 4)

/-- R54 while BUSY = 0: a read of a register returns its value and changes nothing but the answer (R64). -/
def Obligations.IdleReadReturnsTheRegister : Prop :=
  ∀ (s : State) (r : Reg), busy s = false →
    busRead (regOffset r) s = { s with answer := some (regWord s r) }

/-- R22 to R37: the register words spell their fields at the bit positions the rules give, reserved bits 0, and a register
that is one field reads as that field. -/
def Obligations.RegisterWordsSpellTheirFields : Prop :=
  ∀ s : State, s.params.legal →
    (regWord s .id).toNat = 0x48554631 ∧
    (regWord s .param0).toNat =
      s.params.symW + 2 ^ 8 * s.params.maxCodeLen + 2 ^ 16 * s.params.tablesWritable.toNat ∧
    (regWord s .param1).toNat = (s.params.obufSize - 1) + 2 ^ 16 * (s.params.ibufSize - 1) ∧
    (regWord s .ctrl).toNat =
      s.ctrl.strict.toNat + 2 * s.ctrl.ieDone.toNat + 2 ^ 2 * s.ctrl.ieErr.toNat + 2 ^ 16 * s.ctrl.spaceSym.toNat ∧
    (regWord s .status).toNat =
      s.pend.isSome.toNat + 2 * s.status.done.toNat + 2 ^ 2 * s.status.resValid.toNat + 2 ^ 3 * s.status.eos.toNat +
        2 ^ 4 * s.status.encClosed.toNat + 2 ^ 8 * s.status.errors.toNat ∧
    regWord s .cmd = 0 ∧
    (regWord s .packState).toNat = s.accN.toNat + 2 ^ 8 * s.acc.toNat ∧
    (regWord s .root).toNat =
      s.tables.root.val.toNat + 2 ^ 30 * s.tables.root.isLeaf.toNat + 2 ^ 31 * s.tables.root.valid.toNat ∧
    [Reg.data, .result, .bitcount, .optr, .bitlen, .iptr, .degenWeight, .degenRemain].map (regWord s) =
      [s.data, s.result, s.bitcount, s.optr, s.bitlen, s.iptr, s.tables.degenWeight, s.degenRemain]

/-- R53, with the map of R51: an access at an address that is no multiple of 4 or unmapped. -/
def Obligations.BadAccessSetsErrAddrAndNothingElse : Prop :=
  ∀ (s : State) (a : Addr) (w : Word), a.toNat % 4 ≠ 0 ∨ unmapped s.params a →
    busRead a s = { s with
      answer := some 0, status := { s.status with errors := s.status.errors ||| errMask .addr } } ∧
    busWrite a w s = { s with status := { s.status with errors := s.status.errors ||| errMask .addr } }

/-- R64: a good read (aligned, and mapped by R51) changes nothing but the answer and the count of draws; two reads in a row
return the same word unless a draw is involved; and only a CMD write can fill PEND. -/
def Obligations.GoodReadHasNoSideEffect : Prop :=
  (∀ (s : State) (a : Addr), a.toNat % 4 = 0 → ¬ unmapped s.params a →
    ∃ v d, busRead a s = { s with answer := some v, draws := d } ∧ s.draws ≤ d ∧
      (d = s.draws → busRead a (busRead a s) = busRead a s)) ∧
  (∀ (s : State) (a : Addr) (w : Word), a ≠ regOffset .cmd → (busWrite a w s).pend = s.pend)

/-- R26, R55 case 2: a write to STATUS, bit by bit, accepted even while BUSY = 1; nothing else changes. -/
def Obligations.StatusWriteClearsTheWrittenW1cBits : Prop :=
  ∀ (s : State) (w : Word),
    (∀ j, (statusWord (busWrite (regOffset .status) w s)).getLsbD j =
      ((statusWord s).getLsbD j && !((decide (j = 1) || decide (8 ≤ j ∧ j ≤ 19)) && w.getLsbD j))) ∧
    { busWrite (regOffset .status) w s with status := s.status } = s

/-- R38: PEND, BUSY, and what fills and empties the slot. A second CMD write is dropped with ERR_OVERRUN (R55 case 3). That
the engine moves when the agenda is empty is the model's choice (log 3). In the last clause both reads take the same draw where
they take one (R69): the model's choice, log 4. -/
def Obligations.PendIsFilledByCmdAndEmptiedByTheEngineAndReset : Prop :=
  ∀ s : State,
    ((statusWord s).getLsbD 0 = true ↔ s.pend ≠ none) ∧
    (∀ w, s.pend = none → busWrite (regOffset .cmd) w s = { s with pend := some w }) ∧
    (∀ w, s.pend ≠ none → busWrite (regOffset .cmd) w s =
      { s with status := { s.status with errors := s.status.errors ||| errMask .overrun } }) ∧
    (∀ t rest, s.agenda = [] ∨ s.agenda = .engine :: rest → step s = .next t → t.pend = none) ∧
    (hardReset s).pend = none ∧ State.reset.pend = none ∧
    (∀ a w w', (busRead a { s with pend := some w }).answer = (busRead a { s with pend := some w' }).answer)

/-- R55 case 4, R58: writes to read-only registers and to the OBUF window are ignored, with no flag. -/
def Obligations.ReadOnlyWritesAreIgnored : Prop :=
  ∀ (s : State) (w : Word),
    (∀ r ∈ [Reg.id, .param0, .param1, .result, .bitcount, .optr, .packState, .iptr, .degenRemain],
      busWrite (regOffset r) w s = s) ∧
    (∀ k, s.params.legal → 4 * k < s.params.obufSize → busWrite (obufAddr k) w s = s)

/-- R49: in the ROM variant the tables hold their images from reset onward, and no step changes them. -/
def Obligations.RomTablesNeverChange : Prop :=
  (∀ p : Params, p.tablesWritable = false → (State.resetOf p).tables = p.romImage) ∧
  (∀ s t : State, s.params.tablesWritable = false → s.tables = s.params.romImage → step s = .next t →
    t.params = s.params ∧ t.tables = t.params.romImage) ∧
  (∀ (s : State) (w : Word), s.params.tablesWritable = false →
    busWrite (regOffset .root) w s = setErr .addr s ∧ busWrite (regOffset .degenWeight) w s = setErr .addr s ∧
    (∀ i, s.params.legal → i < s.params.dtNodes →
      busWrite (dtLeftAddr i) w s = setErr .addr s ∧ busWrite (dtRightAddr i) w s = setErr .addr s) ∧
    (∀ i, s.params.legal → i < s.params.alphabet →
      busWrite (ctControlAddr i) w s = setErr .addr s ∧ busWrite (ctCodeAddr i) w s = setErr .addr s))

/-- R197 and R68: while BUSY = 1, a write to host-written state is refused with ERR_BUSYWR (a write to a fixed table with
ERR_ADDR, Obligations.RomTablesNeverChange), and no write at all changes what the pending command reads. -/
def Obligations.BusyWritesAreRefused : Prop :=
  (∀ (s : State) (w : Word), s.params.legal → busy s = true →
    (∀ r ∈ [Reg.ctrl, .data, .bitlen], busWrite (regOffset r) w s = setErr .busywr s) ∧
    (∀ k, 4 * k < s.params.ibufSize → busWrite (ibufAddr k) w s = setErr .busywr s) ∧
    (s.params.tablesWritable = true →
      busWrite (regOffset .root) w s = setErr .busywr s ∧ busWrite (regOffset .degenWeight) w s = setErr .busywr s ∧
      (∀ i, i < s.params.dtNodes →
        busWrite (dtLeftAddr i) w s = setErr .busywr s ∧ busWrite (dtRightAddr i) w s = setErr .busywr s) ∧
      (∀ i, i < s.params.alphabet →
        busWrite (ctControlAddr i) w s = setErr .busywr s ∧ busWrite (ctCodeAddr i) w s = setErr .busywr s))) ∧
  (∀ (s : State) (a : Addr) (w : Word), busy s = true → sameHostState s (busWrite a w s))

/-- R55 case 7 and R54: a word written while BUSY = 0 reads back, but for the reserved bits of its register or window word. -/
def Obligations.WrittenWordReadsBackWithoutReservedBits : Prop :=
  ∀ (s : State) (w : Word), s.params.legal → busy s = false →
    (busRead (regOffset .ctrl) (busWrite (regOffset .ctrl) w s)).answer = some (w &&& 0xFFFF0007) ∧
    (busRead (regOffset .data) (busWrite (regOffset .data) w s)).answer = some w ∧
    (busRead (regOffset .bitlen) (busWrite (regOffset .bitlen) w s)).answer = some w ∧
    (∀ k, 4 * k < s.params.ibufSize → (busRead (ibufAddr k) (busWrite (ibufAddr k) w s)).answer = some w) ∧
    (s.params.tablesWritable = true →
      (busRead (regOffset .root) (busWrite (regOffset .root) w s)).answer = some (w &&& 0xC000FFFF) ∧
      (busRead (regOffset .degenWeight) (busWrite (regOffset .degenWeight) w s)).answer = some w ∧
      (∀ i, i < s.params.dtNodes →
        (busRead (dtLeftAddr i) (busWrite (dtLeftAddr i) w s)).answer = some (w &&& 0x8000FFFF) ∧
        (busRead (dtRightAddr i) (busWrite (dtRightAddr i) w s)).answer = some (w &&& 0x8000FFFF)) ∧
      (∀ i, i < s.params.alphabet →
        (busRead (ctControlAddr i) (busWrite (ctControlAddr i) w s)).answer = some (w &&& 0x8000003F) ∧
        (busRead (ctCodeAddr i) (busWrite (ctCodeAddr i) w s)).answer = some w))

/-- R55 case 7, whole and with its frame: while BUSY = 0, a write to host-written state stores the fields the rule names and
leaves every other register, table cell and buffer byte, and the model's own fields, as they were. Addresses are numbers. -/
def Obligations.PerformedWriteChangesOnlyItsTarget : Prop :=
  ∀ (s : State) (a : Addr) (w : Word), s.params.legal → busy s = false →
    (a.toNat = 0x00C → busWrite a w s = { s with ctrl :=
      { strict := w.getLsbD 0, ieDone := w.getLsbD 1, ieErr := w.getLsbD 2, spaceSym := w.extractLsb' 16 16 } }) ∧
    (a.toNat = 0x018 → busWrite a w s = { s with data := w }) ∧
    (a.toNat = 0x02C → busWrite a w s = { s with bitlen := w }) ∧
    (∀ k, 4 * k < s.params.ibufSize → a.toNat = 0x020000 + 4 * k →
      ∃ m, busWrite a w s = { s with ibuf := m } ∧
        ∀ x, Memory.read? m x =
          if 4 * k ≤ x ∧ x < 4 * k + 4 then some (w.extractLsb' (8 * (x - 4 * k)) 8) else Memory.read? s.ibuf x) ∧
    (s.params.tablesWritable = true →
      (a.toNat = 0x034 → busWrite a w s = { s with tables := { s.tables with root :=
        { valid := w.getLsbD 31, isLeaf := w.getLsbD 30, val := w.extractLsb' 0 16 } } }) ∧
      (a.toNat = 0x038 → busWrite a w s = { s with tables := { s.tables with degenWeight := w } }) ∧
      (∀ i, i < s.params.dtNodes → a.toNat = 0x080000 + 8 * i →
        ∃ m, busWrite a w s = { s with tables := { s.tables with dtLeft := m } } ∧
          ∀ x, Memory.read? m x =
            if x = i then some { leaf := w.getLsbD 31, val := w.extractLsb' 0 16 } else Memory.read? s.tables.dtLeft x) ∧
      (∀ i, i < s.params.dtNodes → a.toNat = 0x080000 + 8 * i + 4 →
        ∃ m, busWrite a w s = { s with tables := { s.tables with dtRight := m } } ∧
          ∀ x, Memory.read? m x =
            if x = i then some { leaf := w.getLsbD 31, val := w.extractLsb' 0 16 } else Memory.read? s.tables.dtRight x) ∧
      (∀ c, c < s.params.alphabet → a.toNat = 0x100000 + 8 * c →
        ∃ m, busWrite a w s = { s with tables := { s.tables with ctControl := m } } ∧
          ∀ x, Memory.read? m x =
            if x = c then some { valid := w.getLsbD 31, len := w.extractLsb' 0 6 } else Memory.read? s.tables.ctControl x) ∧
      (∀ c, c < s.params.alphabet → a.toNat = 0x100000 + 8 * c + 4 →
        ∃ m, busWrite a w s = { s with tables := { s.tables with ctCode := m } } ∧
          ∀ x, Memory.read? m x = if x = c then some w else Memory.read? s.tables.ctCode x))

/-- R60: byte `4k + j` of a buffer is bits `[8j+7 : 8j]` of word `k`, for writes of IBUF and for reads of both windows. -/
def Obligations.ByteLanesAreLittleEndian : Prop :=
  ∀ (s : State) (k : Nat), s.params.legal → busy s = false →
    (∀ (w : Word) (j : Nat), 4 * k < s.params.ibufSize → j < 4 →
      Memory.read? (busWrite (ibufAddr k) w s).ibuf (4 * k + j) = some (w.extractLsb' (8 * j) 8)) ∧
    (∀ (w : Word) (a : Nat), 4 * k < s.params.ibufSize → a < 4 * k ∨ 4 * k + 4 ≤ a →
      Memory.read? (busWrite (ibufAddr k) w s).ibuf a = Memory.read? s.ibuf a) ∧
    (4 * k < s.params.ibufSize → ∃ v, (busRead (ibufAddr k) s).answer = some v ∧
      ∀ (j : Nat) (b : Byte), j < 4 → Memory.read? s.ibuf (4 * k + j) = some b → v.extractLsb' (8 * j) 8 = b) ∧
    (4 * k < s.params.obufSize → ∃ v, (busRead (obufAddr k) s).answer = some v ∧
      ∀ (j : Nat) (b : Byte), j < 4 → Memory.read? s.obuf (4 * k + j) = some b → v.extractLsb' (8 * j) 8 = b)

/-- R69: while BUSY = 1 a read of STATUS shows bit 0 = 1 and a draw in its other bits, any other read of engine-written
state a draw, and a read of host-written state what it shows while BUSY = 0. That the reserved bits of STATUS are drawn too is
an inference (log 19). (Where a cell of IBUF, DT or CT is unwritten, the two reads of the last clause take the same draw: the
model's choice, log 4.) -/
def Obligations.BusyReadsShowBusyAndExactHostState : Prop :=
  ∀ s : State, s.params.legal → busy s = true →
    (∃ v n, (busRead (regOffset .status) s).answer = some v ∧ v.getLsbD 0 = true ∧
      ∀ j, 1 ≤ j → v.getLsbD j = (Config.draw n 32).getLsbD j) ∧
    (∀ r ∈ [Reg.result, .bitcount, .optr, .packState, .iptr, .degenRemain],
      ∃ n, (busRead (regOffset r) s).answer = some (Config.draw n 32)) ∧
    (∀ k, 4 * k < s.params.obufSize → ∃ n, (busRead (obufAddr k) s).answer = some (Config.draw n 32)) ∧
    (∀ r ∈ [Reg.id, .param0, .param1, .ctrl, .data, .bitlen, .root, .degenWeight],
      busRead (regOffset r) s = { s with answer := some (regWord s r) }) ∧
    (∀ a, (∃ k, 4 * k < s.params.ibufSize ∧ a = ibufAddr k) ∨
        (∃ i, i < s.params.dtNodes ∧ (a = dtLeftAddr i ∨ a = dtRightAddr i)) ∨
        (∃ i, i < s.params.alphabet ∧ (a = ctControlAddr i ∨ a = ctCodeAddr i)) →
      (busRead a s).answer = (busRead a { s with pend := none }).answer)

/-- R44, in terms of the register words. -/
def Obligations.IrqFollowsEnabledDoneAndErrorBits : Prop :=
  ∀ s : State, irq s = true ↔
    ((ctrlWord s.ctrl).getLsbD 1 = true ∧ (statusWord s).getLsbD 1 = true) ∨
    ((ctrlWord s.ctrl).getLsbD 2 = true ∧ ∃ j, 8 ≤ j ∧ j ≤ 19 ∧ (statusWord s).getLsbD j = true)

/-! ### Reset -/

/-- R191: what `rst` leaves, whatever HBP was doing (R190), and what the commands then do. Unlisted memory cells are the
unspecified ones (R43). -/
def Obligations.HardResetLeavesTheResetValues : Prop :=
  ∀ s : State,
    regWord (hardReset s) .id = 0x48554631 ∧ regWord (hardReset s) .param0 = regWord s .param0 ∧
    regWord (hardReset s) .param1 = regWord s .param1 ∧
    ctrlWord (hardReset s).ctrl = 0x00200000 ∧ statusWord (hardReset s) = 0 ∧ (hardReset s).pend = none ∧
    (hardReset s).data = 0 ∧ (hardReset s).result = 0 ∧ (hardReset s).bitcount = 0 ∧ (hardReset s).optr = 0 ∧
    packStateWord (hardReset s) = 0 ∧ (hardReset s).bitlen = 0 ∧ (hardReset s).iptr = 0 ∧
    (hardReset s).degenRemain = 0 ∧ (hardReset s).acc = 0 ∧ (hardReset s).accN = 0 ∧
    (hardReset s).params = s.params ∧ (hardReset s).obuf = [] ∧ (hardReset s).ibuf = [] ∧ irq (hardReset s) = false ∧
    (s.params.tablesWritable = true →
      rootWord (hardReset s).tables.root = 0 ∧ (hardReset s).tables.degenWeight = 0 ∧
      (∀ t, ctValid (hardReset s) t = false) ∧
      (hardReset s).tables.ctControl = [] ∧ (hardReset s).tables.ctCode = [] ∧
      (hardReset s).tables.dtLeft = [] ∧ (hardReset s).tables.dtRight = [] ∧
      (∀ sym, exec (.encSym sym) (hardReset s) = .next (raiseErr .empty (hardReset s))) ∧
      exec .decInit (hardReset s) = .next (raiseErr .empty (hardReset s)) ∧
      exec .decSym (hardReset s) = .next (raiseErr .empty (hardReset s))) ∧
    (s.params.tablesWritable = false → (hardReset s).tables = s.params.romImage) ∧
    (∀ n, 1 ≤ n → exec (.getBits n) (hardReset s) = .next (raiseErr .underrun (hardReset s))) ∧
    (s.params.legal → ∀ n, 1 ≤ n → n ≤ 32 →
      ∃ t, exec (.putBits n) (hardReset s) = .next t ∧ t.bitcount.toNat = n ∧ t.status.errors = 0) ∧
    (∃ t, exec .flush (hardReset s) = .next t ∧ t.status.encClosed = true ∧ t.status.errors = 0)

/-! ### Invariants -/

/-- The state after reset satisfies the invariant, for every legal build. -/
def Obligations.InvariantHoldsAtReset : Prop :=
  Inv State.reset ∧ ∀ p : Params, BuildOk p → Inv (State.resetOf p)

/-- From every state that satisfies the invariant, and with every turn of every agent, a step gives one that does: memories
in canonical form and in range, the ROM variant's tables fixed (R49), the counters bounded (R48), the stream written, and
the packer invariant (R127). -/
def Obligations.EveryStepKeepsTheInvariant : Prop :=
  ∀ s t : State, Inv s → step s = .next t → Inv t

/-- R127: the three facts hold at reset and after ENC_INIT and SOFT_RESET, and every command keeps them. The premise
`OPTR ≤ OBUF_SIZE` is R31's and part of the invariant. -/
def Obligations.EveryCommandKeepsThePackerInvariant : Prop :=
  (∀ p : Params, PackerInv (State.resetOf p)) ∧
  (∀ s t : State, exec .encInit s = .next t ∨ exec .softReset s = .next t → PackerInv t) ∧
  (∀ (i : Instr) (s t : State), s.params.legal → s.optr.toNat ≤ s.params.obufSize → PackerInv s →
    exec i s = .next t → PackerInv t ∧ t.optr.toNat ≤ t.params.obufSize)

/-! ### Laws of the families -/

/-- R126, the pack law: after ENC_INIT, any PUT_BITS and ENC_SYM commands, failing ones among them, and a FLUSH that
completes, OBUF holds `pack(B)` of the bits `B` packed by those that completed; and where the commands are the ENC_SYMs of a
text whose symbols all have codes in CT, none of which failed, `B` is `encode(text, codes)` (R110). -/
def Obligations.PackLaw : Prop :=
  ∀ (s0 s1 s2 t : State) (cmds : List (Word × Instr)) (bits : List Bool),
    s0.params.legal → exec .encInit s0 = .next s1 →
    (∀ c ∈ cmds, (∃ n, 1 ≤ n ∧ n ≤ 32 ∧ c.2 = .putBits n) ∨ (∃ sym, c.2 = .encSym sym)) →
    encodeRun cmds s1 = some (s2, bits) → exec .flush s2 = .next t → t.status.encClosed = true →
      t.bitcount.toNat = bits.length ∧ t.optr.toNat = (bits.length + 7) / 8 ∧ payload t = some (packBytes bits) ∧
      (∀ (text : List Nat) (codes : List (Nat × List Bool)),
        cmds.map Prod.snd = text.map Instr.encSym → holdsCodes s0 codes → fitsBuild s0.params codes = true →
        (∀ x ∈ text, (codeOf codes x).isSome = true) → noneFails cmds s1 = true →
          encodeText codes s0.ctrl.spaceSym.toNat text = some bits)

/-- R143, the unpack law; the packing invariant `unpack(pack(B), len(B)) = B`; and the payload of a stream that R126
describes unpacks, with BITLEN = BITCOUNT, to its bits. -/
def Obligations.UnpackLaw : Prop :=
  (∀ (s0 s1 : State) (bytes : List Byte) (ns : List Nat),
    s0.params.legal → ibufHolds s0 bytes → s0.bitlen.toNat ≤ 8 * bytes.length →
    s0.bitlen.toNat ≤ 8 * s0.params.ibufSize → s0.tables.root.valid = true → exec .decInit s0 = .next s1 →
    (∀ n ∈ ns, 1 ≤ n ∧ n ≤ 32) → ns.sum ≤ s0.bitlen.toNat →
      ∃ s2, getBitsRun ns s1 =
        some (s2, (slices ns (unpackBits bytes s0.bitlen.toNat)).map (fun bs => BitVec.ofNat 32 (bitsValue bs)))) ∧
  (∀ bits : List Bool, unpackBits (packBytes bits) bits.length = bits) ∧
  (∀ (s0 s1 s2 t u : State) (cmds : List (Word × Instr)) (bits : List Bool) (bytes : List Byte),
    s0.params.legal → exec .encInit s0 = .next s1 →
    (∀ c ∈ cmds, (∃ n, 1 ≤ n ∧ n ≤ 32 ∧ c.2 = .putBits n) ∨ (∃ sym, c.2 = .encSym sym)) →
    encodeRun cmds s1 = some (s2, bits) → exec .flush s2 = .next t → t.status.encClosed = true →
    payload t = some bytes → ibufHolds u bytes → u.bitlen = t.bitcount →
      unpackBits bytes u.bitlen.toNat = bits)

/-- R144, the decode law: a concatenation of codes decodes to its symbols and then EOS; a stream that ends inside a code
emits the complete codes' symbols, and then every further DEC_SYM raises ERR_MALFORMED and none reports EOS. -/
def Obligations.DecodeLaw : Prop :=
  ∀ (s0 s1 : State) (l r : Tree) (w : Nat) (bytes : List Byte) (text : List Nat) (codes : List (List Bool))
    (tail : List Bool),
    s0.params.legal → holdsTree s0 (.node l r w) → internalNodes (.node l r w) ≤ s0.params.dtNodes →
    (∀ x ∈ treeSymbols (.node l r w), x < s0.params.alphabet) →
    ibufHolds s0 bytes → s0.bitlen.toNat ≤ 8 * bytes.length → s0.bitlen.toNat ≤ 8 * s0.params.ibufSize →
    exec .decInit s0 = .next s1 →
    text.mapM (codeOf (assignCodes (.node l r w))) = some codes →
    unpackBits bytes s0.bitlen.toNat = codes.flatten ++ tail →
      (tail = [] →
        decodeText (.node l r w) codes.flatten = some text ∧
        ∃ s2 s3, collect .decSym text.length s1 = some (s2, text.map (BitVec.ofNat 32)) ∧
          exec .decSym s2 = .next s3 ∧ s3.status.eos = true ∧ s3.status.resValid = false) ∧
      (tail ≠ [] → (∃ sym code, (sym, code) ∈ assignCodes (.node l r w) ∧ tail <+: code ∧ tail ≠ code) →
        ∃ s2, collect .decSym text.length s1 = some (s2, text.map (BitVec.ofNat 32)) ∧
          ∀ n s' out, collect .decSym n s2 = some (s', out) →
            out = [] ∧ s'.status.eos = false ∧ exec .decSym s' = .next (raiseErr .malformed s'))

/-- R145, the degenerate law: exactly DEGEN_WEIGHT symbols, then EOS; no bit is read, and IPTR stays 0. -/
def Obligations.DegenerateLaw : Prop :=
  ∀ (s0 s1 : State) (sym : BitVec 16),
    s0.tables.root = { valid := true, isLeaf := true, val := sym } → sym.toNat < s0.params.alphabet →
    exec .decInit s0 = .next s1 →
      ∃ s2 s3, collect .decSym s0.tables.degenWeight.toNat s1 =
          some (s2, List.replicate s0.tables.degenWeight.toNat (sym.setWidth 32)) ∧
        s2.iptr = 0 ∧ s2.draws = s0.draws ∧
        exec .decSym s2 = .next s3 ∧ s3.status.eos = true ∧ s3.status.resValid = false ∧ s3.iptr = 0 ∧
        (∀ m, collect .decSym s0.tables.degenWeight.toNat { s1 with ibuf := m } =
          some ({ s2 with ibuf := m }, List.replicate s0.tables.degenWeight.toNat (sym.setWidth 32)))

/-- R146, the round-trip law: encode a text with its own tree, copy the payload into IBUF, write BITLEN from BITCOUNT, and
decode: exactly the text comes back, and then EOS. -/
def Obligations.RoundTripLaw : Prop :=
  ∀ (s0 s1 s2 s3 : State) (text : List Nat) (tree : Tree) (bytes : List Byte) (m : Memory Byte),
    s0.params.legal → text ≠ [] → (∀ x ∈ text, x < s0.params.alphabet) →
    buildTree (buildFrequencies text) = some tree → fitsBuild s0.params (assignCodes tree) = true →
    holdsCodes s0 (assignCodes tree) → holdsTree s0 tree →
    (∀ sym c, tree = .leaf sym c → s0.tables.degenWeight.toNat = c) →
    execAll (Instr.encInit :: text.map Instr.encSym ++ [Instr.flush]) s0 = some s1 →
    noneFails ((Instr.encInit :: text.map Instr.encSym ++ [Instr.flush]).map (fun i => (s0.data, i))) s0 = true →
    payload s1 = some bytes → bytes.length ≤ s1.params.ibufSize →
    s2 = { s1 with ibuf := m, bitlen := s1.bitcount } → ibufHolds s2 bytes →
    exec .decInit s2 = .next s3 →
      ∃ s4 s5, collect .decSym text.length s3 = some (s4, text.map (BitVec.ofNat 32)) ∧
        exec .decSym s4 = .next s5 ∧ s5.status.eos = true ∧ s5.status.resValid = false

/-- R147: two states whose input streams agree below BITLEN give the same results: padding is never read or checked.
(Where a bit below BITLEN is written in neither, both runs take the same draw: the model's choice, log 4.) -/
def Obligations.PaddingBitsAreNeverRead : Prop :=
  ∀ (i : Instr) (s : State) (m : Memory Byte),
    (∀ k < s.bitlen.toNat, (Memory.read? s.ibuf (k / 8)).map (fun b => b.getLsbD (7 - k % 8)) =
      (Memory.read? m (k / 8)).map (fun b => b.getLsbD (7 - k % 8))) →
    ∃ t, exec i s = .next t ∧ exec i { s with ibuf := m } = .next { t with ibuf := m }

/-- R108: "Every code is non-empty, and no code is a prefix of another", for the codes of any tree. -/
def Obligations.CodesAreNonEmptyAndPrefixFree : Prop :=
  ∀ tree : Tree,
    (∀ c ∈ assignCodes tree, c.2 ≠ []) ∧
    (assignCodes tree).Pairwise (fun c c' => ¬ c.2 <+: c'.2 ∧ ¬ c'.2 <+: c.2)

/-! ### Host programs -/

/-- R92: a command mnemonic is `WR CMD, Encode(C)` and POLL. However many polls come first (log 17), the command runs once,
and the last read of STATUS shows its outcome with BUSY = 0. -/
def Obligations.IssuedCommandRunsOnce : Prop :=
  ∀ (s : State) (i : Instr) (waits : Nat) (rest : List Turn),
    s.params.legal → i.wf s.params = true → s.pend = none → s.agenda = issue i waits ++ rest →
      ∃ lastAnswer t,
        exec i { s with pend := some (encode i), agenda := rdReg .status :: rest, answer := lastAnswer,
                        draws := s.draws + waits } = .next t ∧
        Host.Core.run Sys2Proof.core (waits + 3) s =
          .next { t with agenda := rest, answer := some (statusWord t) } ∧
        (statusWord t).getLsbD 0 = false

/-- R193 step 2, R112 to R114: the writes of LDCODE, LDNODE and LDROOT leave the tree's image in CT, DT, ROOT and
DEGEN_WEIGHT, with no error, where CT had no valid entry. -/
def Obligations.LoadingATreeLeavesItsImage : Prop :=
  ∀ (s : State) (t : Tree) (rest : List Turn),
    s.params.legal → s.params.tablesWritable = true → s.pend = none →
    (∀ sym, ctValid s sym = false) → (treeSymbols t).Nodup →
    fitsBuild s.params (assignCodes t) = true → internalNodes t ≤ s.params.dtNodes →
    s.agenda = loadTree t ++ rest →
      ∃ u, Host.Core.run Sys2Proof.core (loadTree t).length s = .next u ∧
        u = { s with tables := u.tables, agenda := rest } ∧
        holdsTree u t ∧ holdsCodes u (assignCodes t) ∧ u.tables.degenWeight = degenImage t
end

