-- ==== Sys2Proof/Laws/Decode.lean ====
section
/-! SUPPORT. The fields of a command word in plain arithmetic (spec/30_encoding.md R80, R81). -/

namespace Sys2Proof

theorem opcField_eq (w : Word) : opcField w = w.toNat / 2 ^ 28 := by
  have := w.isLt
  simp only [opcField, BitVec.extractLsb'_toNat, Nat.shiftRight_eq_div_pow]
  omega

theorem countField_eq (w : Word) : countField w = w.toNat % 2 ^ 5 + 1 := by
  simp [countField, BitVec.extractLsb'_toNat]

theorem symField_eq (w : Word) : symField w = w.toNat % 2 ^ 16 := by
  simp [symField, BitVec.extractLsb'_toNat]

theorem low28_eq_zero (w : Word) : w.extractLsb' 0 28 = 0 ↔ w.toNat % 2 ^ 28 = 0 := by
  rw [← BitVec.toNat_inj]
  simp [BitVec.extractLsb'_toNat]

theorem mid23_eq_zero (w : Word) : w.extractLsb' 5 23 = 0 ↔ w.toNat % 2 ^ 28 / 2 ^ 5 = 0 := by
  rw [← BitVec.toNat_inj, BitVec.extractLsb'_toNat, Nat.shiftRight_eq_div_pow]
  change w.toNat / 2 ^ 5 % 2 ^ 23 = 0 ↔ _
  omega

theorem mid12_eq_zero (w : Word) : w.extractLsb' 16 12 = 0 ↔ w.toNat % 2 ^ 28 / 2 ^ 16 = 0 := by
  rw [← BitVec.toNat_inj, BitVec.extractLsb'_toNat, Nat.shiftRight_eq_div_pow]
  change w.toNat / 2 ^ 16 % 2 ^ 12 = 0 ↔ _
  omega

/-- Everything `decode` can answer, in plain arithmetic on the word (R87). -/
theorem decode_eq (p : Params) (w : Word) :
    decode p w =
      match w.toNat / 2 ^ 28 with
      | 0x0 => if w.toNat % 2 ^ 28 = 0 then .ok .nop else .error .mustBeZero
      | 0x1 => if w.toNat % 2 ^ 28 = 0 then .ok .encInit else .error .mustBeZero
      | 0x2 => if w.toNat % 2 ^ 28 / 2 ^ 5 = 0 then .ok (.putBits (w.toNat % 2 ^ 5 + 1)) else .error .mustBeZero
      | 0x3 =>
        if w.toNat % 2 ^ 28 / 2 ^ 16 = 0 then
          if w.toNat % 2 ^ 16 < p.alphabet then .ok (.encSym (w.toNat % 2 ^ 16)) else .error .symbolRange
        else .error .mustBeZero
      | 0x4 => if w.toNat % 2 ^ 28 = 0 then .ok .flush else .error .mustBeZero
      | 0x5 => if w.toNat % 2 ^ 28 = 0 then .ok .decInit else .error .mustBeZero
      | 0x6 => if w.toNat % 2 ^ 28 / 2 ^ 5 = 0 then .ok (.getBits (w.toNat % 2 ^ 5 + 1)) else .error .mustBeZero
      | 0x7 => if w.toNat % 2 ^ 28 = 0 then .ok .decSym else .error .mustBeZero
      | 0x8 => if w.toNat % 2 ^ 28 = 0 then .ok .softReset else .error .mustBeZero
      | _   => .error .reservedOpcode := by
  simp only [decode, formatZ, formatN, formatS, opcField_eq, countField_eq, symField_eq, low28_eq_zero, mid23_eq_zero,
    mid12_eq_zero]
  all_goals (generalize w.toNat / 2 ^ 28 = opc; rcases opc with _ | _ | _ | _ | _ | _ | _ | _ | _ | opc <;> rfl)

/-- The words of formats Z with an opcode of R82: the word with all operand bits 0 is the command, every other is illegal. -/
theorem decode_formatZ (p : Params) (w : Word) (i : Instr)
    (hi : i ∈ [Instr.nop, .encInit, .flush, .decInit, .decSym, .softReset]) (h : w.toNat / 2 ^ 28 = opcode i) :
    (w.toNat % 2 ^ 28 = 0 → decode p w = .ok i) ∧ (w.toNat % 2 ^ 28 ≠ 0 → decode p w = .error .mustBeZero) := by
  rw [decode_eq, h]
  simp only [List.mem_cons, List.not_mem_nil, or_false] at hi
  rcases hi with rfl | rfl | rfl | rfl | rfl | rfl <;>
    exact ⟨fun h => by simp only [opcode, if_pos h], fun h => by simp only [opcode, if_neg h]⟩

/-- In a legal build a symbol fits the 16 bits of SYM. -/
theorem alphabet_le {p : Params} (hp : p.legal) : p.alphabet ≤ 65536 := by
  have h := hp.1.2
  calc p.alphabet = 2 ^ p.symW := rfl
    _ ≤ 2 ^ 16 := Nat.pow_le_pow_right (by decide) h

theorem alphabet_pos (p : Params) : 0 < p.alphabet := Nat.two_pow_pos _

/-- The operand of a well-formed command fits below the opcode. -/
theorem operandBits_lt {p : Params} (hp : p.legal) {i : Instr} (hi : i.wf p = true) : operandBits i < 65536 := by
  have := alphabet_le hp
  cases i <;> simp_all [Instr.wf, operandBits] <;> omega

/-- `Encode` as a number (R92). -/
theorem encode_toNat {p : Params} (hp : p.legal) {i : Instr} (hi : i.wf p = true) :
    (encode i).toNat = opcode i * 2 ^ 28 + operandBits i := by
  have h1 := operandBits_lt hp hi
  have h2 : opcode i ≤ 8 := by cases i <;> simp [opcode]
  simp only [encode, BitVec.toNat_ofNat, Nat.shiftLeft_eq]
  omega

end Sys2Proof
end

