-- ==== Sys2Proof/Laws/Memory.lean ====
section
/-! SUPPORT. What the operations on sparse memories do: read after write, the canonical form, and that memories in
canonical form with equal cells are equal data. -/

namespace Sys2Proof.Machine

variable {α : Type}

theorem Memory.read?_write_same (m : Memory α) (a : Nat) (v : α) : Memory.read? (Memory.write m a v) a = some v := by
  induction m with
  | nil => simp [Memory.write, Memory.read?]
  | cons x m ih =>
    obtain ⟨k, w⟩ := x
    rcases lt_trichotomy a k with h | h | h
    · simp [Memory.write, Memory.read?, h]
    · simp [Memory.write, Memory.read?, h]
    · have h1 : ¬ a < k := by omega
      have h2 : ¬ a = k := by omega
      have h3 : ¬ k = a := by omega
      simp [Memory.write, Memory.read?, h1, h2, h3, ih]

theorem Memory.read?_write_ne (m : Memory α) {a b : Nat} (v : α) (hab : b ≠ a) :
    Memory.read? (Memory.write m a v) b = Memory.read? m b := by
  induction m with
  | nil => simp [Memory.write, Memory.read?, Ne.symm hab]
  | cons x m ih =>
    obtain ⟨k, w⟩ := x
    rcases lt_trichotomy a k with h | h | h
    · simp [Memory.write, Memory.read?, h, Ne.symm hab]
    · subst h
      simp [Memory.write, Memory.read?, Ne.symm hab]
    · have h1 : ¬ a < k := by omega
      have h2 : ¬ a = k := by omega
      simp only [Memory.write, if_neg h1, if_neg h2, Memory.read?, ih]

theorem Memory.read?_write (m : Memory α) (a b : Nat) (v : α) :
    Memory.read? (Memory.write m a v) b = if b = a then some v else Memory.read? m b := by
  by_cases h : b = a
  · subst h; simp [Memory.read?_write_same]
  · simp [h, Memory.read?_write_ne m v h]

theorem Memory.mem_write {m : Memory α} {a : Nat} {v : α} {x : Nat × α} (hx : x ∈ Memory.write m a v) :
    x = (a, v) ∨ x ∈ m := by
  induction m with
  | nil => simpa [Memory.write] using hx
  | cons y m ih =>
    obtain ⟨k, w⟩ := y
    unfold Memory.write at hx
    split at hx
    · simpa using hx
    · split at hx
      · rcases List.mem_cons.1 hx with h | h
        · exact .inl h
        · exact .inr (List.mem_cons_of_mem _ h)
      · rcases List.mem_cons.1 hx with h | h
        · exact .inr (h ▸ List.mem_cons_self)
        · exact (ih h).imp_right (List.mem_cons_of_mem _)

/-- Every write keeps the canonical form. -/
theorem Memory.wf_write {m : Memory α} (hm : Memory.wf m) (a : Nat) (v : α) : Memory.wf (Memory.write m a v) := by
  induction m with
  | nil => simp [Memory.write, Memory.wf]
  | cons y m ih =>
    obtain ⟨k, w⟩ := y
    obtain ⟨hy, hm'⟩ := List.pairwise_cons.1 hm
    unfold Memory.write
    split
    · rename_i hlt
      refine List.pairwise_cons.2 ⟨fun x hx => ?_, hm⟩
      rcases List.mem_cons.1 hx with h | h
      · subst h; exact hlt
      · exact lt_trans hlt (hy x h)
    · split
      · rename_i heq
        subst heq
        exact List.pairwise_cons.2 ⟨hy, hm'⟩
      · rename_i h1 h2
        refine List.pairwise_cons.2 ⟨fun x hx => ?_, ih hm'⟩
        rcases Memory.mem_write hx with h | h
        · subst h; show k < a; omega
        · exact hy x h

/-- Every write inside the bound keeps the memory inside it. -/
theorem Memory.below_write {m : Memory α} {n : Nat} (hm : ∀ x ∈ m, x.1 < n) {a : Nat} (ha : a < n) (v : α) :
    ∀ x ∈ Memory.write m a v, x.1 < n := by
  intro x hx
  rcases Memory.mem_write hx with h | h
  · subst h; exact ha
  · exact hm x h

theorem Memory.mem_of_read? {m : Memory α} {a : Nat} {v : α} (h : Memory.read? m a = some v) : (a, v) ∈ m := by
  induction m with
  | nil => simp [Memory.read?] at h
  | cons y m ih =>
    obtain ⟨k, w⟩ := y
    unfold Memory.read? at h
    split at h
    · rename_i hk
      simp_all
    · exact List.mem_cons_of_mem _ (ih h)

theorem Memory.read?_of_mem {m : Memory α} (hm : Memory.wf m) {a : Nat} {v : α} (h : (a, v) ∈ m) :
    Memory.read? m a = some v := by
  induction m with
  | nil => simp at h
  | cons y m ih =>
    obtain ⟨k, w⟩ := y
    obtain ⟨hy, hm'⟩ := List.pairwise_cons.1 hm
    unfold Memory.read?
    rcases List.mem_cons.1 h with h | h
    · simp_all
    · have := hy _ h
      simp only at this
      simp [show k ≠ a by omega, ih hm' h]

/-- Equal memories are equal data: two memories in canonical form that read alike are the same list. -/
theorem Memory.ext_of_wf {m m' : Memory α} (hm : Memory.wf m) (hm' : Memory.wf m')
    (h : ∀ a, Memory.read? m a = Memory.read? m' a) : m = m' := by
  induction m generalizing m' with
  | nil =>
    cases m' with
    | nil => rfl
    | cons y m' =>
      have := h y.1
      simp [Memory.read?] at this
  | cons x m ih =>
    cases m' with
    | nil =>
      have := h x.1
      simp [Memory.read?] at this
    | cons y m' =>
      obtain ⟨k, w⟩ := x
      obtain ⟨j, u⟩ := y
      have hkj : k = j := by
        rcases lt_trichotomy k j with hlt | heq | hgt
        · have h1 := h k
          simp only [Memory.read?, if_pos, if_neg (show ¬ j = k by omega)] at h1
          have := (List.pairwise_cons.1 hm').1 _ (Memory.mem_of_read? h1.symm)
          simp only at this; omega
        · exact heq
        · have h1 := h j
          simp only [Memory.read?, if_pos, if_neg (show ¬ k = j by omega)] at h1
          have := (List.pairwise_cons.1 hm).1 _ (Memory.mem_of_read? h1)
          simp only at this; omega
      subst hkj
      have hwu : w = u := by simpa [Memory.read?] using h k
      subst hwu
      congr 1
      refine ih (List.pairwise_cons.1 hm).2 (List.pairwise_cons.1 hm').2 fun a => ?_
      by_cases ha : k = a
      · subst ha
        have none_of : ∀ {n : Memory α}, Memory.wf ((k, w) :: n) → Memory.read? n k = none := by
          intro n hn
          cases hr : Memory.read? n k with
          | none => rfl
          | some v =>
            have := (List.pairwise_cons.1 hn).1 _ (Memory.mem_of_read? hr)
            simp only at this; omega
        rw [none_of hm, none_of hm']
      · simpa [Memory.read?, ha] using h a

end Sys2Proof.Machine
end

