-- ==== Sys2Proof/Laws/Input.lean ====
section
/-! SUPPORT. What the unpacker reads (spec/20_memory.md R62, spec/42_decode.md R141, R142): input bits over written and
over any IBUF, the loop of GET_BITS, and the walk. -/

namespace Sys2Proof.Machine

/-- A read of a written cell takes no draw. -/
theorem readCell_written {α : Type} {w : Nat} {f : BitVec w → α} {m : Memory α} {a d : Nat} {v : α}
    (h : Memory.read? m a = some v) : readCell w f m a d = (v, d) := by
  simp [readCell, h]

theorem readCell_draws_le {α : Type} (w : Nat) (f : BitVec w → α) (m : Memory α) (a d : Nat) :
    d ≤ (readCell w f m a d).2 := by
  unfold readCell
  split <;> simp

/-- The byte expanded, bit by bit: bit `k` of the stream is bit `7 - k mod 8` of byte `k div 8` (R61). -/
theorem byteBits_getElem? (x : Byte) (j : Nat) (hj : j < 8) : (byteBits x)[j]? = some (x.getLsbD (7 - j)) := by
  have h : j = 0 ∨ j = 1 ∨ j = 2 ∨ j = 3 ∨ j = 4 ∨ j = 5 ∨ j = 6 ∨ j = 7 := by omega
  rcases h with rfl | rfl | rfl | rfl | rfl | rfl | rfl | rfl <;> rfl

theorem length_byteBits (x : Byte) : (byteBits x).length = 8 := rfl

theorem length_flatMap_byteBits (bytes : List Byte) : (bytes.flatMap byteBits).length = 8 * bytes.length := by
  induction bytes with
  | nil => rfl
  | cons b bytes ih => rw [List.flatMap_cons, List.length_append, ih, length_byteBits, List.length_cons]; omega

theorem flatMap_byteBits_getElem? (bytes : List Byte) (k : Nat) :
    (bytes.flatMap byteBits)[k]? = (bytes[k / 8]?).map (fun b => b.getLsbD (7 - k % 8)) := by
  induction bytes generalizing k with
  | nil => simp
  | cons b bytes ih =>
    rw [List.flatMap_cons]
    by_cases hk : k < 8
    · rw [List.getElem?_append_left (by simpa [length_byteBits] using hk), byteBits_getElem? b k hk]
      simp [Nat.div_eq_of_lt hk, Nat.mod_eq_of_lt hk]
    · rw [List.getElem?_append_right (by simp [length_byteBits]; omega), length_byteBits, ih]
      have h1 : k / 8 = (k - 8) / 8 + 1 := by omega
      have h2 : (k - 8) % 8 = k % 8 := by omega
      simp [h1, h2]

theorem unpackBits_getElem? (bytes : List Byte) (len k : Nat) (hk : k < len) :
    (unpackBits bytes len)[k]? = (bytes[k / 8]?).map (fun b => b.getLsbD (7 - k % 8)) := by
  rw [unpackBits, List.getElem?_take_of_lt hk, flatMap_byteBits_getElem?]

theorem length_unpackBits (bytes : List Byte) (len : Nat) (h : len ≤ 8 * bytes.length) :
    (unpackBits bytes len).length = len := by
  rw [unpackBits, List.length_take, length_flatMap_byteBits]; omega

/-- `InBit(k)` over a written byte. -/
theorem inBit_written {m : Memory Byte} {k d : Nat} {b : Byte} (h : Memory.read? m (k / 8) = some b) :
    inBit m k d = (b.getLsbD (7 - k % 8), d) := by
  simp [inBit, readByte, readCell_written h]

theorem inBit_draws_le (m : Memory Byte) (k d : Nat) : d ≤ (inBit m k d).2 :=
  readCell_draws_le 8 id m (k / 8) d

/-- `InBit(k)` where IBUF holds the bytes: the bit of `unpack`, and no draw. -/
theorem inBit_of_holds {s : State} {bytes : List Byte} {len k d : Nat} (h : ibufHolds s bytes)
    (hlen : len ≤ 8 * bytes.length) (hk : k < len) :
    ∃ b, (unpackBits bytes len)[k]? = some b ∧ inBit s.ibuf k d = (b, d) := by
  have hb : k / 8 < bytes.length := by omega
  have hr := h (k / 8) hb
  rw [List.getElem?_eq_getElem hb] at hr
  exact ⟨_, by rw [unpackBits_getElem? bytes len k hk, List.getElem?_eq_getElem hb]; rfl, inBit_written hr⟩

/-- Two buffers that agree on bit `k` of the stream give the same bit and take the same draws. -/
theorem inBit_congr {m m' : Memory Byte} {k : Nat} (d : Nat)
    (h : (Memory.read? m (k / 8)).map (fun b => b.getLsbD (7 - k % 8)) =
      (Memory.read? m' (k / 8)).map (fun b => b.getLsbD (7 - k % 8))) : inBit m k d = inBit m' k d := by
  unfold inBit readByte readCell
  cases h1 : Memory.read? m (k / 8) <;> cases h2 : Memory.read? m' (k / 8) <;> simp_all

/-- R141's loop reads `n` bits: the value grows by them, and where the buffer is unwritten the draws go up. -/
theorem takeBits_bound (m : Memory Byte) (n p v d : Nat) :
    (takeBits m n p v d).1 < (v + 1) * 2 ^ n ∧ d ≤ (takeBits m n p v d).2 := by
  induction n generalizing p v d with
  | zero => simp [takeBits]
  | succ n ih =>
    unfold takeBits
    obtain ⟨h1, h2⟩ := ih (p + 1) (2 * v + (inBit m p d).1.toNat) (inBit m p d).2
    refine ⟨lt_of_lt_of_le h1 ?_, le_trans (inBit_draws_le m p d) h2⟩
    have : (inBit m p d).1.toNat ≤ 1 := Bool.toNat_le _
    calc (2 * v + (inBit m p d).1.toNat + 1) * 2 ^ n ≤ (2 * (v + 1)) * 2 ^ n := by gcongr; omega
      _ = (v + 1) * 2 ^ (n + 1) := by ring

/-- R141's loop where the buffer spells `bits` from `p` on. -/
theorem takeBits_eq {m : Memory Byte} (bits : List Bool) (p v d : Nat)
    (h : ∀ j b, bits[j]? = some b → ∀ d, inBit m (p + j) d = (b, d)) :
    takeBits m bits.length p v d = (bits.foldl (fun v b => 2 * v + b.toNat) v, d) := by
  induction bits generalizing p v with
  | nil => rfl
  | cons b bits ih =>
    have h0 := h 0 b rfl d
    simp only [List.length_cons, takeBits, List.foldl_cons, Nat.add_zero] at h0 ⊢
    rw [h0]
    exact ih (p + 1) _ fun j c hj d => by
      have := h (j + 1) c (by simpa using hj) d
      rwa [show p + (j + 1) = p + 1 + j by omega] at this

theorem takeBits_congr {m m' : Memory Byte} (n p v d : Nat)
    (h : ∀ k, p ≤ k → k < p + n → ∀ d, inBit m k d = inBit m' k d) : takeBits m n p v d = takeBits m' n p v d := by
  induction n generalizing p v d with
  | zero => rfl
  | succ n ih =>
    unfold takeBits
    rw [h p (le_refl p) (by omega) d]
    exact ih (p + 1) _ _ fun k h1 h2 d => h k (by omega) (by omega) d

theorem readChild_draws_le (s : State) (b : Bool) (node d : Nat) : d ≤ (readChild s b node d).2 :=
  readCell_draws_le 17 descOfBits _ node d

theorem readChild_withIbuf (s : State) (m : Memory Byte) (b : Bool) (node d : Nat) :
    readChild { s with ibuf := m } b node d = readChild s b node d := rfl

/-- The walk ends at a bit index between its start and the end of its bits, and never gives a draw back. -/
theorem walk_bound (s : State) (left node p d : Nat) :
    d ≤ (walk s left node p d).2 ∧
    ∀ sym q, (walk s left node p d).1 = .ok (sym, q) → p < q ∧ q ≤ p + left ∧ sym.toNat < s.params.alphabet := by
  induction left generalizing node p d with
  | zero =>
    unfold walk
    split <;> simp
  | succ left ih =>
    unfold walk
    split
    · simp
    · simp only
      have hd : d ≤ (readChild s (inBit s.ibuf p d).1 node (inBit s.ibuf p d).2).2 :=
        le_trans (inBit_draws_le s.ibuf p d) (readChild_draws_le ..)
      split
      · split
        · exact ⟨hd, by simp⟩
        · refine ⟨hd, fun sym q h => ?_⟩
          simp only [Except.ok.injEq, Prod.mk.injEq] at h
          obtain ⟨rfl, rfl⟩ := h
          exact ⟨by omega, by omega, by omega⟩
      · obtain ⟨h1, h2⟩ := ih _ (p + 1) _
        exact ⟨le_trans hd h1, fun sym q h => by have := h2 sym q h; omega⟩

/-- The walk raises ERR_TABLE or ERR_MALFORMED and no other error (R142). -/
theorem walk_error (s : State) (left node p d : Nat) (e : ErrFlag) (h : (walk s left node p d).1 = .error e) :
    e = .table ∨ e = .malformed := by
  induction left generalizing node p d with
  | zero =>
    unfold walk at h
    split at h <;> simp_all
  | succ left ih =>
    unfold walk at h
    split at h
    · simp_all
    · simp only at h
      split at h
      · split at h <;> simp_all
      · exact ih _ _ _ h

theorem walk_congr (s : State) (m : Memory Byte) (left node p d : Nat)
    (h : ∀ k, p ≤ k → k < p + left → ∀ d, inBit s.ibuf k d = inBit m k d) :
    walk { s with ibuf := m } left node p d = walk s left node p d := by
  induction left generalizing node p d with
  | zero => rfl
  | succ left ih =>
    unfold walk
    have ih' := fun node d => ih node (p + 1) d fun k h1 h2 d => h k (by omega) (by omega) d
    simp only [h p (le_refl p) (by omega) d, readChild_withIbuf, ih']
    rfl

end Sys2Proof.Machine
end

