-- ==== Sys2Proof/Laws/Bus.lean ====
section
/-! SUPPORT. The address map (spec/20_memory.md R51) at the addresses of registers and windows, and what a read and a
write of the port can do (R54, R55). -/

namespace Sys2Proof.Machine

/-! ### The address map -/

theorem target_regOffset (p : Params) (r : Reg) : target p (regOffset r) = some (.reg r) := by
  cases r <;> rfl

/-- The map of R51 by the address as a number. -/
theorem target_eq (p : Params) (a : Addr) (n : Nat) (h : a.toNat = n) :
    target p a =
      if n % 4 ≠ 0 then none
      else if n < 0x40 then (regAt (n / 4)).map .reg
      else if 0x010000 ≤ n ∧ n < 0x010000 + p.obufSize then some (.obuf (n - 0x010000))
      else if 0x020000 ≤ n ∧ n < 0x020000 + p.ibufSize then some (.ibuf (n - 0x020000))
      else if 0x080000 ≤ n ∧ n < 0x080000 + 8 * p.dtNodes then
        (if (n - 0x080000) % 8 = 0 then some (.dtLeft ((n - 0x080000) / 8)) else some (.dtRight ((n - 0x080000) / 8)))
      else if 0x100000 ≤ n ∧ n < 0x100000 + 8 * p.alphabet then
        (if (n - 0x100000) % 8 = 0 then some (.ctControl ((n - 0x100000) / 8))
          else some (.ctCode ((n - 0x100000) / 8)))
      else none := by
  subst h
  rfl

theorem target_ibufAddr {p : Params} (hp : p.legal) {k : Nat} (hk : 4 * k < p.ibufSize) :
    target p (ibufAddr k) = some (.ibuf (4 * k)) := by
  have := hp.2.2.1
  have := hp.2.2.2
  rw [target_eq p (ibufAddr k) (0x020000 + 4 * k) (by simp only [ibufAddr, BitVec.toNat_ofNat]; omega),
    if_neg (by omega), if_neg (by omega), if_neg (by omega), if_pos (by omega), Nat.add_sub_cancel_left]

theorem target_obufAddr {p : Params} (hp : p.legal) {k : Nat} (hk : 4 * k < p.obufSize) :
    target p (obufAddr k) = some (.obuf (4 * k)) := by
  have := hp.2.2.1
  rw [target_eq p (obufAddr k) (0x010000 + 4 * k) (by simp only [obufAddr, BitVec.toNat_ofNat]; omega),
    if_neg (by omega), if_neg (by omega), if_pos (by omega), Nat.add_sub_cancel_left]

theorem target_dtLeftAddr {p : Params} (hp : p.legal) {i : Nat} (hi : i < p.dtNodes) :
    target p (dtLeftAddr i) = some (.dtLeft i) := by
  have := hp.2.2.1
  have := hp.2.2.2
  have := alphabet_le hp
  have : p.dtNodes = p.alphabet - 1 := rfl
  rw [target_eq p (dtLeftAddr i) (0x080000 + 8 * i) (by simp only [dtLeftAddr, BitVec.toNat_ofNat]; omega),
    if_neg (by omega), if_neg (by omega), if_neg (by omega), if_neg (by omega), if_pos (by omega), if_pos (by omega)]
  congr 2
  omega

theorem target_dtRightAddr {p : Params} (hp : p.legal) {i : Nat} (hi : i < p.dtNodes) :
    target p (dtRightAddr i) = some (.dtRight i) := by
  have := hp.2.2.1
  have := hp.2.2.2
  have := alphabet_le hp
  have : p.dtNodes = p.alphabet - 1 := rfl
  rw [target_eq p (dtRightAddr i) (0x080000 + 8 * i + 4) (by simp only [dtRightAddr, BitVec.toNat_ofNat]; omega),
    if_neg (by omega), if_neg (by omega), if_neg (by omega), if_neg (by omega), if_pos (by omega), if_neg (by omega)]
  congr 2
  omega

theorem target_ctControlAddr {p : Params} (hp : p.legal) {t : Nat} (ht : t < p.alphabet) :
    target p (ctControlAddr t) = some (.ctControl t) := by
  have := hp.2.2.1
  have := hp.2.2.2
  have := alphabet_le hp
  have : p.dtNodes = p.alphabet - 1 := rfl
  rw [target_eq p (ctControlAddr t) (0x100000 + 8 * t) (by simp only [ctControlAddr, BitVec.toNat_ofNat]; omega),
    if_neg (by omega), if_neg (by omega), if_neg (by omega), if_neg (by omega), if_neg (by omega), if_pos (by omega),
    if_pos (by omega)]
  congr 2
  omega

theorem target_ctCodeAddr {p : Params} (hp : p.legal) {t : Nat} (ht : t < p.alphabet) :
    target p (ctCodeAddr t) = some (.ctCode t) := by
  have := hp.2.2.1
  have := hp.2.2.2
  have := alphabet_le hp
  have : p.dtNodes = p.alphabet - 1 := rfl
  rw [target_eq p (ctCodeAddr t) (0x100000 + 8 * t + 4) (by simp only [ctCodeAddr, BitVec.toNat_ofNat]; omega),
    if_neg (by omega), if_neg (by omega), if_neg (by omega), if_neg (by omega), if_neg (by omega), if_pos (by omega),
    if_neg (by omega)]
  congr 2
  omega

/-- A good address names a cell inside its memory (R51, R56 to R59). -/
theorem target_bounds {p : Params} (hp : p.legal) {a : Addr} {t : Target} (h : target p a = some t) :
    (∀ k, t = .obuf k → k % 4 = 0 ∧ k + 3 < p.obufSize) ∧ (∀ k, t = .ibuf k → k % 4 = 0 ∧ k + 3 < p.ibufSize) ∧
    (∀ i, t = .dtLeft i ∨ t = .dtRight i → i < p.dtNodes) ∧
    (∀ i, t = .ctControl i ∨ t = .ctCode i → i < p.alphabet) := by
  have h1 := hp.2.2.1.1
  have h2 := hp.2.2.2.1
  unfold target at h
  simp only at h
  split at h
  · simp at h
  · split at h
    · cases hr : regAt (a.toNat / 4) <;> simp [hr] at h
      subst h
      simp
    · split at h
      · simp at h; subst h; simp; omega
      · split at h
        · simp at h; subst h; simp; omega
        · split at h
          · split at h <;> (simp at h; subst h; simp; omega)
          · split at h
            · split at h <;> (simp at h; subst h; simp; omega)
            · simp at h

/-- An access is bad exactly at a misaligned or unmapped address (R51, R53). -/
theorem target_none_iff (p : Params) (a : Addr) : target p a = none ↔ (a.toNat % 4 ≠ 0 ∨ unmapped p a) := by
  rw [target_eq p a _ rfl]
  unfold unmapped
  generalize a.toNat = n
  split
  · simp_all
  · split
    · have : n / 4 < 16 := by omega
      generalize hn : n / 4 = k at *
      have hs : (regAt k).isSome := by interval_cases k <;> rfl
      cases hr : regAt k <;> simp_all
    · split
      · simp; omega
      · split
        · simp; omega
        · split
          · split <;> (simp; omega)
          · split
            · split <;> (simp; omega)
            · simp; omega

/-- Only CMD's own address names CMD. -/
theorem target_cmd {p : Params} {a : Addr} (h : target p a = some (.reg .cmd)) : a = regOffset .cmd := by
  unfold target at h
  simp only at h
  split at h
  · simp at h
  · split at h
    · apply BitVec.eq_of_toNat_eq
      show a.toNat = 0x14
      rename_i h1 h2
      generalize hn : a.toNat / 4 = n at h
      have h5 : n = 5 := by
        have : n < 16 := by omega
        interval_cases n <;> simp_all [regAt]
      omega
    · split at h
      · simp at h
      · split at h
        · simp at h
        · split at h
          · split at h <;> simp at h
          · split at h
            · split at h <;> simp at h
            · simp at h

/-! ### What a transaction can do -/

theorem readLanes_draws_le (m : Memory Byte) (k d : Nat) : d ≤ (readLanes m k d).2 := by
  have h := fun a d => readCell_draws_le 8 id m a d
  simp only [readLanes, readByte]
  exact le_trans (h _ _) (le_trans (h _ _) (le_trans (h _ _) (h _ _)))

/-- A read never gives a draw back. -/
theorem targetWord_draws_le (s : State) (t : Target) : s.draws ≤ (targetWord s t).2 := by
  cases t with
  | reg r => exact le_refl _
  | obuf k => exact readLanes_draws_le _ _ _
  | ibuf k => exact readLanes_draws_le _ _ _
  | dtLeft i => exact readCell_draws_le 17 descOfBits _ _ _
  | dtRight i => exact readCell_draws_le 17 descOfBits _ _ _
  | ctControl i =>
    simp only [targetWord, ctLen]
    split <;> simp
  | ctCode i => exact readCell_draws_le 32 id _ _ _

/-- Each byte after a word write (R55 case 7, R60). -/
theorem read?_writeLanes (m : Memory Byte) (k : Nat) (w : Word) (a : Nat) :
    Memory.read? (writeLanes m k w) a =
      if k ≤ a ∧ a < k + 4 then some (w.extractLsb' (8 * (a - k)) 8) else Memory.read? m a := by
  unfold writeLanes
  simp only [Memory.read?_write]
  by_cases h : k ≤ a ∧ a < k + 4
  · have h' : a = k ∨ a = k + 1 ∨ a = k + 2 ∨ a = k + 3 := by omega
    rcases h' with rfl | rfl | rfl | rfl <;> simp
  · rw [if_neg (by omega), if_neg (by omega), if_neg (by omega), if_neg (by omega), if_neg h]

/-- A word of four written bytes (R60), with no draw. -/
theorem readLanes_written {m : Memory Byte} {k d : Nat} {b : Nat → Byte}
    (h : ∀ j < 4, Memory.read? m (k + j) = some (b j)) :
    readLanes m k d = (b 3 ++ b 2 ++ b 1 ++ b 0, d) := by
  have h0 := h 0 (by omega)
  rw [Nat.add_zero] at h0
  simp only [readLanes, readByte, readCell_written h0, readCell_written (h 1 (by omega)), readCell_written (h 2 (by omega)),
    readCell_written (h 3 (by omega))]

/-- A word written to a buffer reads back. -/
theorem readLanes_writeLanes (m : Memory Byte) (k : Nat) (w : Word) (d : Nat) :
    readLanes (writeLanes m k w) k d = (w, d) := by
  rw [readLanes_written (b := fun j => w.extractLsb' (8 * j) 8) fun j hj => by
    rw [read?_writeLanes, if_pos (by omega), Nat.add_sub_cancel_left]]
  congr 1
  apply BitVec.eq_of_getLsbD_eq
  intro i hi
  simp only [BitVec.getLsbD_append, BitVec.getLsbD_extractLsb']
  interval_cases i <;> simp

/-- Everything a read can answer (R54, R69). -/
theorem busRead_cases (a : Addr) (s : State) :
    (target s.params a = none ∧ busRead a s = { setErr .addr s with answer := some 0 }) ∨
    (∃ t, target s.params a = some t ∧ busy s = true ∧ engineWritten t = true ∧
      busRead a s = { s with answer := some (busyDraw s t), draws := s.draws + 1 }) ∨
    (∃ t, target s.params a = some t ∧ (busy s = false ∨ engineWritten t = false) ∧
      busRead a s = { s with answer := some (targetWord s t).1, draws := (targetWord s t).2 }) := by
  unfold busRead
  split
  · exact .inl ⟨by assumption, rfl⟩
  · rename_i t ht
    split
    · rename_i h
      simp only [Bool.and_eq_true] at h
      exact .inr (.inl ⟨t, ht, h.1, h.2, rfl⟩)
    · rename_i h
      refine .inr (.inr ⟨t, ht, ?_, rfl⟩)
      cases hb : busy s <;> simp_all

/-- Everything a write can do: nothing, one error bit, W1C, fill PEND, or, while BUSY = 0, perform the write (R55). -/
theorem busWrite_cases (a : Addr) (w : Word) (s : State) :
    (∃ e, busWrite a w s = setErr e s) ∨ busWrite a w s = s ∨ busWrite a w s = w1cStatus w s ∨
    (a = regOffset .cmd ∧ s.pend = none ∧ busWrite a w s = { s with pend := some w }) ∨
    (∃ t, target s.params a = some t ∧ busy s = false ∧ readOnly t = false ∧
      (s.params.tablesWritable = true ∨ tableTarget t = false) ∧ busWrite a w s = performWrite w s t) := by
  unfold busWrite
  split
  · exact .inl ⟨_, rfl⟩
  · exact .inr (.inr (.inl rfl))
  · rename_i ht
    split
    · exact .inl ⟨_, rfl⟩
    · rename_i hb
      refine .inr (.inr (.inr (.inl ⟨target_cmd ht, ?_, rfl⟩)))
      simpa [busy] using hb
  · rename_i t h1 h2 ht
    split
    · exact .inr (.inl rfl)
    · rename_i hro
      split
      · exact .inl ⟨_, rfl⟩
      · rename_i htab
        split
        · exact .inl ⟨_, rfl⟩
        · rename_i hb
          refine .inr (.inr (.inr (.inr ⟨t, ht, by simpa using hb, by simpa using hro, ?_, rfl⟩)))
          cases hw : s.params.tablesWritable <;> simp_all

/-- A write that no earlier case of R55 decides is performed. -/
theorem busWrite_performs {a : Addr} {s : State} {t : Target} (w : Word) (h : target s.params a = some t)
    (hb : busy s = false) (hr : readOnly t = false) (ht : tableTarget t = true → s.params.tablesWritable = true)
    (h1 : t ≠ .reg .status) (h2 : t ≠ .reg .cmd) : busWrite a w s = performWrite w s t := by
  have hx : (!s.params.tablesWritable && tableTarget t) = false := by
    cases h : tableTarget t <;> simp_all
  unfold busWrite
  rw [h]
  split
  · simp_all
  · simp_all
  · simp_all
  · rename_i u _ _ hu
    simp only [Option.some.injEq] at hu
    subst hu
    simp [hr, hx, hb]

end Sys2Proof.Machine
end

