-- ==== Sys2Proof/Laws/Lookup.lean ====
section
/-! SUPPORT. What `Lookup` can answer (spec/41_encode.md R123): the entry it chooses, its errors, and its draws. -/

namespace Sys2Proof.Machine

/-- Only a listed symbol can be valid. -/
theorem ctValid_listed {s : State} {t : Nat} (h : ctValid s t = true) : t ∈ s.tables.ctControl.map Prod.fst := by
  unfold ctValid at h
  split at h
  · rename_i c hc
    exact List.mem_map.2 ⟨_, Memory.mem_of_read? hc, rfl⟩
  · simp at h

/-- `min` of R123 where some entry is valid: the least valid symbol. -/
theorem leastValid_some {s : State} {t : Nat} (h : leastValid s = some t) :
    t < s.params.alphabet ∧ ctValid s t = true ∧ ∀ u < t, ctValid s u = false := by
  unfold leastValid at h
  obtain ⟨h1, h2⟩ := List.min?_eq_some_iff.1 h
  simp only [List.mem_filter, Bool.and_eq_true, decide_eq_true_eq] at h1 h2
  refine ⟨h1.2.1, h1.2.2, fun u hu => ?_⟩
  by_contra hv
  have hv : ctValid s u = true := by simpa using hv
  have := h2 u ⟨ctValid_listed hv, by omega, hv⟩
  omega

/-- `min` of R123 does not exist exactly where no entry is valid. -/
theorem leastValid_none {s : State} : leastValid s = none ↔ ∀ u < s.params.alphabet, ctValid s u = false := by
  unfold leastValid
  rw [List.min?_eq_none_iff, List.filter_eq_nil_iff]
  constructor
  · intro h u hu
    by_contra hv
    have hv : ctValid s u = true := by simpa using hv
    exact h u (ctValid_listed hv) (by simp [hu, hv])
  · intro h u _
    simp only [Bool.and_eq_true, decide_eq_true_eq, not_and]
    intro hu
    simp [h u hu]

/-- The entry R123 names is the entry `Lookup` uses. -/
theorem chooseEntry_of {s : State} {sym e : Nat} {fb : Bool} (h : LookupChooses s sym e fb) :
    chooseEntry s sym = .ok (e, fb) := by
  unfold chooseEntry
  rcases h with ⟨h1, rfl, rfl⟩ | ⟨h1, h2, rfl, ⟨u, hu, hv⟩, h3⟩
  · simp [h1]
  · cases hl : leastValid s with
    | none => rw [leastValid_none] at hl; simp [hl u hu] at hv
    | some l =>
      obtain ⟨l1, l2, l3⟩ := leastValid_some hl
      simp only [h1, h2]
      split at h3
      · rename_i hs
        subst h3
        simp [hs]
      · rename_i hs
        have hle : l = e := by
          rcases lt_trichotomy l e with h | h | h
          · simp [h3.2.2 l h] at l2
          · exact h
          · simp [l3 e h] at h3
        subst hle
        simp only [Bool.and_eq_true, decide_eq_true_eq, hs]
        simp

/-- `Lookup` where the control word of the entry it uses is written: its code word is read once, and may be a draw. -/
theorem lookup_of_control {s : State} {sym e : Nat} {fb : Bool} {len : BitVec 6} (h : LookupChooses s sym e fb)
    (hc : Memory.read? s.tables.ctControl e = some { valid := true, len := len }) :
    lookup s sym =
      if len.toNat = 0 ∨ len.toNat > s.params.maxCodeLen then (.error .table, (ctCode s e s.draws).2)
      else (.ok { len := len.toNat, code := (ctCode s e s.draws).1, fallback := fb }, (ctCode s e s.draws).2) := by
  simp only [lookup, chooseEntry_of h, readEntry, ctLen, hc]

/-- A written code word is read without a draw. -/
theorem ctCode_written {s : State} {e d : Nat} {code : Word} (hk : Memory.read? s.tables.ctCode e = some code) :
    ctCode s e d = (code, d) := readCell_written hk

/-- `Lookup` where the entry it uses is fully written: no draw. -/
theorem lookup_of {s : State} {sym e : Nat} {fb : Bool} {len : BitVec 6} {code : Word} (h : LookupChooses s sym e fb)
    (hc : Memory.read? s.tables.ctControl e = some { valid := true, len := len })
    (hk : Memory.read? s.tables.ctCode e = some code) :
    lookup s sym =
      if len.toNat = 0 ∨ len.toNat > s.params.maxCodeLen then (.error .table, s.draws)
      else (.ok { len := len.toNat, code := code, fallback := fb }, s.draws) := by
  rw [lookup_of_control h hc, ctCode_written hk]

theorem lookup_draws_le (s : State) (sym : Nat) : s.draws ≤ (lookup s sym).2 := by
  unfold lookup
  split
  · simp
  · unfold readEntry
    rename_i t fb _
    have h1 : s.draws ≤ (ctLen s t s.draws).2 := by unfold ctLen; split <;> simp
    have h2 : (ctLen s t s.draws).2 ≤ (ctCode s t (ctLen s t s.draws).2).2 := readCell_draws_le ..
    simp only
    split <;> exact le_trans h1 h2

/-- `Lookup` raises ERR_EMPTY, MISSING or ERR_TABLE and no other error (R123). -/
theorem lookup_error {s : State} {sym : Nat} {e : ErrFlag} (h : (lookup s sym).1 = .error e) :
    e = .empty ∨ e = .missing ∨ e = .table := by
  unfold lookup at h
  split at h
  · rename_i e' he
    simp only [Except.error.injEq] at h
    subst h
    unfold chooseEntry at he
    split at he
    · simp at he
    · split at he
      · simp at he; simp [he]
      · split at he
        · simp at he; simp [he]
        · simp only at he; split at he <;> simp at he
  · unfold readEntry at h
    simp only at h
    split at h <;> simp_all

/-- A code that `Lookup` gives has a legal length (R123). -/
theorem lookup_len {s : State} {sym : Nat} {f : Found} (h : (lookup s sym).1 = .ok f) :
    1 ≤ f.len ∧ f.len ≤ s.params.maxCodeLen := by
  unfold lookup at h
  split at h
  · simp at h
  · unfold readEntry at h
    simp only at h
    split at h
    · simp at h
    · simp only [Except.ok.injEq] at h
      subst h
      simp only
      omega

end Sys2Proof.Machine
end

