-- ==== Sys2Proof/Laws/Errors.lean ====
section
/-! SUPPORT. The error bits `STATUS[19:8]` and what does not read them (spec/60_exceptions.md R179, R180). -/

namespace Sys2Proof.Machine

variable (s : State) (e : BitVec 12)

@[simp] theorem withErrors_params : (withErrors e s).params = s.params := rfl
@[simp] theorem withErrors_ctrl : (withErrors e s).ctrl = s.ctrl := rfl
@[simp] theorem withErrors_pend : (withErrors e s).pend = s.pend := rfl
@[simp] theorem withErrors_data : (withErrors e s).data = s.data := rfl
@[simp] theorem withErrors_result : (withErrors e s).result = s.result := rfl
@[simp] theorem withErrors_bitcount : (withErrors e s).bitcount = s.bitcount := rfl
@[simp] theorem withErrors_optr : (withErrors e s).optr = s.optr := rfl
@[simp] theorem withErrors_bitlen : (withErrors e s).bitlen = s.bitlen := rfl
@[simp] theorem withErrors_iptr : (withErrors e s).iptr = s.iptr := rfl
@[simp] theorem withErrors_degenRemain : (withErrors e s).degenRemain = s.degenRemain := rfl
@[simp] theorem withErrors_acc : (withErrors e s).acc = s.acc := rfl
@[simp] theorem withErrors_accN : (withErrors e s).accN = s.accN := rfl
@[simp] theorem withErrors_tables : (withErrors e s).tables = s.tables := rfl
@[simp] theorem withErrors_obuf : (withErrors e s).obuf = s.obuf := rfl
@[simp] theorem withErrors_ibuf : (withErrors e s).ibuf = s.ibuf := rfl
@[simp] theorem withErrors_agenda : (withErrors e s).agenda = s.agenda := rfl
@[simp] theorem withErrors_answer : (withErrors e s).answer = s.answer := rfl
@[simp] theorem withErrors_draws : (withErrors e s).draws = s.draws := rfl
@[simp] theorem withErrors_status_done : (withErrors e s).status.done = s.status.done := rfl
@[simp] theorem withErrors_status_resValid : (withErrors e s).status.resValid = s.status.resValid := rfl
@[simp] theorem withErrors_status_eos : (withErrors e s).status.eos = s.status.eos := rfl
@[simp] theorem withErrors_status_encClosed : (withErrors e s).status.encClosed = s.status.encClosed := rfl
@[simp] theorem withErrors_status_errors : (withErrors e s).status.errors = e := rfl
@[simp] theorem withErrors_withErrors (e' : BitVec 12) : withErrors e' (withErrors e s) = withErrors e' s := rfl
@[simp] theorem withErrors_self : withErrors s.status.errors s = s := rfl

theorem withDraws_withErrors (d : Nat) : withDraws d (withErrors e s) = withErrors e (withDraws d s) := rfl

/-- The packer does not read the error bits. -/
theorem pushBits_withErrors (n : Nat) (v : Word) :
    pushBits n v (withErrors e s) = (pushBits n v s).map (withErrors e) := by
  by_cases h : s.optr.toNat + (s.accN.toNat + n) / 8 > s.params.obufSize
  · unfold pushBits
    rw [if_pos h]
    exact if_pos h
  · unfold pushBits
    rw [if_neg h]
    exact if_neg h

/-- The table lookup does not read the error bits. -/
@[simp] theorem lookup_withErrors (sym : Nat) : lookup (withErrors e s) sym = lookup s sym := rfl

/-- The decode walk does not read the error bits. -/
@[simp] theorem walk_withErrors (left node p d : Nat) : walk (withErrors e s) left node p d = walk s left node p d := by
  induction left generalizing node p d with
  | zero => rfl
  | succ left ih => unfold walk; simp only [ih]; rfl

end Sys2Proof.Machine
end

