-- ==== Sys2Proof/Laws/Flags.lean ====
section
/-! SUPPORT. The STATUS word bit by bit (spec/10_state.md R26). -/

namespace Sys2Proof.Machine

/-- Every bit of the STATUS word: BUSY, DONE, RES_VALID, EOS, ENC_CLOSED, the error bits, and the reserved zeros (R26). -/
theorem statusWord_getLsbD (s : State) (j : Nat) :
    (statusWord s).getLsbD j =
      if j = 0 then busy s else if j = 1 then s.status.done else if j = 2 then s.status.resValid
      else if j = 3 then s.status.eos else if j = 4 then s.status.encClosed
      else if 8 ≤ j ∧ j ≤ 19 then s.status.errors.getLsbD (j - 8) else false := by
  by_cases hj : j < 32
  · simp only [statusWord, BitVec.getLsbD_append]
    interval_cases j <;> simp
  · rw [BitVec.getLsbD_of_ge _ _ (by omega)]
    rw [if_neg (by omega), if_neg (by omega), if_neg (by omega), if_neg (by omega), if_neg (by omega), if_neg (by omega)]

end Sys2Proof.Machine
end

