-- ==== Sys2Proof/Laws/Packer.lean ====
section
/-! SUPPORT. What the packer does (spec/41_encode.md R120): one lemma for one pushed bit, one for `PushBits`. -/

namespace Sys2Proof.Machine

theorem bufferBytes_write_end (m : Memory Byte) (n : Nat) (b : Byte) :
    bufferBytes (Memory.write m n b) (n + 1) = (bufferBytes m n).map (· ++ [b]) := by
  have hcongr : List.mapM (Memory.read? (Memory.write m n b)) (List.range n) =
      List.mapM (Memory.read? m) (List.range n) := by
    have : ∀ l : List Nat, (∀ x ∈ l, x < n) →
        List.mapM (Memory.read? (Memory.write m n b)) l = List.mapM (Memory.read? m) l := by
      intro l hl
      induction l with
      | nil => rfl
      | cons x l ih =>
        have hx : x < n := hl x List.mem_cons_self
        simp [List.mapM_cons, Memory.read?_write_ne m b (show x ≠ n by omega),
          ih fun y hy => hl y (List.mem_cons_of_mem _ hy)]
    exact this _ fun x hx => List.mem_range.1 hx
  unfold bufferBytes
  rw [List.range_succ, List.mapM_append, hcongr]
  simp only [List.mapM_cons, List.mapM_nil, Memory.read?_write_same]
  cases List.mapM (Memory.read? m) (List.range n) <;> rfl

/-- The stream as the packer's part of a state shows it. -/
def packerBits (p : Packer) : Option (List Bool) :=
  (bufferBytes p.obuf p.optr.toNat).map (fun bytes => bytes.flatMap byteBits ++ (byteBits p.acc).take p.accN.toNat)

theorem packedBits_eq (s : State) : packedBits s = packerBits (packerOf s) := rfl

theorem byteBits_assignBit (x : Byte) (n : Nat) (b : Bool) (hn : n < 8) :
    (byteBits (assignBit x (7 - n) b)).take (n + 1) = (byteBits x).take n ++ [b] := by
  have h : n = 0 ∨ n = 1 ∨ n = 2 ∨ n = 3 ∨ n = 4 ∨ n = 5 ∨ n = 6 ∨ n = 7 := by omega
  rcases h with rfl | rfl | rfl | rfl | rfl | rfl | rfl | rfl <;> cases b <;>
    simp [byteBits, assignBit]

theorem accLow_assignBit (x : Byte) (n : Nat) (b : Bool) (hn : n < 7) (hx : x.toNat % 2 ^ (8 - n) = 0) :
    (assignBit x (7 - n) b).toNat % 2 ^ (8 - (n + 1)) = 0 := by
  have h : n = 0 ∨ n = 1 ∨ n = 2 ∨ n = 3 ∨ n = 4 ∨ n = 5 ∨ n = 6 := by omega
  rcases h with rfl | rfl | rfl | rfl | rfl | rfl | rfl <;> revert x <;> cases b <;> decide

/-- Everything pushing `n` bits `bits` can do to the packer's part. -/
structure Pushed (p q : Packer) (bits : List Bool) : Prop where
  count   : 8 * q.optr.toNat + q.accN.toNat = 8 * p.optr.toNat + p.accN.toNat + bits.length
  stream  : packerBits q = (packerBits p).map (· ++ bits)
  outside : ∀ a, a < p.optr.toNat ∨ q.optr.toNat ≤ a → Memory.read? q.obuf a = Memory.read? p.obuf a
  wf      : Memory.wf p.obuf → Memory.wf q.obuf
  below   : ∀ n, keysBelow p.obuf n → q.optr.toNat ≤ n → keysBelow q.obuf n
  accLow  : p.acc.toNat % 2 ^ (8 - p.accN.toNat) = 0 → q.acc.toNat % 2 ^ (8 - q.accN.toNat) = 0
  written : (∀ i < p.optr.toNat, (Memory.read? p.obuf i).isSome = true) →
    ∀ i < q.optr.toNat, (Memory.read? q.obuf i).isSome = true

theorem Pushed.refl (p : Packer) : Pushed p p [] :=
  ⟨by simp, by cases packerBits p <;> simp, fun _ _ => rfl, id, fun _ h _ => h, id, fun h => h⟩

theorem Pushed.optr_mono {p q : Packer} {bits : List Bool} (h : Pushed p q bits) : p.optr.toNat ≤ q.optr.toNat := by
  have := h.count
  have := q.accN.isLt
  have := p.accN.isLt
  omega

theorem Pushed.trans {p q r : Packer} {bits bits' : List Bool} (h : Pushed p q bits) (h' : Pushed q r bits') :
    Pushed p r (bits ++ bits') := by
  have m1 := h.optr_mono
  have m2 := h'.optr_mono
  refine ⟨?_, ?_, ?_, fun w => h'.wf (h.wf w), fun n hb hr => h'.below n (h.below n hb (by omega)) hr,
    fun w => h'.accLow (h.accLow w), fun w => h'.written (h.written w)⟩
  · have := h.count; have := h'.count; simp; omega
  · rw [h'.stream, h.stream]
    cases packerBits p <;> simp
  · intro a ha
    rw [h'.outside a (by omega), h.outside a (by omega)]

/-- One pushed bit. -/
theorem pushBit_pushed (b : Bool) (p : Packer) (hp : p.optr.toNat + 1 < 2 ^ 32) : Pushed p (pushBit b p) [b] := by
  have hlt := p.accN.isLt
  unfold pushBit
  by_cases h8 : p.accN.toNat + 1 = 8
  · have hoptr : (p.optr + 1).toNat = p.optr.toNat + 1 := by
      rw [BitVec.toNat_add]; simp; omega
    have h7 : p.accN.toNat = 7 := by omega
    have hbb := byteBits_assignBit p.acc 7 b (by omega)
    simp only [h8, if_true]
    refine ⟨?_, ?_, ?_, ?_, ?_, ?_, ?_⟩
    · simp; omega
    · simp only [packerBits, hoptr, bufferBytes_write_end, h7]
      cases bufferBytes p.obuf p.optr.toNat with
      | none => rfl
      | some bytes =>
        have hfull : byteBits (assignBit p.acc 0 b) = (byteBits p.acc).take 7 ++ [b] := by
          simpa [byteBits] using hbb
        simp [hfull]
    · intro a ha
      simp only [hoptr] at ha
      exact Memory.read?_write_ne _ _ (by omega)
    · exact fun w => Memory.wf_write w _ _
    · intro n hb hq
      simp only [hoptr] at hq
      exact Memory.below_write hb (by omega) _
    · simp
    · intro w i hi
      simp only [hoptr] at hi
      rw [Memory.read?_write]
      split
      · rfl
      · exact w i (by omega)
  · have hn : p.accN.toNat < 7 := by omega
    have haccN : (p.accN + 1).toNat = p.accN.toNat + 1 := by
      rw [BitVec.toNat_add]; simp; omega
    simp only [h8, if_false]
    refine ⟨?_, ?_, fun _ _ => rfl, id, fun _ h _ => h, ?_, fun w => w⟩
    · simp; omega
    · simp only [packerBits, haccN, byteBits_assignBit p.acc p.accN.toNat b (by omega)]
      cases bufferBytes p.obuf p.optr.toNat <;> simp
    · intro w
      rw [haccN]
      exact accLow_assignBit p.acc p.accN.toNat b hn w

theorem length_bitsOf (v : Word) (n : Nat) : (bitsOf v n).length = n := by
  induction n with
  | zero => rfl
  | succ n ih => simp [bitsOf, ih]

/-- R120's loop appends the bits `v[n-1], ..., v[0]`. -/
theorem pushLoop_pushed (v : Word) (n : Nat) (p : Packer) (hp : p.optr.toNat + (p.accN.toNat + n) / 8 + 1 < 2 ^ 32) :
    Pushed p (pushLoop v n p) (bitsOf v n) := by
  induction n generalizing p with
  | zero => exact Pushed.refl p
  | succ n ih =>
    have hlt := p.accN.isLt
    have h1 := pushBit_pushed (v.getLsbD n) p (by omega)
    have hc := h1.count
    have hlt' := (pushBit (v.getLsbD n) p).accN.isLt
    simp only [List.length_singleton] at hc
    exact h1.trans (ih _ (by omega))

/-- `PushBits` (R120): it raises ERR_OFLOW exactly when OBUF would overflow, and otherwise appends all its bits and
changes nothing but the packer's part and BITCOUNT. -/
theorem pushBits_spec (n : Nat) (v : Word) (s : State) (hp : s.params.obufSize ≤ 65536) :
    (s.optr.toNat + (s.accN.toNat + n) / 8 > s.params.obufSize ∧ pushBits n v s = .error .oflow) ∨
    (s.optr.toNat + (s.accN.toNat + n) / 8 ≤ s.params.obufSize ∧
      ∃ q, Pushed (packerOf s) q (bitsOf v n) ∧
        pushBits n v s = .ok { withPacker q s with bitcount := s.bitcount + BitVec.ofNat 32 n }) := by
  unfold pushBits
  split
  · exact .inl ⟨by assumption, rfl⟩
  · refine .inr ⟨by omega, _, pushLoop_pushed v n (packerOf s) ?_, rfl⟩
    show s.optr.toNat + (s.accN.toNat + n) / 8 + 1 < 2 ^ 32
    omega

/-- Everything `PushBits` can answer, without the bound on OBUF_SIZE. -/
theorem pushBits_cases (n : Nat) (v : Word) (s : State) :
    pushBits n v s = .error .oflow ∨
    pushBits n v s = .ok { withPacker (pushLoop v n (packerOf s)) s with bitcount := s.bitcount + BitVec.ofNat 32 n } := by
  unfold pushBits
  split
  · exact .inl rfl
  · exact .inr rfl

end Sys2Proof.Machine
end

