-- ==== Sys2Proof/Laws/PerInstr.lean ====
section
/-! SUPPORT. Statements made per command: the family `OpcodeNibble`. -/

namespace Sys2Proof.Laws.OpcodeNibble

/-- A well-formed command's word carries its opcode in bits [31:28] (spec/30_encoding.md R81, R92). -/
def Statement (i : Instr) : Prop := ∀ p : Params, p.legal → i.wf p = true → opcField (encode i) = opcode i

theorem of_any (i : Instr) : Statement i := fun p hp hi => by
  have h := operandBits_lt hp hi
  rw [opcField_eq, encode_toNat hp hi]
  omega

theorem nop : Statement .nop := of_any _
theorem encInit : Statement .encInit := of_any _
theorem putBits (n : Nat) : Statement (.putBits n) := of_any _
theorem encSym (s : Nat) : Statement (.encSym s) := of_any _
theorem flush : Statement .flush := of_any _
theorem decInit : Statement .decInit := of_any _
theorem getBits (n : Nat) : Statement (.getBits n) := of_any _
theorem decSym : Statement .decSym := of_any _
theorem softReset : Statement .softReset := of_any _

end Sys2Proof.Laws.OpcodeNibble
end

