-- ==== Sys2Proof/Laws/State.lean ====
section
/-! SUPPORT. One lemma per field per named update of the state, each true by `rfl`. -/

namespace Sys2Proof.Machine

variable (s : State)

@[simp] theorem setErr_params (e : ErrFlag) : (setErr e s).params = s.params := rfl
@[simp] theorem setErr_ctrl (e : ErrFlag) : (setErr e s).ctrl = s.ctrl := rfl
@[simp] theorem setErr_pend (e : ErrFlag) : (setErr e s).pend = s.pend := rfl
@[simp] theorem setErr_data (e : ErrFlag) : (setErr e s).data = s.data := rfl
@[simp] theorem setErr_result (e : ErrFlag) : (setErr e s).result = s.result := rfl
@[simp] theorem setErr_bitcount (e : ErrFlag) : (setErr e s).bitcount = s.bitcount := rfl
@[simp] theorem setErr_optr (e : ErrFlag) : (setErr e s).optr = s.optr := rfl
@[simp] theorem setErr_bitlen (e : ErrFlag) : (setErr e s).bitlen = s.bitlen := rfl
@[simp] theorem setErr_iptr (e : ErrFlag) : (setErr e s).iptr = s.iptr := rfl
@[simp] theorem setErr_degenRemain (e : ErrFlag) : (setErr e s).degenRemain = s.degenRemain := rfl
@[simp] theorem setErr_acc (e : ErrFlag) : (setErr e s).acc = s.acc := rfl
@[simp] theorem setErr_accN (e : ErrFlag) : (setErr e s).accN = s.accN := rfl
@[simp] theorem setErr_tables (e : ErrFlag) : (setErr e s).tables = s.tables := rfl
@[simp] theorem setErr_obuf (e : ErrFlag) : (setErr e s).obuf = s.obuf := rfl
@[simp] theorem setErr_ibuf (e : ErrFlag) : (setErr e s).ibuf = s.ibuf := rfl
@[simp] theorem setErr_agenda (e : ErrFlag) : (setErr e s).agenda = s.agenda := rfl
@[simp] theorem setErr_answer (e : ErrFlag) : (setErr e s).answer = s.answer := rfl
@[simp] theorem setErr_draws (e : ErrFlag) : (setErr e s).draws = s.draws := rfl
@[simp] theorem setErr_status_done (e : ErrFlag) : (setErr e s).status.done = s.status.done := rfl
@[simp] theorem setErr_status_resValid (e : ErrFlag) : (setErr e s).status.resValid = s.status.resValid := rfl
@[simp] theorem setErr_status_eos (e : ErrFlag) : (setErr e s).status.eos = s.status.eos := rfl
@[simp] theorem setErr_status_encClosed (e : ErrFlag) : (setErr e s).status.encClosed = s.status.encClosed := rfl
@[simp] theorem setErr_status_errors (e : ErrFlag) : (setErr e s).status.errors = s.status.errors ||| errMask e := rfl

@[simp] theorem w1cStatus_params (w : Word) : (w1cStatus w s).params = s.params := rfl
@[simp] theorem w1cStatus_ctrl (w : Word) : (w1cStatus w s).ctrl = s.ctrl := rfl
@[simp] theorem w1cStatus_pend (w : Word) : (w1cStatus w s).pend = s.pend := rfl
@[simp] theorem w1cStatus_data (w : Word) : (w1cStatus w s).data = s.data := rfl
@[simp] theorem w1cStatus_result (w : Word) : (w1cStatus w s).result = s.result := rfl
@[simp] theorem w1cStatus_bitcount (w : Word) : (w1cStatus w s).bitcount = s.bitcount := rfl
@[simp] theorem w1cStatus_optr (w : Word) : (w1cStatus w s).optr = s.optr := rfl
@[simp] theorem w1cStatus_bitlen (w : Word) : (w1cStatus w s).bitlen = s.bitlen := rfl
@[simp] theorem w1cStatus_iptr (w : Word) : (w1cStatus w s).iptr = s.iptr := rfl
@[simp] theorem w1cStatus_degenRemain (w : Word) : (w1cStatus w s).degenRemain = s.degenRemain := rfl
@[simp] theorem w1cStatus_acc (w : Word) : (w1cStatus w s).acc = s.acc := rfl
@[simp] theorem w1cStatus_accN (w : Word) : (w1cStatus w s).accN = s.accN := rfl
@[simp] theorem w1cStatus_tables (w : Word) : (w1cStatus w s).tables = s.tables := rfl
@[simp] theorem w1cStatus_obuf (w : Word) : (w1cStatus w s).obuf = s.obuf := rfl
@[simp] theorem w1cStatus_ibuf (w : Word) : (w1cStatus w s).ibuf = s.ibuf := rfl
@[simp] theorem w1cStatus_agenda (w : Word) : (w1cStatus w s).agenda = s.agenda := rfl
@[simp] theorem w1cStatus_answer (w : Word) : (w1cStatus w s).answer = s.answer := rfl
@[simp] theorem w1cStatus_draws (w : Word) : (w1cStatus w s).draws = s.draws := rfl
@[simp] theorem w1cStatus_status_done (w : Word) : (w1cStatus w s).status.done = (s.status.done && !w.getLsbD 1) := rfl
@[simp] theorem w1cStatus_status_resValid (w : Word) : (w1cStatus w s).status.resValid = s.status.resValid := rfl
@[simp] theorem w1cStatus_status_eos (w : Word) : (w1cStatus w s).status.eos = s.status.eos := rfl
@[simp] theorem w1cStatus_status_encClosed (w : Word) : (w1cStatus w s).status.encClosed = s.status.encClosed := rfl
@[simp] theorem w1cStatus_status_errors (w : Word) : (w1cStatus w s).status.errors = s.status.errors &&& ~~~ w.extractLsb' 8 12 := rfl

@[simp] theorem complete_params (b : Bool) : (complete b s).params = s.params := rfl
@[simp] theorem complete_ctrl (b : Bool) : (complete b s).ctrl = s.ctrl := rfl
@[simp] theorem complete_pend (b : Bool) : (complete b s).pend = none := rfl
@[simp] theorem complete_data (b : Bool) : (complete b s).data = s.data := rfl
@[simp] theorem complete_result (b : Bool) : (complete b s).result = s.result := rfl
@[simp] theorem complete_bitcount (b : Bool) : (complete b s).bitcount = s.bitcount := rfl
@[simp] theorem complete_optr (b : Bool) : (complete b s).optr = s.optr := rfl
@[simp] theorem complete_bitlen (b : Bool) : (complete b s).bitlen = s.bitlen := rfl
@[simp] theorem complete_iptr (b : Bool) : (complete b s).iptr = s.iptr := rfl
@[simp] theorem complete_degenRemain (b : Bool) : (complete b s).degenRemain = s.degenRemain := rfl
@[simp] theorem complete_acc (b : Bool) : (complete b s).acc = s.acc := rfl
@[simp] theorem complete_accN (b : Bool) : (complete b s).accN = s.accN := rfl
@[simp] theorem complete_tables (b : Bool) : (complete b s).tables = s.tables := rfl
@[simp] theorem complete_obuf (b : Bool) : (complete b s).obuf = s.obuf := rfl
@[simp] theorem complete_ibuf (b : Bool) : (complete b s).ibuf = s.ibuf := rfl
@[simp] theorem complete_agenda (b : Bool) : (complete b s).agenda = s.agenda := rfl
@[simp] theorem complete_answer (b : Bool) : (complete b s).answer = s.answer := rfl
@[simp] theorem complete_draws (b : Bool) : (complete b s).draws = s.draws := rfl
@[simp] theorem complete_status_done (b : Bool) : (complete b s).status.done = true := rfl
@[simp] theorem complete_status_resValid (b : Bool) : (complete b s).status.resValid = b := rfl
@[simp] theorem complete_status_eos (b : Bool) : (complete b s).status.eos = s.status.eos := rfl
@[simp] theorem complete_status_encClosed (b : Bool) : (complete b s).status.encClosed = s.status.encClosed := rfl
@[simp] theorem complete_status_errors (b : Bool) : (complete b s).status.errors = s.status.errors := rfl

@[simp] theorem raiseErr_params (e : ErrFlag) : (raiseErr e s).params = s.params := rfl
@[simp] theorem raiseErr_ctrl (e : ErrFlag) : (raiseErr e s).ctrl = s.ctrl := rfl
@[simp] theorem raiseErr_pend (e : ErrFlag) : (raiseErr e s).pend = none := rfl
@[simp] theorem raiseErr_data (e : ErrFlag) : (raiseErr e s).data = s.data := rfl
@[simp] theorem raiseErr_result (e : ErrFlag) : (raiseErr e s).result = s.result := rfl
@[simp] theorem raiseErr_bitcount (e : ErrFlag) : (raiseErr e s).bitcount = s.bitcount := rfl
@[simp] theorem raiseErr_optr (e : ErrFlag) : (raiseErr e s).optr = s.optr := rfl
@[simp] theorem raiseErr_bitlen (e : ErrFlag) : (raiseErr e s).bitlen = s.bitlen := rfl
@[simp] theorem raiseErr_iptr (e : ErrFlag) : (raiseErr e s).iptr = s.iptr := rfl
@[simp] theorem raiseErr_degenRemain (e : ErrFlag) : (raiseErr e s).degenRemain = s.degenRemain := rfl
@[simp] theorem raiseErr_acc (e : ErrFlag) : (raiseErr e s).acc = s.acc := rfl
@[simp] theorem raiseErr_accN (e : ErrFlag) : (raiseErr e s).accN = s.accN := rfl
@[simp] theorem raiseErr_tables (e : ErrFlag) : (raiseErr e s).tables = s.tables := rfl
@[simp] theorem raiseErr_obuf (e : ErrFlag) : (raiseErr e s).obuf = s.obuf := rfl
@[simp] theorem raiseErr_ibuf (e : ErrFlag) : (raiseErr e s).ibuf = s.ibuf := rfl
@[simp] theorem raiseErr_agenda (e : ErrFlag) : (raiseErr e s).agenda = s.agenda := rfl
@[simp] theorem raiseErr_answer (e : ErrFlag) : (raiseErr e s).answer = s.answer := rfl
@[simp] theorem raiseErr_draws (e : ErrFlag) : (raiseErr e s).draws = s.draws := rfl
@[simp] theorem raiseErr_status_done (e : ErrFlag) : (raiseErr e s).status.done = true := rfl
@[simp] theorem raiseErr_status_resValid (e : ErrFlag) : (raiseErr e s).status.resValid = false := rfl
@[simp] theorem raiseErr_status_eos (e : ErrFlag) : (raiseErr e s).status.eos = s.status.eos := rfl
@[simp] theorem raiseErr_status_encClosed (e : ErrFlag) : (raiseErr e s).status.encClosed = s.status.encClosed := rfl
@[simp] theorem raiseErr_status_errors (e : ErrFlag) : (raiseErr e s).status.errors = s.status.errors ||| errMask e := rfl

@[simp] theorem withDraws_params (d : Nat) : (withDraws d s).params = s.params := rfl
@[simp] theorem withDraws_ctrl (d : Nat) : (withDraws d s).ctrl = s.ctrl := rfl
@[simp] theorem withDraws_status (d : Nat) : (withDraws d s).status = s.status := rfl
@[simp] theorem withDraws_pend (d : Nat) : (withDraws d s).pend = s.pend := rfl
@[simp] theorem withDraws_data (d : Nat) : (withDraws d s).data = s.data := rfl
@[simp] theorem withDraws_result (d : Nat) : (withDraws d s).result = s.result := rfl
@[simp] theorem withDraws_bitcount (d : Nat) : (withDraws d s).bitcount = s.bitcount := rfl
@[simp] theorem withDraws_optr (d : Nat) : (withDraws d s).optr = s.optr := rfl
@[simp] theorem withDraws_bitlen (d : Nat) : (withDraws d s).bitlen = s.bitlen := rfl
@[simp] theorem withDraws_iptr (d : Nat) : (withDraws d s).iptr = s.iptr := rfl
@[simp] theorem withDraws_degenRemain (d : Nat) : (withDraws d s).degenRemain = s.degenRemain := rfl
@[simp] theorem withDraws_acc (d : Nat) : (withDraws d s).acc = s.acc := rfl
@[simp] theorem withDraws_accN (d : Nat) : (withDraws d s).accN = s.accN := rfl
@[simp] theorem withDraws_tables (d : Nat) : (withDraws d s).tables = s.tables := rfl
@[simp] theorem withDraws_obuf (d : Nat) : (withDraws d s).obuf = s.obuf := rfl
@[simp] theorem withDraws_ibuf (d : Nat) : (withDraws d s).ibuf = s.ibuf := rfl
@[simp] theorem withDraws_agenda (d : Nat) : (withDraws d s).agenda = s.agenda := rfl
@[simp] theorem withDraws_answer (d : Nat) : (withDraws d s).answer = s.answer := rfl
@[simp] theorem withDraws_draws (d : Nat) : (withDraws d s).draws = d := rfl

@[simp] theorem withPacker_params (p : Packer) : (withPacker p s).params = s.params := rfl
@[simp] theorem withPacker_ctrl (p : Packer) : (withPacker p s).ctrl = s.ctrl := rfl
@[simp] theorem withPacker_status (p : Packer) : (withPacker p s).status = s.status := rfl
@[simp] theorem withPacker_pend (p : Packer) : (withPacker p s).pend = s.pend := rfl
@[simp] theorem withPacker_data (p : Packer) : (withPacker p s).data = s.data := rfl
@[simp] theorem withPacker_result (p : Packer) : (withPacker p s).result = s.result := rfl
@[simp] theorem withPacker_bitcount (p : Packer) : (withPacker p s).bitcount = s.bitcount := rfl
@[simp] theorem withPacker_optr (p : Packer) : (withPacker p s).optr = p.optr := rfl
@[simp] theorem withPacker_bitlen (p : Packer) : (withPacker p s).bitlen = s.bitlen := rfl
@[simp] theorem withPacker_iptr (p : Packer) : (withPacker p s).iptr = s.iptr := rfl
@[simp] theorem withPacker_degenRemain (p : Packer) : (withPacker p s).degenRemain = s.degenRemain := rfl
@[simp] theorem withPacker_acc (p : Packer) : (withPacker p s).acc = p.acc := rfl
@[simp] theorem withPacker_accN (p : Packer) : (withPacker p s).accN = p.accN := rfl
@[simp] theorem withPacker_tables (p : Packer) : (withPacker p s).tables = s.tables := rfl
@[simp] theorem withPacker_obuf (p : Packer) : (withPacker p s).obuf = p.obuf := rfl
@[simp] theorem withPacker_ibuf (p : Packer) : (withPacker p s).ibuf = s.ibuf := rfl
@[simp] theorem withPacker_agenda (p : Packer) : (withPacker p s).agenda = s.agenda := rfl
@[simp] theorem withPacker_answer (p : Packer) : (withPacker p s).answer = s.answer := rfl
@[simp] theorem withPacker_draws (p : Packer) : (withPacker p s).draws = s.draws := rfl

@[simp] theorem hardReset_params : (hardReset s).params = s.params := rfl
@[simp] theorem hardReset_pend : (hardReset s).pend = none := rfl
@[simp] theorem hardReset_tables : (hardReset s).tables = resetTables s.params := rfl
@[simp] theorem hardReset_obuf : (hardReset s).obuf = [] := rfl
@[simp] theorem hardReset_ibuf : (hardReset s).ibuf = [] := rfl
@[simp] theorem hardReset_agenda : (hardReset s).agenda = s.agenda := rfl
@[simp] theorem hardReset_draws : (hardReset s).draws = s.draws := rfl

/-- Counting no draw changes nothing. -/
@[simp] theorem withDraws_self : withDraws s.draws s = s := rfl

end Sys2Proof.Machine
end

