-- ==== Sys2Proof/Laws/Step.lean ====
section
/-! SUPPORT. What one step can do: the inversion lemma of `step`, and the stretch of host turns before an engine's turn. -/

namespace Sys2Proof.Machine

/-- Everything a step can be: a transaction, a reset, an idle turn, an illegal word, or a command. -/
theorem step_cases {s t : State} (h : step s = .next t) :
    (∃ a rest, s.agenda = .busRead a :: rest ∧ t = busRead a { s with agenda := rest }) ∨
    (∃ a w rest, s.agenda = .busWrite a w :: rest ∧ t = busWrite a w { s with agenda := rest }) ∨
    (∃ rest, s.agenda = .hardReset :: rest ∧ t = hardReset { s with agenda := rest }) ∨
    (∃ rest, (s.agenda = .engine :: rest ∨ (s.agenda = [] ∧ rest = [])) ∧
      ((s.pend = none ∧ t = { s with agenda := rest }) ∨
       (∃ w e, s.pend = some w ∧ decode s.params w = .error e ∧ t = raiseErr .illegal { s with agenda := rest }) ∨
       (∃ w i, s.pend = some w ∧ decode s.params w = .ok i ∧ exec i { s with agenda := rest } = .next t))) := by
  have engine : ∀ rest, engineTurn { s with agenda := rest } = .next t →
      ((s.pend = none ∧ t = { s with agenda := rest }) ∨
       (∃ w e, s.pend = some w ∧ decode s.params w = .error e ∧ t = raiseErr .illegal { s with agenda := rest }) ∨
       (∃ w i, s.pend = some w ∧ decode s.params w = .ok i ∧ exec i { s with agenda := rest } = .next t)) := by
    intro rest h
    unfold engineTurn at h
    split at h
    · rename_i hp
      exact .inl ⟨hp, by injection h with h; exact h.symm⟩
    · rename_i w hp
      unfold engineStep at h
      split at h
      · rename_i e he
        exact .inr (.inl ⟨w, e, hp, he, by injection h with h; exact h.symm⟩)
      · rename_i i hi
        exact .inr (.inr ⟨w, i, hp, hi, h⟩)
  unfold step at h
  split at h
  · rename_i ha
    refine .inr (.inr (.inr ⟨[], .inr ⟨ha, rfl⟩, engine [] ?_⟩))
    rw [← ha]; exact h
  · rename_i rest ha
    exact .inr (.inr (.inr ⟨rest, .inl ha, engine rest h⟩))
  · rename_i a rest ha
    exact .inl ⟨a, rest, ha, by injection h with h; exact h.symm⟩
  · rename_i a w rest ha
    exact .inr (.inl ⟨a, w, rest, ha, by injection h with h; exact h.symm⟩)
  · rename_i rest ha
    exact .inr (.inr (.inl ⟨rest, ha, by injection h with h; exact h.symm⟩))

end Sys2Proof.Machine
end

