-- ==== Sys2Proof/Laws/Strings.lean ====
section
/-! SUPPORT. Bit strings as numbers and as bytes (spec/00_scope.md R10, spec/41_encode.md R126): the small facts that the
laws of the two families rest on. -/

namespace Sys2Proof.Machine

theorem bitsValue_append (a b : List Bool) : bitsValue (a ++ b) = bitsValue a * 2 ^ b.length + bitsValue b := by
  have h : ∀ (b : List Bool) v, b.foldl (fun v b => 2 * v + b.toNat) v = v * 2 ^ b.length + bitsValue b := by
    intro b
    induction b with
    | nil => intro v; simp [bitsValue]
    | cons x b ih =>
      intro v
      simp only [bitsValue, List.foldl_cons, List.length_cons]
      rw [ih, ih (2 * 0 + x.toNat)]
      ring
  rw [bitsValue, List.foldl_append, h]
  rfl

theorem bitsValue_lt (a : List Bool) : bitsValue a < 2 ^ a.length := by
  induction a using List.reverseRecOn with
  | nil => simp [bitsValue]
  | append_singleton a x ih =>
    rw [bitsValue_append, List.length_append, pow_add]
    have e : bitsValue [x] = x.toNat := by simp [bitsValue]
    have := Bool.toNat_le x
    simp only [List.length_singleton, pow_one, e]
    omega

theorem bitsValue_byteBits (x : Byte) : bitsValue (byteBits x) = x.toNat := by
  revert x; decide

/-- Eight bits make the byte that expands to them. -/
theorem byteBits_bitsValue (l : List Bool) (hl : l.length = 8) : byteBits (BitVec.ofNat 8 (bitsValue l)) = l := by
  match l, hl with
  | [a, b, c, d, e, f, g, h], _ => revert a b c d e f g h; decide

theorem padBits_append (x : Byte) (bs : List Bool) : padBits (byteBits x ++ bs) = byteBits x ++ padBits bs := by
  simp [padBits, length_byteBits]

/-- A whole byte at the front of a bit string is the first packed byte. -/
theorem packBytes_cons (x : Byte) (bs : List Bool) : packBytes (byteBits x ++ bs) = x :: packBytes bs := by
  unfold packBytes
  rw [padBits_append]
  have h : (byteBits x ++ padBits bs).length / 8 = (padBits bs).length / 8 + 1 := by simp [length_byteBits]
  rw [h, List.range_succ_eq_map, List.map_cons, List.map_map]
  congr 1
  have : List.take 8 (byteBits x ++ padBits bs) = byteBits x := by
    rw [List.take_append_of_le_length (by simp [length_byteBits])]
    rfl
  simp only [Nat.mul_zero, List.drop_zero, this, bitsValue_byteBits]
  simp

theorem packBytes_flatMap (bytes : List Byte) (bs : List Bool) :
    packBytes (bytes.flatMap byteBits ++ bs) = bytes ++ packBytes bs := by
  induction bytes with
  | nil => rfl
  | cons b bytes ih => rw [List.flatMap_cons, List.append_assoc, packBytes_cons, ih]; rfl

/-- The pending bits of an accumulator whose other bits are 0 pad to that accumulator. -/
theorem packBytes_pending (x : Byte) (n : Nat) (hn : 1 ≤ n) (hn8 : n < 8) (h : x.toNat % 2 ^ (8 - n) = 0) :
    packBytes ((byteBits x).take n) = [x] := by
  have h' : n = 1 ∨ n = 2 ∨ n = 3 ∨ n = 4 ∨ n = 5 ∨ n = 6 ∨ n = 7 := by omega
  rcases h' with rfl | rfl | rfl | rfl | rfl | rfl | rfl <;> revert x <;> decide

/-- The bits of the word a string spells are the string, up to 32 bits. -/
theorem bitsOf_bitsValue (bs : List Bool) (h : bs.length ≤ 32) :
    bitsOf (BitVec.ofNat 32 (bitsValue bs)) bs.length = bs := by
  have key : ∀ (bs : List Bool) (v : Nat), bs.length ≤ 32 →
      bitsOf (BitVec.ofNat 32 (v * 2 ^ bs.length + bitsValue bs)) bs.length = bs := by
    intro bs
    induction bs with
    | nil => intro v _; rfl
    | cons b bs ih =>
      intro v hl
      simp only [List.length_cons] at hl
      have hlt := bitsValue_lt bs
      have e : bitsValue (b :: bs) = b.toNat * 2 ^ bs.length + bitsValue bs := by
        have := bitsValue_append [b] bs
        simpa [bitsValue] using this
      have e2 : v * 2 ^ (b :: bs).length + bitsValue (b :: bs) = (2 * v + b.toNat) * 2 ^ bs.length + bitsValue bs := by
        rw [e, List.length_cons, pow_succ]
        ring
      rw [e2, List.length_cons, bitsOf]
      congr 1
      · rw [BitVec.getLsbD_ofNat]
        simp only [show bs.length < 32 by omega, decide_true, Bool.true_and]
        rw [Nat.testBit_eq_decide_div_mod_eq]
        have : ((2 * v + b.toNat) * 2 ^ bs.length + bitsValue bs) / 2 ^ bs.length = 2 * v + b.toNat := by
          rw [Nat.add_comm, Nat.add_mul_div_right _ _ (Nat.two_pow_pos _), Nat.div_eq_of_lt hlt, Nat.zero_add]
        rw [this]
        cases b <;> simp
      · exact ih _ (by omega)
  simpa using key bs 0 h

end Sys2Proof.Machine
end

