-- ==== Sys2Proof/Laws/Trees.lean ====
section
/-! SUPPORT. Trees and their images (spec/40_table_generation.md R104 to R113): the codes below a node, the slots a tree
occupies, and what the decode walk of spec/42_decode.md R142 does over a loaded tree. -/

namespace Sys2Proof.Machine

/-- The codes below a node reached by `path` are the codes below it, with `path` in front. -/
theorem walkCodes_path (t : Tree) (path : List Bool) :
    walkCodes t path = (walkCodes t []).map (fun c => (c.1, path ++ c.2)) := by
  induction t generalizing path with
  | leaf s w => simp [walkCodes]
  | node l r w ihl ihr =>
    simp only [walkCodes, List.map_append]
    rw [ihl, ihr, ihl ([] ++ [false]), ihr ([] ++ [true])]
    simp [Function.comp_def]

/-- The codes of an Internal node: '0' before those of its left child, '1' before those of its right child (R106). -/
theorem mem_walkCodes_node (l r : Tree) (w sym : Nat) (code : List Bool) :
    (sym, code) ∈ walkCodes (.node l r w) [] ↔
      (∃ c, (sym, c) ∈ walkCodes l [] ∧ code = false :: c) ∨ (∃ c, (sym, c) ∈ walkCodes r [] ∧ code = true :: c) := by
  simp only [walkCodes, List.mem_append]
  rw [walkCodes_path l ([] ++ [false]), walkCodes_path r ([] ++ [true])]
  simp [eq_comm]

theorem walkCodes_symbols (t : Tree) (path : List Bool) : (walkCodes t path).map Prod.fst = treeSymbols t := by
  induction t generalizing path with
  | leaf => rfl
  | node l r w ihl ihr => simp [walkCodes, treeSymbols, ihl, ihr]

theorem assignCodes_symbols (t : Tree) : (assignCodes t).map Prod.fst = treeSymbols t := by
  cases t with
  | leaf => rfl
  | node l r w => exact walkCodes_symbols _ _

/-- A tree has one leaf more than Internal nodes. -/
theorem length_treeSymbols (t : Tree) : (treeSymbols t).length = internalNodes t + 1 := by
  induction t with
  | leaf => rfl
  | node l r w ihl ihr => simp [treeSymbols, internalNodes, ihl, ihr]; omega

/-- The slots of a tree numbered from `j` on lie in `j .. j + internalNodes - 1`. -/
theorem dtSlots_range (t : Tree) (j : Nat) : ∀ x ∈ dtSlots t j, j ≤ x.1 ∧ x.1 < j + internalNodes t := by
  induction t generalizing j with
  | leaf => simp [dtSlots]
  | node l r w ihl ihr =>
    intro x hx
    simp only [dtSlots, List.mem_cons, List.mem_append] at hx
    simp only [internalNodes]
    rcases hx with rfl | hx | hx
    · simp
    · have := ihl (j + 1) x hx; omega
    · have := ihr (j + 1 + internalNodes l) x hx; omega

/-- Where the walk stands once it has reached the child `m`, whose index is `k` if it is Internal. -/
def atChild (s : State) (m : Tree) (k left p d : Nat) : Except ErrFlag (BitVec 16 × Nat) × Nat :=
  match m with
  | .leaf x _   => (.ok (BitVec.ofNat 16 x, p), d)
  | .node _ _ _ => walk s left k p d

/-- One pass of R142's loop at a loaded node. -/
theorem walk_pass {s : State} {b : Bool} {m : Tree} {left j p d k : Nat} (hj : j < s.params.dtNodes)
    (hN : s.params.alphabet ≤ 65536) (hb : inBit s.ibuf p d = (b, d)) (hc : readChild s b j d = (childDesc m k, d))
    (hs : ∀ x ∈ treeSymbols m, x < s.params.alphabet) (hk : internalNodes m ≠ 0 → k < 65536) :
    walk s (left + 1) j p d = atChild s m k left (p + 1) d := by
  unfold walk
  rw [if_neg (by omega), hb]
  simp only [hc]
  cases m with
  | leaf x w =>
    have := hs x (by simp [treeSymbols])
    simp [childDesc, atChild, Nat.mod_eq_of_lt (show x < 65536 by omega), this]
  | node l r w =>
    have hk := hk (by simp [internalNodes])
    simp [childDesc, atChild, Nat.mod_eq_of_lt hk]

/-- Everything the walk does over a loaded tree numbered from `j` on: a code at the front of the bits left is consumed and
its symbol emitted, and where no code is at the front the bits have run out. -/
theorem walk_tree {s : State} {bytes : List Byte} (hh : ibufHolds s bytes) (hlen : s.bitlen.toNat ≤ 8 * bytes.length)
    (hN : s.params.alphabet ≤ 65536) (t : Tree) (j : Nat)
    (hsl : ∀ x ∈ dtSlots t j, Memory.read? s.tables.dtLeft x.1 = some x.2.1 ∧
      Memory.read? s.tables.dtRight x.1 = some x.2.2)
    (hj : j + internalNodes t ≤ s.params.dtNodes) (hsym : ∀ x ∈ treeSymbols t, x < s.params.alphabet) (p d : Nat)
    (hp : p ≤ s.bitlen.toNat) :
    (∀ sym code, (sym, code) ∈ walkCodes t [] → code <+: (unpackBits bytes s.bitlen.toNat).drop p →
      atChild s t j (s.bitlen.toNat - p) p d = (.ok (BitVec.ofNat 16 sym, p + code.length), d)) ∧
    ((∀ sym code, (sym, code) ∈ walkCodes t [] → ¬ code <+: (unpackBits bytes s.bitlen.toNat).drop p) →
      atChild s t j (s.bitlen.toNat - p) p d = (.error .malformed, d)) := by
  have hdt : s.params.dtNodes = s.params.alphabet - 1 := rfl
  induction t generalizing j p d with
  | leaf x w =>
    constructor
    · intro sym code hm _
      simp only [walkCodes, List.mem_singleton, Prod.mk.injEq] at hm
      obtain ⟨rfl, rfl⟩ := hm
      rfl
    · intro h
      exact absurd List.nil_prefix (h x [] (by simp [walkCodes]))
  | node l r w ihl ihr =>
    simp only [internalNodes] at hj
    have hj' : j < s.params.dtNodes := by omega
    have hU : (unpackBits bytes s.bitlen.toNat).length = s.bitlen.toNat := length_unpackBits _ _ hlen
    rcases Nat.eq_or_lt_of_le hp with heq | hlt
    · have hnil : (unpackBits bytes s.bitlen.toNat).drop p = [] := by apply List.drop_eq_nil_of_le; omega
      constructor
      · intro sym code hm hpre
        rw [hnil, List.prefix_nil] at hpre
        rcases (mem_walkCodes_node _ _ _ _ _).1 hm with ⟨c, _, h⟩ | ⟨c, _, h⟩ <;> simp [hpre] at h
      · intro _
        show walk s (s.bitlen.toNat - p) j p d = _
        rw [show s.bitlen.toNat - p = 0 by omega]
        unfold walk
        rw [if_neg (by omega)]
    · obtain ⟨b, hb, hin⟩ := inBit_of_holds (d := d) hh hlen hlt
      have hcons : (unpackBits bytes s.bitlen.toNat).drop p = b :: (unpackBits bytes s.bitlen.toNat).drop (p + 1) := by
        rw [List.drop_eq_getElem_cons (by omega)]
        congr 1
        rw [List.getElem?_eq_getElem (by omega)] at hb
        simpa using hb
      obtain ⟨h1, h2⟩ := hsl (j, childDesc l (j + 1), childDesc r (j + 1 + internalNodes l)) (by simp [dtSlots])
      have e : s.bitlen.toNat - p = (s.bitlen.toNat - (p + 1)) + 1 := by omega
      rw [hcons]
      cases b with
      | false =>
        have hgo : atChild s (.node l r w) j (s.bitlen.toNat - p) p d =
            atChild s l (j + 1) (s.bitlen.toNat - (p + 1)) (p + 1) d := by
          rw [e]
          exact walk_pass hj' hN hin (readCell_written h1) (fun x hx => hsym x (by simp [treeSymbols, hx]))
            (fun h => by omega)
        have ih := ihl (j + 1) (fun x hx => hsl x (by simp [dtSlots, hx])) (by omega)
          (fun x hx => hsym x (by simp [treeSymbols, hx])) (p + 1) d hlt
        rw [hgo]
        constructor
        · intro sym code hm hpre
          rcases (mem_walkCodes_node _ _ _ _ _).1 hm with ⟨c, hc, rfl⟩ | ⟨c, hc, rfl⟩
          · rw [List.length_cons, show p + (c.length + 1) = p + 1 + c.length by omega]
            exact ih.1 sym c hc (by simpa [List.cons_prefix_cons] using hpre)
          · simp [List.cons_prefix_cons] at hpre
        · intro hno
          exact ih.2 fun sym c hc hpre => hno sym (false :: c) ((mem_walkCodes_node _ _ _ _ _).2 (.inl ⟨c, hc, rfl⟩))
            (by simpa [List.cons_prefix_cons] using hpre)
      | true =>
        have hgo : atChild s (.node l r w) j (s.bitlen.toNat - p) p d =
            atChild s r (j + 1 + internalNodes l) (s.bitlen.toNat - (p + 1)) (p + 1) d := by
          rw [e]
          exact walk_pass hj' hN hin (readCell_written h2) (fun x hx => hsym x (by simp [treeSymbols, hx]))
            (fun h => by omega)
        have ih := ihr (j + 1 + internalNodes l) (fun x hx => hsl x (by simp [dtSlots, hx])) (by omega)
          (fun x hx => hsym x (by simp [treeSymbols, hx])) (p + 1) d hlt
        rw [hgo]
        constructor
        · intro sym code hm hpre
          rcases (mem_walkCodes_node _ _ _ _ _).1 hm with ⟨c, hc, rfl⟩ | ⟨c, hc, rfl⟩
          · simp [List.cons_prefix_cons] at hpre
          · rw [List.length_cons, show p + (c.length + 1) = p + 1 + c.length by omega]
            exact ih.1 sym c hc (by simpa [List.cons_prefix_cons] using hpre)
        · intro hno
          exact ih.2 fun sym c hc hpre => hno sym (true :: c) ((mem_walkCodes_node _ _ _ _ _).2 (.inr ⟨c, hc, rfl⟩))
            (by simpa [List.cons_prefix_cons] using hpre)

/-- The first of some bits that stand at `p` in the input stream: reading bit `p` gives it, and the others stand at `p + 1`. -/
theorem inBit_of_prefix {s : State} {bytes : List Byte} {p : Nat} {b : Bool} {rest : List Bool} (d : Nat)
    (hh : ibufHolds s bytes) (hlen : s.bitlen.toNat ≤ 8 * bytes.length)
    (h : (b :: rest) <+: (unpackBits bytes s.bitlen.toNat).drop p) :
    p < s.bitlen.toNat ∧ inBit s.ibuf p d = (b, d) ∧ rest <+: (unpackBits bytes s.bitlen.toNat).drop (p+1) := by
  have hU : (unpackBits bytes s.bitlen.toNat).length = s.bitlen.toNat := length_unpackBits _ _ hlen
  have hl := h.length_le
  rw [List.length_drop, hU] at hl
  simp at hl
  have hlt : p < s.bitlen.toNat := by omega
  obtain ⟨b', hb, hin⟩ := inBit_of_holds (d := d) hh hlen hlt
  have hcons : (unpackBits bytes s.bitlen.toNat).drop p = b' :: (unpackBits bytes s.bitlen.toNat).drop (p + 1) := by
    rw [List.drop_eq_getElem_cons (by omega)]
    congr 1
    rw [List.getElem?_eq_getElem (by omega)] at hb
    simpa using hb
  rw [hcons, List.cons_prefix_cons] at h
  exact ⟨hlt, by rw [hin, h.1], h.2⟩

/-- The walk along written internal children (Obligations.DecSymFollowsTheDecodeTable). -/
theorem walk_follow {s : State} {bytes : List Byte} (hh : ibufHolds s bytes) (hlen : s.bitlen.toNat ≤ 8 * bytes.length)
   (path : List Bool) (start node p d : Nat) (hpre : path <+: (unpackBits bytes s.bitlen.toNat).drop p)
   (hf : follow s path start = some node) :
   walk s (s.bitlen.toNat - p) start p d = walk s (s.bitlen.toNat - (p + path.length)) node (p + path.length) d := by
  induction path generalizing start p with
  | nil => simp [follow] at hf; simp [hf]
  | cons b bs ih =>
    obtain ⟨hlt, hin, hr⟩ := inBit_of_prefix d hh hlen hpre
    simp only [follow] at hf
    split at hf
    · rename_i hn
      split at hf
      · rename_i c hc
        split at hf
        · simp at hf
        · rename_i hl
          rw [show s.bitlen.toNat - p = (s.bitlen.toNat - (p+1)) + 1 by omega]
          conv_lhs => unfold walk
          rw [if_neg (by omega), hin]
          have hcell : readChild s b start d = (c, d) := readCell_written hc
          simp only [hcell, hl]
          rw [List.length_cons, show p + (bs.length + 1) = p + 1 + bs.length by omega]
          exact ih c.val.toNat (p+1) hr hf
      · simp at hf
    · simp at hf

end Sys2Proof.Machine
end

