-- ==== Sys2Proof/Tests/Slice0.lean ====
section
/-! SUPPORT. The model's own tests: the ill-formed commands, decoding of words written out from spec/30_encoding.md R80 to
R87, one step at a time of the vectors of spec/95_test_vectors.md (its ids in the comments), and for every statement with
hypotheses concrete states and operands that meet them. -/

namespace Sys2Proof.Tests

open Sys2Proof Sys2Proof.Machine

/-! ### Helpers -/

/-- The state a command answers. -/
def after (i : Instr) (s : State) : State :=
  match exec i s with
  | .next t => t
  | _       => s

def answersNext (o : Host.Outcome State Fault Refusal) : Bool :=
  match o with
  | .next _ => true
  | _       => false

theorem next_after {i : Instr} {s : State} (h : answersNext (exec i s) = true) : exec i s = .next (after i s) := by
  unfold after
  cases hx : exec i s <;> simp_all [answersNext]

theorem some_getD {α : Type} {x : Option α} (d : α) (h : x.isSome = true) : x = some (x.getD d) := by
  cases x <;> simp_all

/-- One step of the machine. -/
def afterStep (s : State) : State :=
  match step s with
  | .next t => t
  | _       => s

/-- The host writes the word `w` at `a`, one step. -/
def written (a : Addr) (w : Word) (s : State) : State := afterStep { s with agenda := [.busWrite a w] }

/-- The host reads the word at `a`, one step. -/
def read (a : Addr) (s : State) : State := afterStep { s with agenda := [.busRead a] }

/-- The engine runs the command word `w`, one step. -/
def engineRuns (w : Word) (s : State) : State := afterStep { s with pend := some w, agenda := [.engine] }

/-- The tree of "ab" (spec/95_test_vectors.md 2.6). -/
def treeAb : Tree := .node (.leaf 0x61 1) (.leaf 0x62 1) 2

/-- The tree of "aaaa bbbb cccc\n" (spec/95_test_vectors.md 1.1). -/
def treeT15 : Tree :=
  .node (.node (.node (.leaf 0x0A 1) (.leaf 0x20 2) 3) (.leaf 0x61 4) 7) (.node (.leaf 0x62 4) (.leaf 0x63 4) 8) 15

/-- Reset with the tables of "ab" loaded. -/
def withAb : State := { State.reset with tables := treeImage treeAb }

/-- Reset with T15 loaded. -/
def withT15 : State := { State.reset with tables := treeImage treeT15 }

/-- A build with buffers of 4 bytes, the tables of "ab" loaded. -/
def tiny : State :=
  { State.resetOf { Params.standard with obufSize := 4, ibufSize := 4 } with tables := treeImage treeAb }

/-- A build whose tables are fixed (R49). -/
def romBuild : Params := { Params.standard with tablesWritable := false, romImage := treeImage treeAb }

/-- The payload of section 1.1 in IBUF, BITLEN = 33. -/
def withP15 : State :=
  { withT15 with ibuf := [(0, 0x55), (1, 0x35), (2, 0x47), (3, 0xFC), (4, 0x00)], bitlen := 33 }

/-! ### Well-formedness: one ill-formed command for each check -/

theorem test_wf_refuses_no_bits_put : (Instr.putBits 0).wf Params.standard = false := by decide
theorem test_wf_refuses_33_bits_put : (Instr.putBits 33).wf Params.standard = false := by decide
theorem test_wf_refuses_no_bits_get : (Instr.getBits 0).wf Params.standard = false := by decide
theorem test_wf_refuses_33_bits_get : (Instr.getBits 33).wf Params.standard = false := by decide
theorem test_wf_refuses_symbol_256 : (Instr.encSym 256).wf Params.standard = false := by decide
theorem test_wf_accepts_the_bounds :
    ([Instr.nop, .encInit, .putBits 1, .putBits 32, .encSym 0, .encSym 255, .flush, .decInit, .getBits 1, .getBits 32,
      .decSym, .softReset].all (fun i => i.wf Params.standard)) = true := by decide

/-! ### Decoding: words written out bit by bit, opcode nibble first (R80 to R84) -/

theorem test_decode_nop : decode Params.standard 0b0000_0000000000000000000000000000 = .ok .nop := by decide
theorem test_decode_encInit : decode Params.standard 0b0001_0000000000000000000000000000 = .ok .encInit := by decide
theorem test_decode_putBits_8 :
    decode Params.standard 0b0010_00000000000000000000000_00111 = .ok (.putBits 8) := by decide
theorem test_decode_encSym_a :
    decode Params.standard 0b0011_000000000000_0000000001100001 = .ok (.encSym 0x61) := by decide
theorem test_decode_flush : decode Params.standard 0b0100_0000000000000000000000000000 = .ok .flush := by decide
theorem test_decode_decInit : decode Params.standard 0b0101_0000000000000000000000000000 = .ok .decInit := by decide
theorem test_decode_getBits_32 :
    decode Params.standard 0b0110_00000000000000000000000_11111 = .ok (.getBits 32) := by decide
theorem test_decode_decSym : decode Params.standard 0b0111_0000000000000000000000000000 = .ok .decSym := by decide
theorem test_decode_softReset : decode Params.standard 0b1000_0000000000000000000000000000 = .ok .softReset := by decide
theorem test_decode_symbol_65535_in_a_wide_build :
    decode { Params.standard with symW := 16 } 0b0011_000000000000_1111111111111111 = .ok (.encSym 65535) := by decide
theorem test_decode_refuses_a_bit_in_nop : decode Params.standard 0x00000001 = .error .mustBeZero := by decide
theorem test_decode_refuses_bit_5_in_putBits : decode Params.standard 0x20000020 = .error .mustBeZero := by decide
theorem test_decode_refuses_bit_16_in_encSym : decode Params.standard 0x30010061 = .error .mustBeZero := by decide
theorem test_decode_refuses_symbol_256 : decode Params.standard 0x30000100 = .error .symbolRange := by decide
theorem test_decode_refuses_opcode_9 : decode Params.standard 0x90000000 = .error .reservedOpcode := by decide
theorem test_decode_refuses_opcode_15 : decode Params.standard 0xF0000000 = .error .reservedOpcode := by decide

/-- The words of R92's table of mnemonics, as spec/95_test_vectors.md writes them. -/
theorem test_encode_words :
    [Instr.encInit, .putBits 3, .putBits 32, .encSym 0x7A, .flush, .decInit, .getBits 25, .decSym, .softReset].map encode =
      [0x10000000, 0x20000002, 0x2000001F, 0x3000007A, 0x40000000, 0x50000000, 0x60000018, 0x70000000, 0x80000000] := by
  decide

/-! ### The host's questions: a table word decodes and runs first after reset -/

theorem test_decodeTableWord : decodeTableWord 32 0x60000018 = some (.getBits 25) := by decide
theorem test_withFetchWord_runs_its_word :
    statusWord (afterStep (State.reset.withFetchWord 32 0x10000000)) = 0x00000002 := by decide
theorem test_withFetchWord_runs_an_illegal_word :
    statusWord (afterStep (State.reset.withFetchWord 32 0x90000000)) = 0x00000102 := by decide

/-! ### Commands, one step each -/

/-- K1. -/
theorem test_nop_clears_resValid :
    statusWord (engineRuns 0x00000000 { State.reset with status := { State.reset.status with done := true, resValid := true } })
      = 0x00000002 := by decide

/-- E1 after E3a: a closed stream is opened again. -/
theorem test_encInit_opens_the_stream :
    (let t := engineRuns 0x10000000
        { State.reset with optr := 1, bitcount := 3, status := { State.reset.status with encClosed := true } }
     (statusWord t, t.optr, t.bitcount, packStateWord t)) = (0x00000002, 0, 0, 0) := by decide

/-- E3. -/
theorem test_putBits_packs_the_low_bits :
    (let t := engineRuns 0x20000002 { State.reset with data := 0xFFFFFFF5 }
     (packStateWord t, t.bitcount, t.optr)) = (0x0000A003, 3, 0) := by decide

set_option maxRecDepth 4000 in
/-- E5a. -/
theorem test_putBits_crosses_bytes :
    (let t := engineRuns 0x2000001F { State.reset with acc := 0xFE, accN := 7, bitcount := 7 }
     (t.obuf, t.optr, packStateWord t, t.bitcount)) =
      ([(0, 0xFE), (1, 0x00), (2, 0x00), (3, 0x00)], 4, 0x00000007, 39) := by decide

/-- E10. -/
theorem test_encSym_falls_back_to_space :
    (let t := engineRuns 0x3000007A withT15
     (packStateWord t, t.bitcount, statusWord t)) = (0x00002003, 3, 0x00000402) := by decide

/-- E11. -/
theorem test_encSym_falls_back_to_the_least_symbol :
    (let t := engineRuns 0x3000007A { withT15 with ctrl := ctrlOfWord 0x007E0000 }
     (packStateWord t, t.bitcount, statusWord t)) = (0x00000003, 3, 0x00000402) := by decide

/-- E3a. -/
theorem test_flush_pads_and_closes :
    (let t := engineRuns 0x40000000 { State.reset with acc := 0xA0, accN := 3, bitcount := 3 }
     (t.obuf, t.optr, packStateWord t, t.bitcount, statusWord t)) = ([(0, 0xA0)], 1, 0, 3, 0x00000012) := by decide

/-- E6c. -/
theorem test_flush_overflows :
    (let t := engineRuns 0x40000000 { tiny with acc := 0x80, accN := 1, optr := 4, bitcount := 33 }
     (t.optr, packStateWord t, statusWord t)) = (4, 0x00008001, 0x00002002) := by decide

/-- U2. -/
theorem test_decInit_checks_bitlen :
    statusWord (engineRuns 0x50000000 { withT15 with bitlen := 32769 }) = 0x00010002 := by decide

/-- U3. -/
theorem test_decInit_of_a_leaf_root :
    (let t := engineRuns 0x50000000
        { State.reset with bitlen := 0xFFFFFFFF,
                           tables := { TableImage.empty with root := rootOfWord 0xC0000061, degenWeight := 4 } }
     (t.degenRemain, statusWord t)) = (4, 0x00000002) := by decide

/-- U4. -/
theorem test_getBits_reads_the_first_byte :
    (let t := engineRuns 0x60000007 withP15
     (t.result, t.iptr, statusWord t)) = (0x00000055, 8, 0x00000006) := by decide

/-- U4b's bits. -/
theorem test_getBits_reads_to_the_end :
    (let t := engineRuns 0x60000018 { withP15 with iptr := 8 }
     (t.result, t.iptr, statusWord t)) = (0x006A8FF8, 33, 0x00000006) := by decide

/-- U7b. -/
theorem test_decSym_walks_from_iptr :
    (let t := engineRuns 0x70000000 { withP15 with iptr := 5 }
     (t.result, t.iptr, statusWord t)) = (0x62, 7, 0x00000006) := by decide

/-- U12: the tree is a cycle. -/
theorem test_decSym_of_a_cycle_ends :
    (let t := engineRuns 0x70000000
        { State.reset with
          bitlen := 5, ibuf := [(0, 0)],
          tables := { TableImage.empty with root := rootOfWord 0x80000000,
                                            dtLeft := [(0, descOfWord 0)], dtRight := [(0, descOfWord 0)] } }
     (t.iptr, statusWord t)) = (0, 0x00000802) := by decide

/-- K2. -/
theorem test_softReset_clears_the_streams :
    (let t := engineRuns 0x80000000
        { withT15 with optr := 1, bitcount := 2, bitlen := 1,
                       status := { done := true, resValid := false, eos := false, encClosed := true, errors := 0x808 } }
     (statusWord t, t.optr, t.bitcount, t.bitlen, ctrlWord t.ctrl, rootWord t.tables.root)) =
      (0x00000002, 0, 0, 1, 0x00200000, 0x80000000) := by decide

/-- K3d: an illegal word runs nothing. -/
theorem test_illegal_softReset_resets_nothing :
    (let t := engineRuns 0x80000001 { State.reset with acc := 0xC0, accN := 2, bitcount := 2 }
     (statusWord t, packStateWord t, t.bitcount)) = (0x00000102, 0x0000C002, 2) := by decide

/-! ### The port, one transaction each -/

/-- B1. -/
theorem test_read_registers_after_reset :
    [0x000, 0x004, 0x008, 0x00C, 0x010].map (fun a => (read a State.reset).answer) =
      [some 0x48554631, some 0x00012008, some 0x0FFF0FFF, some 0x00200000, some 0] := by decide

/-- B2, B3, B8, B9. -/
theorem test_bad_reads :
    [0x002, 0x000040, 0x011000, 0x0807F8].map (fun a => ((read a State.reset).answer, statusWord (read a State.reset))) =
      List.replicate 4 (some 0, 0x00080000) := by decide

/-- B5, B5a, B5b: the internal STATUS. -/
theorem test_cmd_while_busy :
    (let b5 := written 0x014 0x10000000 State.reset
     let b5a := written 0x014 0x00000000 b5
     let b5b := written 0x018 5 b5a
     (statusWord b5, statusWord b5a, statusWord b5b, b5b.data)) = (0x00000001, 0x00020001, 0x00060001, 0) := by decide

/-- B6. -/
theorem test_status_write_clears_w1c_bits :
    statusWord (written 0x010 0xFFFFFFFF { State.reset with
      status := { done := true, resValid := true, eos := true, encClosed := true, errors := 0xFFF } }) = 0x0000001C := by
  decide

/-- B7, B7a. -/
theorem test_rom_writes_are_bad :
    ([(0x034, 0), (0x100308, 0)].map (fun x => statusWord (written x.1 x.2 (State.resetOf romBuild)))) =
      [0x00080000, 0x00080000] := by decide

/-- B10, B10a, B11. -/
theorem test_table_and_buffer_writes :
    ((read 0x1007FC (written 0x1007FC 5 State.reset)).answer, statusWord (written 0x100800 1 State.reset),
      (written 0x020001 1 State.reset).ibuf) = (some 5, 0x00080000, []) := by decide

/-- E4's read of OBUF (R60). -/
theorem test_read_obuf_lanes :
    (read 0x010000 { State.reset with obuf := [(0, 0xDE), (1, 0xAD), (2, 0xBE), (3, 0xEF)] }).answer = some 0xEFBEADDE := by
  decide

/-- I1, I1a. -/
theorem test_irq_of_done :
    (let t := engineRuns 0x00000000 { State.reset with ctrl := ctrlOfWord 0x00200002 }
     (statusWord t, irq t, irq (written 0x010 0x00000002 t))) = (0x00000002, true, false) := by decide

/-- `rst` in the middle of a command (R190). -/
theorem test_hardReset_loses_the_command :
    (let t := afterStep { withP15 with pend := some 0x50000000, agenda := [.hardReset] }
     (t.pend, statusWord t, t.bitlen, t.ibuf, rootWord t.tables.root)) = (none, 0, 0, [], 0) := by decide

/-! ### The host's reference functions (spec/95_test_vectors.md 1.1, 1.4, 2.6) -/

theorem test_tree_of_T15 :
    buildTree (buildFrequencies [97, 97, 97, 97, 32, 98, 98, 98, 98, 32, 99, 99, 99, 99, 10]) = some treeT15 := by decide

theorem test_slots_of_T15 :
    (dtSlots treeT15 0).map (fun x => (x.1, descWord x.2.1, descWord x.2.2)) =
      [(0, 0x00000001, 0x00000003), (1, 0x00000002, 0x80000061), (2, 0x8000000A, 0x80000020),
       (3, 0x80000062, 0x80000063)] := by decide

theorem test_pack_of_nine_bits : packBytes (List.replicate 8 false ++ [true]) = [0x00, 0x80] := by decide

theorem test_ct_image_writes :
    (ldcode 0x61 [false, true]) = [.busWrite 0x100308 0x80000002, .busWrite 0x10030C 0x00000001] := by decide

/-! ### Concrete states and operands for the hypotheses of the statements

One theorem a statement, named after it. Each line of a conjunction meets the hypotheses of one clause, at a boundary of its
range where it has one. -/

/-- Reset with a word in PEND and the given turns to come. -/
def pending (w : Word) (turns : List Turn) : State := { State.reset with pend := some w, agenda := turns }

/-- `tiny` with the stream at the given place. -/
def tinyAt (optr : Word) (accN : BitVec 3) : State := { tiny with optr := optr, accN := accN }

/-- `s` with its stream closed. -/
def closed (s : State) : State := { s with status := { s.status with encClosed := true } }

/-- A legal build of the largest alphabet and the smallest buffers. -/
def wide : Params := { Params.standard with symW := 16, obufSize := 4, ibufSize := 4 }

theorem test_hyp_EncodedCommandDecodesBack :
    Params.standard.legal ∧ wide.legal ∧
    [Instr.nop, .encInit, .putBits 1, .putBits 32, .encSym 0, .encSym 65535, .flush, .decInit, .getBits 1, .getBits 32,
      .decSym, .softReset].all (fun i => i.wf wide) = true := by decide

theorem test_hyp_DecodedWordIsTheEncodingOfItsCommand :
    decode wide 0x3000FFFF = .ok (.encSym 65535) ∧ decode wide 0x2000001F = .ok (.putBits 32) := by decide

theorem test_hyp_WordIsIllegalExactlyUnderTheThreeConditions :
    [0x00000001, 0x80000001, 0x20000020, 0x60000020, 0x30010000, 0x30000100, 0x90000000, 0xF0000000].map
        (decode (pending 0x90000000 []).params) =
      [.error .mustBeZero, .error .mustBeZero, .error .mustBeZero, .error .mustBeZero, .error .mustBeZero,
       .error .symbolRange, .error .reservedOpcode, .error .reservedOpcode] ∧
    (pending 0x90000000 []).agenda = [] ∧ (pending 0x90000000 []).pend = some 0x90000000 ∧
    (pending 0x90000000 [.engine]).agenda = .engine :: [] := by decide

theorem test_hyp_OpcodeMapDecidesTheCommand :
    ∀ r ∈ opcodeMap, r.selects r.pattern = true := by decide

theorem test_hyp_OperandFieldsAreReadAsWritten :
    decode Params.standard 0x20000000 = .ok (.putBits 1) ∧ decode Params.standard 0x6000001F = .ok (.getBits 32) ∧
    decode Params.standard 0x300000FF = .ok (.encSym 255) := by decide

theorem test_hyp_EngineStepRunsTheDecodedCommand :
    ((pending 0x10000000 []).pend = some 0x10000000 ∧ decode (pending 0x10000000 []).params 0x10000000 = .ok .encInit ∧
      (pending 0x10000000 []).agenda = []) ∧
    ((pending 0x10000000 [.engine, .hardReset]).pend = some 0x10000000 ∧
      (pending 0x10000000 [.engine, .hardReset]).agenda = .engine :: [.hardReset]) := by decide

theorem test_hyp_StepTakesTheNextTurn :
    { State.reset with agenda := [.busRead 0x010] }.agenda = .busRead 0x010 :: [] ∧
    { State.reset with agenda := [.busWrite 0x018 5] }.agenda = .busWrite 0x018 5 :: [] ∧
    { State.reset with agenda := [.hardReset] }.agenda = .hardReset :: [] ∧
    ({ State.reset with agenda := [.engine] }.agenda = .engine :: [] ∧ State.reset.pend = none) ∧
    (State.reset.agenda = [] ∧ State.reset.pend = none) := by decide

theorem test_hyp_AcceptedCommandCompletesAtTheEnginesTurn :
    (pending 0x10000000 [.busRead 0x010, .busWrite 0x014 0, .engine]).pend = some 0x10000000 ∧
    (pending 0x10000000 [.busRead 0x010, .busWrite 0x014 0, .engine]).agenda =
      [.busRead 0x010, .busWrite 0x014 0] ++ .engine :: [] ∧
    (∀ x ∈ [Turn.busRead 0x010, .busWrite 0x014 0], isHostTurn x = true) := by decide

theorem test_hyp_CommandCompletesOrSetsExactlyOneErrorBit :
    ∃ t, Instr.encSym 0x7A ≠ .softReset ∧ exec (.encSym 0x7A) withT15 = .next t :=
  ⟨_, by decide, next_after (by decide)⟩

theorem test_hyp_NoCommandWritesHostState : ∃ t, exec .decSym withP15 = .next t := ⟨_, next_after (by decide)⟩

theorem test_hyp_EncInitStartsAnEmptyStream :
    (0x10000000#32).toNat / 2 ^ 28 = 1 ∧ (0x1FFFFFFF#32).toNat / 2 ^ 28 = 1 ∧ (0x1FFFFFFF : Word) ≠ 0x10000000 := by decide

theorem test_hyp_PutBitsAppendsTheLowBitsOfData :
    ((0x20000020#32).toNat / 2 ^ 28 = 2 ∧ (0x20000020#32).toNat % 2 ^ 28 / 2 ^ 5 ≠ 0) ∧
    tiny.params.legal ∧ (closed tiny).status.encClosed = true ∧
    (∀ n ∈ [1, 32], 1 ≤ n ∧ n ≤ 32) ∧
    ((tinyAt 4 7).status.encClosed = false ∧ (tinyAt 4 7).optr.toNat + ((tinyAt 4 7).accN.toNat + 1) / 8 > 4) ∧
    ((tinyAt 3 7).status.encClosed = false ∧ (tinyAt 3 7).optr.toNat + ((tinyAt 3 7).accN.toNat + 1) / 8 ≤ 4) ∧
    ((tinyAt 0 7).status.encClosed = false ∧ (tinyAt 0 7).optr.toNat + ((tinyAt 0 7).accN.toNat + 32) / 8 ≤ 4) ∧
    tiny.params.obufSize = 4 ∧ (tinyAt 3 7).acc.toNat % 2 ^ (8 - (tinyAt 3 7).accN.toNat) = 0 := by decide

/-- The symbol's own code, the space character's, and the least valid symbol's. -/
theorem test_hyp_EncSymPacksTheCodeLookupChooses :
    LookupChooses withT15 0x61 0x61 false ∧ LookupChooses withT15 0x7A 0x20 true ∧ LookupChooses withAb 0x7A 0x61 true ∧
    (withT15.params.legal ∧ 0x7A < withT15.params.alphabet ∧ withT15.status.encClosed = false ∧
      Memory.read? withT15.tables.ctControl 0x20 = some { valid := true, len := 3 } ∧
      Memory.read? withT15.tables.ctCode 0x20 = some 1 ∧ (3#6).toNat ≤ withT15.params.maxCodeLen ∧
      withT15.optr.toNat + (withT15.accN.toNat + 3) / 8 ≤ withT15.params.obufSize) ∧
    ((tinyAt 3 7).optr.toNat + ((tinyAt 3 7).accN.toNat + 1) / 8 = (tinyAt 3 7).params.obufSize ∧
      Memory.read? (tinyAt 3 7).tables.ctControl 0x61 = some { valid := true, len := 1 } ∧
      Memory.read? (tinyAt 3 7).tables.ctCode 0x61 = some 0) := by
  refine ⟨.inl (by decide), .inr ⟨by decide, by decide, rfl, ⟨0x0A, by decide, by decide⟩, ?_⟩,
    .inr ⟨by decide, by decide, rfl, ⟨0x61, by decide, by decide⟩, ?_⟩, by decide, by decide⟩
  · rw [if_pos (by decide)]; decide
  · rw [if_neg (by decide)]; decide

/-- A CT entry of symbol 0x61 alone, with the length `len`. -/
def lenEntry (len : BitVec 6) : State :=
  { State.reset with tables := { TableImage.empty with ctControl := [(0x61, { valid := true, len := len })],
                                                       ctCode := [(0x61, 0)] } }

/-- A valid entry of the given length whose code word nothing has written. -/
def noCode (len : BitVec 6) : State :=
  { State.reset with tables := { TableImage.empty with ctControl := [(0x61, { valid := true, len := len })] } }

theorem test_hyp_EncSymRaisesItsErrorsInOrder :
    (0x61 < (closed withAb).params.alphabet ∧ (closed withAb).status.encClosed = true) ∧
    (State.reset.status.encClosed = false ∧ ∀ u < State.reset.params.alphabet, ctValid State.reset u = false) ∧
    (ctValid withAb 0x61 = true ∧ ctValid { withAb with ctrl := ctrlOfWord 1 } 0x63 = false ∧
      { withAb with ctrl := ctrlOfWord 1 }.ctrl.strict = true) ∧
    (∀ len ∈ [0#6, 33#6], LookupChooses (lenEntry len) 0x61 0x61 false ∧
      Memory.read? (lenEntry len).tables.ctControl 0x61 = some { valid := true, len := len } ∧
      Memory.read? (lenEntry len).tables.ctCode 0x61 = some 0 ∧
      (len.toNat = 0 ∨ len.toNat > (lenEntry len).params.maxCodeLen)) ∧
    (∀ len ∈ [0#6, 33#6], LookupChooses (noCode len) 0x61 0x61 false ∧
      Memory.read? (noCode len).tables.ctControl 0x61 = some { valid := true, len := len } ∧
      Memory.read? (noCode len).tables.ctCode 0x61 = none) ∧
    (LookupChooses (tinyAt 4 7) 0x61 0x61 false ∧
      Memory.read? (tinyAt 4 7).tables.ctControl 0x61 = some { valid := true, len := 1 } ∧
      Memory.read? (tinyAt 4 7).tables.ctCode 0x61 = some 0 ∧
      (tinyAt 4 7).optr.toNat + ((tinyAt 4 7).accN.toNat + 1) / 8 > (tinyAt 4 7).params.obufSize) := by
  refine ⟨by decide, ⟨rfl, fun _ _ => rfl⟩, by decide, ?_, ?_, .inl (by decide), by decide⟩ <;>
  · intro len hl
    simp only [List.mem_cons, List.not_mem_nil, or_false] at hl
    rcases hl with rfl | rfl <;> exact ⟨.inl (by decide), by decide⟩

/-- The symbol's own entry, and 'z' falling back to the least valid entry. -/
theorem test_hyp_EncSymOfAnUnwrittenCodeWordPacksADraw :
    (noCode 32).params.legal ∧ 0x7A < (noCode 32).params.alphabet ∧ (noCode 32).status.encClosed = false ∧
    LookupChooses (noCode 32) 0x61 0x61 false ∧ LookupChooses (noCode 32) 0x7A 0x61 true ∧
    Memory.read? (noCode 32).tables.ctControl 0x61 = some { valid := true, len := 32 } ∧
    Memory.read? (noCode 32).tables.ctCode 0x61 = none ∧ (32#6).toNat ≤ (noCode 32).params.maxCodeLen ∧
    (noCode 32).optr.toNat + ((noCode 32).accN.toNat + 32) / 8 ≤ (noCode 32).params.obufSize := by
  refine ⟨by decide, by decide, rfl, .inl (by decide), .inr ⟨by decide, rfl, rfl, ⟨0x61, by decide, by decide⟩, ?_⟩,
    by decide, by decide, by decide, by decide⟩
  rw [if_neg (by decide)]
  decide

theorem test_hyp_FlushPadsWritesAndCloses :
    ((0x40000000#32).toNat / 2 ^ 28 = 4 ∧ (0x40000001#32).toNat / 2 ^ 28 = 4) ∧ tiny.params.legal ∧
    (closed tiny).status.encClosed = true ∧
    ((tinyAt 4 1).status.encClosed = false ∧ 0 < (tinyAt 4 1).accN.toNat ∧ (tinyAt 4 1).optr.toNat + 1 > 4) ∧
    ((tinyAt 4 0).status.encClosed = false ∧ (tinyAt 4 0).accN = 0 ∧ (tinyAt 4 0).optr.toNat ≤ 4 ∧
      (tinyAt 4 0).acc.toNat % 2 ^ (8 - (tinyAt 4 0).accN.toNat) = 0) ∧
    ((tinyAt 3 7).status.encClosed = false ∧ (tinyAt 3 7).optr.toNat + 1 ≤ 4 ∧
      (tinyAt 3 7).acc.toNat % 2 ^ (8 - (tinyAt 3 7).accN.toNat) = 0) ∧ tiny.params.obufSize = 4 := by decide

theorem test_hyp_StoringCommandsStoreOnlyBetweenOldAndNewOptr :
    ∃ t u v, tiny.params.legal ∧ (tinyAt 3 7).optr.toNat ≤ (tinyAt 3 7).params.obufSize ∧
      exec (.putBits 1) (tinyAt 3 7) = .next t ∧ exec (.encSym 0x61) (tinyAt 3 7) = .next u ∧
      exec .flush (tinyAt 3 7) = .next v :=
  ⟨_, _, _, by decide, by decide, next_after (by decide), next_after (by decide), next_after (by decide)⟩

theorem test_hyp_DecInitStartsADecode :
    ((0x50000000#32).toNat / 2 ^ 28 = 5 ∧ (0x50000010#32).toNat / 2 ^ 28 = 5) ∧
    State.reset.tables.root.valid = false ∧
    ({ tiny with bitlen := 33 }.tables.root.valid = true ∧ { tiny with bitlen := 33 }.tables.root.isLeaf = false ∧
      { tiny with bitlen := 33 }.bitlen.toNat > 8 * tiny.params.ibufSize) ∧
    ({ tiny with bitlen := 32 }.tables.root.valid = true ∧
      { tiny with bitlen := 32 }.bitlen.toNat ≤ 8 * tiny.params.ibufSize) ∧
    ((treeImage (.leaf 0x61 4)).root.valid = true ∧ (treeImage (.leaf 0x61 4)).root.isLeaf = true) := by decide

theorem test_hyp_GetBitsReturnsTheNextBits :
    ((0x6FFFFFE0#32).toNat / 2 ^ 28 = 6 ∧ (0x6FFFFFE0#32).toNat % 2 ^ 28 / 2 ^ 5 ≠ 0) ∧ withP15.params.legal ∧
    { tiny with bitlen := 33 }.bitlen.toNat > 8 * { tiny with bitlen := 33 }.params.ibufSize ∧
    (withP15.bitlen.toNat ≤ 8 * withP15.params.ibufSize ∧ { withP15 with iptr := 33 }.iptr.toNat + 1 > withP15.bitlen.toNat) ∧
    ({ withP15 with iptr := 1 }.iptr.toNat + 32 ≤ withP15.bitlen.toNat ∧
      { withP15 with iptr := 32 }.iptr.toNat + 1 ≤ withP15.bitlen.toNat) ∧
    (ibufHolds withP15 [0x55, 0x35, 0x47, 0xFC, 0x00] ∧ withP15.bitlen.toNat ≤ 8 * 5) := by
  unfold ibufHolds
  decide

/-- A leaf root of symbol `sym` with `n` symbols left. -/
def leafRoot (sym : BitVec 16) (n : Word) : State :=
  { State.reset with degenRemain := n,
                     tables := { TableImage.empty with root := { valid := true, isLeaf := true, val := sym } } }

theorem test_hyp_DecSymOfALeafRootRepeatsItsSymbol :
    ((leafRoot 256 4).tables.root.valid = true ∧ (leafRoot 256 4).tables.root.isLeaf = true ∧
      (leafRoot 256 4).params.alphabet ≤ (leafRoot 256 4).tables.root.val.toNat) ∧
    ((leafRoot 255 0).tables.root.val.toNat < (leafRoot 255 0).params.alphabet ∧ (leafRoot 255 0).degenRemain = 0) ∧
    ((leafRoot 255 1).tables.root.val.toNat < (leafRoot 255 1).params.alphabet ∧ 0 < (leafRoot 255 1).degenRemain.toNat) := by
  decide

/-- An internal root with the node index `n`. -/
def nodeRoot (n : BitVec 16) : State :=
  { State.reset with
    bitlen := 8, ibuf := [(0, 0)],
    tables := { TableImage.empty with root := { valid := true, isLeaf := false, val := n } } }

theorem test_hyp_DecSymChecksBeforeTheWalk :
    ((0x70000000#32).toNat / 2 ^ 28 = 7 ∧ (0x70000001#32).toNat / 2 ^ 28 = 7) ∧
    State.reset.tables.root.valid = false ∧
    ((nodeRoot 255).tables.root.valid = true ∧ (nodeRoot 255).tables.root.isLeaf = false) ∧
    { nodeRoot 255 with bitlen := 32769 }.bitlen.toNat > 8 * (nodeRoot 255).params.ibufSize ∧
    ((nodeRoot 255).bitlen.toNat ≤ 8 * (nodeRoot 255).params.ibufSize ∧
      (nodeRoot 255).bitlen.toNat ≤ { nodeRoot 255 with iptr := 8 }.iptr.toNat) ∧
    ({ nodeRoot 255 with iptr := 7 }.iptr.toNat < (nodeRoot 255).bitlen.toNat ∧
      (nodeRoot 255).params.dtNodes ≤ (nodeRoot 255).tables.root.val.toNat) := by decide

/-- The hypotheses that `withP15` meets in the statements about a loaded tree and its payload. -/
theorem withP15_loaded :
    withP15.params.legal ∧ holdsTree withP15 treeT15 ∧ internalNodes treeT15 ≤ withP15.params.dtNodes ∧
    (∀ x ∈ treeSymbols treeT15, x < withP15.params.alphabet) ∧ ibufHolds withP15 [0x55, 0x35, 0x47, 0xFC, 0x00] ∧
    withP15.bitlen.toNat ≤ 8 * 5 ∧ withP15.bitlen.toNat ≤ 8 * withP15.params.ibufSize := by
  unfold holdsTree ibufHolds
  decide

/-- The code "01" at bit 0 and "000" at bit 30, the last; and BITLEN = 31 with bit 30 left over (spec/95 1.1, 1.8). -/
theorem test_hyp_DecSymWalksTheLoadedTree :
    ((0x61, [false, true]) ∈ assignCodes treeT15 ∧ [false, true] <+: (unpackBits [0x55, 0x35, 0x47, 0xFC, 0x00] 33).drop 0) ∧
    ((0x0A, [false, false, false]) ∈ assignCodes treeT15 ∧
      [false, false, false] <+: (unpackBits [0x55, 0x35, 0x47, 0xFC, 0x00] 33).drop 30) ∧
    (∀ c ∈ assignCodes treeT15, ¬ c.2 <+: (unpackBits [0x55, 0x35, 0x47, 0xFC, 0x00] 31).drop 30) := by decide

/-- An internal root at node 0 whose left child is `c`, and eight 0 bits to read. -/
def leftChild (c : Desc) : State :=
  { nodeRoot 0 with tables := { (nodeRoot 0).tables with dtLeft := [(0, c)] } }

/-- A child at node 255 (DT has 0 to 254), a node that is its own child, and leaf children 256 and 255. -/
theorem test_hyp_DecSymFollowsTheDecodeTable :
    (∀ c, ibufHolds (leftChild c) [0] ∧ (leftChild c).tables.root.valid = true ∧
      (leftChild c).tables.root.isLeaf = false ∧ (leftChild c).bitlen.toNat ≤ 8 * 1 ∧
      (leftChild c).bitlen.toNat ≤ 8 * (leftChild c).params.ibufSize ∧ (leftChild c).iptr.toNat < (leftChild c).bitlen.toNat) ∧
    ([false] <+: (unpackBits [0] 8).drop 0 ∧ follow (leftChild ⟨false, 255⟩) [false] 0 = some 255 ∧
      (leftChild ⟨false, 255⟩).params.dtNodes ≤ 255) ∧
    (List.replicate 8 false <+: (unpackBits [0] 8).drop 0 ∧
      follow (leftChild ⟨false, 0⟩) (List.replicate 8 false) 0 = some 0 ∧ 0 < (leftChild ⟨false, 0⟩).params.dtNodes) ∧
    (Memory.read? (leftChild ⟨true, 256⟩).tables.dtLeft 0 = some ⟨true, 256⟩ ∧
      (leftChild ⟨true, 256⟩).params.alphabet ≤ 256) ∧
    (Memory.read? (leftChild ⟨true, 255⟩).tables.dtLeft 0 = some ⟨true, 255⟩ ∧
      255 < (leftChild ⟨true, 255⟩).params.alphabet ∧ follow (leftChild ⟨true, 255⟩) [] 0 = some 0) := by
  refine ⟨fun c => ⟨?_, rfl, rfl, ?_, ?_, ?_⟩, ?_⟩
  · intro i hi
    simp only [List.length_singleton, Nat.lt_one_iff] at hi
    subst hi
    rfl
  all_goals first | decide | simp [leftChild, nodeRoot, State.reset, State.resetOf, Params.standard]

/-- An internal root over a DT of which nothing is written. -/
theorem test_hyp_DecSymWalkEmitsASymbolOrRaisesTableOrMalformed :
    (nodeRoot 254).tables.root.valid = true ∧ (nodeRoot 254).tables.root.isLeaf = false ∧
    (nodeRoot 254).bitlen.toNat ≤ 8 * (nodeRoot 254).params.ibufSize ∧
    { nodeRoot 254 with iptr := 7 }.iptr.toNat < (nodeRoot 254).bitlen.toNat := by decide

theorem test_hyp_DecodeCommandsMoveIptrOnlyUpToBitlen :
    ∃ t u, exec (.getBits 1) withP15 = .next t ∧ exec .decSym withP15 = .next u :=
  ⟨_, _, next_after (by decide), next_after (by decide)⟩

theorem test_hyp_CommandsThatStoreNothingLeaveObuf :
    ∀ i ∈ [Instr.nop, .encInit, .decInit, .decSym, .softReset, .getBits 1], ∃ t, exec i withP15 = .next t := by
  intro i hi
  simp only [List.mem_cons, List.not_mem_nil, or_false] at hi
  rcases hi with rfl | rfl | rfl | rfl | rfl | rfl <;> exact ⟨_, next_after (by decide)⟩

theorem test_hyp_NopOnlyCompletes :
    ((0#32).toNat / 2 ^ 28 = 0 ∧ (1#32).toNat / 2 ^ 28 = 0) ∧
    (∃ t, statusWord { State.reset with status := { State.reset.status with resValid := true } } = 0x00000004 ∧
      exec .nop { State.reset with status := { State.reset.status with resValid := true } } = .next t) :=
  ⟨by decide, _, by decide, next_after (by decide)⟩

theorem test_hyp_SoftResetClearsTheStreamsAndStatus :
    (0x80000000#32).toNat / 2 ^ 28 = 8 ∧ (0x80000001#32).toNat / 2 ^ 28 = 8 := by decide

theorem test_hyp_IdleReadReturnsTheRegister : busy withP15 = false := by decide

theorem test_hyp_AddressesAreThoseOfTheMap :
    wide.legal ∧ 4 * 0 < wide.obufSize ∧ 4 * 0 < wide.ibufSize ∧ 65534 < wide.dtNodes ∧ 65535 < wide.alphabet ∧
    4 * 1023 < Params.standard.obufSize ∧ 4 * 1023 < Params.standard.ibufSize := by decide

theorem test_hyp_RegisterWordsSpellTheirFields : wide.legal ∧ Params.standard.legal := by decide

/-- Misaligned, and the first address past each mapped range. -/
theorem test_hyp_BadAccessSetsErrAddrAndNothingElse :
    (0x020001#24).toNat % 4 ≠ 0 ∧
    (∀ a ∈ [0x000040#24, 0x011000#24, 0x021000#24, 0x0807F8#24, 0x100800#24, 0xFFFFFC#24], unmapped Params.standard a) := by
  simp [unmapped, Params.standard, Params.dtNodes, Params.alphabet]

/-- The last address of each mapped range. -/
theorem test_hyp_GoodReadHasNoSideEffect :
    (∀ a ∈ [0x00003C#24, 0x010FFC#24, 0x020FFC#24, 0x0807F4#24, 0x1007FC#24],
      a.toNat % 4 = 0 ∧ ¬ unmapped Params.standard a) ∧
    (read 0x00003C State.reset).draws = State.reset.draws ∧ (0x018 : Addr) ≠ regOffset .cmd := by
  refine ⟨?_, by decide, by decide⟩
  simp [unmapped, Params.standard, Params.dtNodes, Params.alphabet]

theorem test_hyp_PendIsFilledByCmdAndEmptiedByTheEngineAndReset :
    State.reset.pend = none ∧ (pending 0 []).pend ≠ none ∧ (∃ t, (pending 0 []).agenda = [] ∧ step (pending 0 []) = .next t) ∧
    ∃ t, (pending 0 [.engine]).agenda = .engine :: [] ∧ step (pending 0 [.engine]) = .next t :=
  ⟨by decide, by decide, ⟨_, by decide, rfl⟩, _, by decide, rfl⟩

theorem test_hyp_ReadOnlyWritesAreIgnored :
    State.reset.params.legal ∧ 4 * 0 < State.reset.params.obufSize ∧ 4 * 1023 < State.reset.params.obufSize := by decide

theorem test_hyp_RomTablesNeverChange :
    romBuild.tablesWritable = false ∧ romBuild.legal ∧
    (State.resetOf romBuild).tables = (State.resetOf romBuild).params.romImage ∧
    (∃ t, step { State.resetOf romBuild with agenda := [.busWrite 0x034 0] } = .next t) ∧
    254 < romBuild.dtNodes ∧ 255 < romBuild.alphabet :=
  ⟨by decide, by decide, by decide, ⟨_, rfl⟩, by decide, by decide⟩

theorem test_hyp_BusyWritesAreRefused :
    (pending 0 []).params.legal ∧ busy (pending 0 []) = true ∧ (pending 0 []).params.tablesWritable = true ∧
    4 * 1023 < (pending 0 []).params.ibufSize ∧ 254 < (pending 0 []).params.dtNodes ∧
    255 < (pending 0 []).params.alphabet := by decide

theorem test_hyp_WrittenWordReadsBackWithoutReservedBits :
    State.reset.params.legal ∧ busy State.reset = false ∧ State.reset.params.tablesWritable = true ∧
    4 * 1023 < State.reset.params.ibufSize ∧ 254 < State.reset.params.dtNodes ∧ 255 < State.reset.params.alphabet := by decide

/-- The last word of each window (spec/20_memory.md R51). -/
theorem test_hyp_PerformedWriteChangesOnlyItsTarget :
    State.reset.params.legal ∧ busy State.reset = false ∧ State.reset.params.tablesWritable = true ∧
    (4 * 1023 < State.reset.params.ibufSize ∧ (0x020FFC#24).toNat = 0x020000 + 4 * 1023) ∧
    (254 < State.reset.params.dtNodes ∧ (0x0807F0#24).toNat = 0x080000 + 8 * 254 ∧
      (0x0807F4#24).toNat = 0x080000 + 8 * 254 + 4) ∧
    (255 < State.reset.params.alphabet ∧ (0x1007F8#24).toNat = 0x100000 + 8 * 255 ∧
      (0x1007FC#24).toNat = 0x100000 + 8 * 255 + 4) := by decide

theorem test_hyp_ByteLanesAreLittleEndian :
    withP15.params.legal ∧ busy withP15 = false ∧ 4 * 1023 < withP15.params.ibufSize ∧ 4 * 1023 < withP15.params.obufSize ∧
    Memory.read? withP15.ibuf (4 * 0 + 3) = some 0xFC ∧
    Memory.read? { withP15 with obuf := [(4095, 0x80)] }.obuf (4 * 1023 + 3) = some 0x80 := by decide

theorem test_hyp_BusyReadsShowBusyAndExactHostState :
    (pending 0 []).params.legal ∧ busy (pending 0 []) = true ∧ 4 * 1023 < (pending 0 []).params.obufSize ∧
    4 * 1023 < (pending 0 []).params.ibufSize ∧ 254 < (pending 0 []).params.dtNodes ∧
    255 < (pending 0 []).params.alphabet := by decide

theorem test_hyp_HardResetLeavesTheResetValues :
    Params.standard.tablesWritable = true ∧ romBuild.tablesWritable = false ∧ romBuild.legal := by decide

/-- A ROM build is a legal build. -/
theorem romBuild_ok : BuildOk romBuild := by
  refine ⟨by decide, ?_⟩
  constructor <;> decide

theorem test_hyp_InvariantHoldsAtReset : BuildOk romBuild := romBuild_ok

/-- A ROM build in the middle of a stream, one byte packed and three bits pending. -/
def midStream : State :=
  { State.resetOf romBuild with
    optr := 1, accN := 3, acc := 0xA0, bitcount := 11, obuf := [(0, 0x55)], ibuf := [(0, 0x55)], iptr := 8, bitlen := 8 }

theorem test_hyp_EveryStepKeepsTheInvariant : Inv midStream ∧ ∃ t, step midStream = .next t := by
  refine ⟨⟨romBuild_ok, romBuild_ok.image, fun _ => by decide, by decide, by decide, by decide, by decide, by decide,
    by decide, by decide, ⟨fun _ => by decide, fun h => absurd h (by decide), by decide⟩⟩, ⟨_, rfl⟩⟩

theorem test_hyp_EveryCommandKeepsThePackerInvariant :
    (∃ t, exec .encInit midStream = .next t) ∧ midStream.params.legal ∧
    midStream.optr.toNat ≤ midStream.params.obufSize ∧ PackerInv midStream ∧ (∃ t, exec (.putBits 5) midStream = .next t) :=
  ⟨⟨_, next_after (by decide)⟩, by decide, by decide, test_hyp_EveryStepKeepsTheInvariant.1.packer,
    ⟨_, next_after (by decide)⟩⟩

/-- PUT_BITS 3 of 5, ENC_SYM of 'b', and an ENC_SYM that falls back. -/
def streamCommands : List (Word × Instr) := [(5, .putBits 3), (0, .encSym 0x62), (0, .encSym 0x7A)]

/-- The state and the bits that the commands `cmds` give from a new stream in `withAb`. -/
def encoded (cmds : List (Word × Instr)) : State × List Bool :=
  (encodeRun cmds (after .encInit withAb)).getD (withAb, [])

theorem test_hyp_PackLaw :
    withAb.params.legal ∧ exec .encInit withAb = .next (after .encInit withAb) ∧
    (∀ c ∈ streamCommands, (∃ n, 1 ≤ n ∧ n ≤ 32 ∧ c.2 = .putBits n) ∨ (∃ sym, c.2 = .encSym sym)) ∧
    encodeRun streamCommands (after .encInit withAb) = some ((encoded streamCommands).1, (encoded streamCommands).2) ∧
    exec .flush (encoded streamCommands).1 = .next (after .flush (encoded streamCommands).1) ∧
    (after .flush (encoded streamCommands).1).status.encClosed = true ∧
    (encoded streamCommands).2 = [true, false, true, true, false] := by
  refine ⟨by decide, next_after (by decide), ?_, some_getD (withAb, []) (by decide),
    next_after (by decide), by decide, by decide⟩
  intro c hc
  simp only [streamCommands, List.mem_cons, List.not_mem_nil, or_false] at hc
  rcases hc with rfl | rfl | rfl
  · exact .inl ⟨3, by decide, by decide, rfl⟩
  · exact .inr ⟨_, rfl⟩
  · exact .inr ⟨_, rfl⟩

/-- CT of `withAb` holds the codes of the tree of "ab". -/
theorem withAb_holdsCodes : holdsCodes withAb (assignCodes treeAb) := by
  intro sym
  by_cases h1 : sym = 0x61
  · subst h1; exact ⟨by decide, by decide⟩
  · by_cases h2 : sym = 0x62
    · subst h2; exact ⟨by decide, by decide⟩
    · have h3 : codeOf (assignCodes treeAb) sym = none := by
        simp [codeOf, assignCodes, treeAb, walkCodes, Memory.read?, Ne.symm h1, Ne.symm h2]
      rw [h3]
      simp [ctValid, withAb, treeImage, assignCodes, treeAb, walkCodes, Memory.write, Memory.read?, Ne.symm h1, Ne.symm h2]

/-- `withAb` with a sticky ERR_OFLOW. -/
def withAbOflow : State := withErrors (errMask .oflow) withAb

/-- The last clause of the pack law, for the text "ba", with an error bit set before and without. -/
theorem test_hyp_PackLaw_of_a_text :
    ([(0, .encSym 0x62), (0, .encSym 0x61)] : List (Word × Instr)).map Prod.snd = [0x62, 0x61].map Instr.encSym ∧
    holdsCodes withAb (assignCodes treeAb) ∧ fitsBuild withAb.params (assignCodes treeAb) = true ∧
    (∀ x ∈ [0x62, 0x61], (codeOf (assignCodes treeAb) x).isSome = true) ∧
    noneFails [(0, .encSym 0x62), (0, .encSym 0x61)] (after .encInit withAb) = true ∧
    noneFails [(0, .encSym 0x62), (0, .encSym 0x61)] (after .encInit withAbOflow) = true :=
  ⟨by decide, withAb_holdsCodes, by decide, by decide, by decide, by decide⟩

theorem test_hyp_UnpackLaw :
    (withP15.params.legal ∧ ibufHolds withP15 [0x55, 0x35, 0x47, 0xFC, 0x00] ∧ withP15.bitlen.toNat ≤ 8 * 5 ∧
      withP15.bitlen.toNat ≤ 8 * withP15.params.ibufSize ∧ withP15.tables.root.valid = true ∧
      exec .decInit withP15 = .next (after .decInit withP15) ∧ (∀ n ∈ [1, 32], 1 ≤ n ∧ n ≤ 32) ∧
      [1, 32].sum ≤ withP15.bitlen.toNat) ∧
    (payload (after .flush (encoded streamCommands).1) = some [0xB0] ∧
      ibufHolds { withAb with ibuf := [(0, 0xB0)], bitlen := 5 } [0xB0] ∧
      { withAb with ibuf := [(0, 0xB0)], bitlen := 5 }.bitlen = (after .flush (encoded streamCommands).1).bitcount) := by
  refine ⟨⟨by decide, withP15_loaded.2.2.2.2.1, by decide, by decide, by decide, next_after (by decide), by decide,
    by decide⟩, by decide, ?_, by decide⟩
  unfold ibufHolds
  decide

/-- The whole text of section 1.1 with nothing left, and "aaaa bbbb cccc" with bit 30 left (section 1.8). -/
theorem test_hyp_DecodeLaw :
    exec .decInit withP15 = .next (after .decInit withP15) ∧
    (∃ codes, [97, 97, 97, 97, 32, 98, 98, 98, 98, 32, 99, 99, 99, 99, 10].mapM (codeOf (assignCodes treeT15)) =
        some codes ∧ unpackBits [0x55, 0x35, 0x47, 0xFC, 0x00] 33 = codes.flatten ++ []) ∧
    (∃ codes, [97, 97, 97, 97, 32, 98, 98, 98, 98, 32, 99, 99, 99, 99].mapM (codeOf (assignCodes treeT15)) =
        some codes ∧ unpackBits [0x55, 0x35, 0x47, 0xFC, 0x00] 31 = codes.flatten ++ [false] ∧
        (0x0A, [false, false, false]) ∈ assignCodes treeT15 ∧ [false] <+: [false, false, false] ∧
        [false] ≠ [false, false, false]) :=
  ⟨next_after (by decide), ⟨_, some_getD [] (by decide), by decide⟩,
    ⟨_, some_getD [] (by decide), by decide, by decide, by decide, by decide⟩⟩

theorem test_hyp_DegenerateLaw :
    (leafRoot 0x61 0).tables.root = { valid := true, isLeaf := true, val := 0x61 } ∧
    (0x61#16).toNat < (leafRoot 0x61 0).params.alphabet ∧
    exec .decInit (leafRoot 0x61 0) = .next (after .decInit (leafRoot 0x61 0)) :=
  ⟨by decide, by decide, next_after (by decide)⟩

/-- The encode of a text in a state, and then the payload in IBUF and BITLEN = BITCOUNT. -/
def encodedText (text : List Nat) (s : State) : State :=
  (execAll (Instr.encInit :: text.map Instr.encSym ++ [Instr.flush]) s).getD s
def payloadMoved (m : Memory Byte) (s : State) : State := { s with ibuf := m, bitlen := s.bitcount }

/-- The text "ab" (spec/95_test_vectors.md 2.6: bits "01", byte 40). -/
theorem test_hyp_RoundTripLaw :
    withAb.params.legal ∧ [0x61, 0x62] ≠ [] ∧ (∀ x ∈ [0x61, 0x62], x < withAb.params.alphabet) ∧
    buildTree (buildFrequencies [0x61, 0x62]) = some treeAb ∧ fitsBuild withAb.params (assignCodes treeAb) = true ∧
    holdsCodes withAb (assignCodes treeAb) ∧ holdsTree withAb treeAb ∧ (∀ sym c, treeAb ≠ .leaf sym c) ∧
    execAll (Instr.encInit :: [0x61, 0x62].map Instr.encSym ++ [Instr.flush]) withAb =
      some (encodedText [0x61, 0x62] withAb) ∧
    noneFails ((Instr.encInit :: [0x61, 0x62].map Instr.encSym ++ [Instr.flush]).map (fun i => (withAb.data, i))) withAb =
      true ∧ payload (encodedText [0x61, 0x62] withAb) = some [0x40] ∧
    [(0x40 : Byte)].length ≤ (encodedText [0x61, 0x62] withAb).params.ibufSize ∧
    ibufHolds (payloadMoved [(0, 0x40)] (encodedText [0x61, 0x62] withAb)) [0x40] ∧
    exec .decInit (payloadMoved [(0, 0x40)] (encodedText [0x61, 0x62] withAb)) =
      .next (after .decInit (payloadMoved [(0, 0x40)] (encodedText [0x61, 0x62] withAb))) := by
  refine ⟨by decide, by decide, by decide, by decide, by decide, withAb_holdsCodes, ?_, (fun _ _ h => by cases h),
    some_getD _ (by decide), by decide, by decide, by decide, ?_, next_after (by decide)⟩
  · unfold holdsTree; decide
  · unfold ibufHolds; decide

/-- The premise of RoundTripLaw on a leaf root: the text "aa". -/
theorem test_hyp_RoundTripLaw_of_a_leaf :
    buildTree (buildFrequencies [0x61, 0x61]) = some (.leaf 0x61 2) ∧
    (treeImage (.leaf 0x61 2)).degenWeight.toNat = 2 := by decide

/-- Two IBUFs that differ in the padding bits alone. -/
theorem test_hyp_PaddingBitsAreNeverRead :
    ∀ k < withP15.bitlen.toNat, (Memory.read? withP15.ibuf (k / 8)).map (fun b => b.getLsbD (7 - k % 8)) =
      (Memory.read? [(0, (0x55 : Byte)), (1, 0x35), (2, 0x47), (3, 0xFC), (4, 0x7F)] (k / 8)).map
        (fun b => b.getLsbD (7 - k % 8)) := by decide

theorem test_hyp_IssuedCommandRunsOnce :
    { withAb with agenda := issue (.encSym 0x61) 2 ++ [Turn.hardReset] }.params.legal ∧
    (Instr.encSym 0x61).wf withAb.params = true ∧ withAb.pend = none := by decide

theorem test_hyp_LoadingATreeLeavesItsImage :
    State.reset.params.legal ∧ State.reset.params.tablesWritable = true ∧ State.reset.pend = none ∧
    (∀ sym, ctValid State.reset sym = false) ∧ (treeSymbols treeT15).Nodup ∧
    fitsBuild State.reset.params (assignCodes treeT15) = true ∧
    internalNodes treeT15 ≤ State.reset.params.dtNodes :=
  ⟨by decide, by decide, by decide, fun _ => rfl, by decide, by decide, by decide⟩

end Sys2Proof.Tests
end

section
/-! SUPPORT. What a step is, by the head of the agenda (spec/00_scope.md R12, spec/20_memory.md R66): one equation per
turn, and the engine's turn while PEND is empty. -/

namespace Sys2Proof.Machine

section Turns

variable {s : State} {rest : List Turn}

/-- With no command pending the engine's turn is idle (log 3). -/
theorem engineTurn_of_pend_none (h : s.pend = none) : engineTurn s = .next s := by
  rw [engineTurn, h]

theorem step_of_agenda_nil (h : s.agenda = []) : step s = engineTurn s := by
  rw [step, h]

theorem step_of_agenda_engine (h : s.agenda = .engine :: rest) :
    step s = engineTurn { s with agenda := rest } := by
  rw [step, h]

theorem step_of_agenda_busRead {a : Addr} (h : s.agenda = .busRead a :: rest) :
    step s = .next (busRead a { s with agenda := rest }) := by
  rw [step, h]

theorem step_of_agenda_busWrite {a : Addr} {w : Word} (h : s.agenda = .busWrite a w :: rest) :
    step s = .next (busWrite a w { s with agenda := rest }) := by
  rw [step, h]

theorem step_of_agenda_hardReset (h : s.agenda = .hardReset :: rest) :
    step s = .next (hardReset { s with agenda := rest }) := by
  rw [step, h]

end Turns

/-- Settles O7: one equation of `step` per turn; an engine's turn, taken from the agenda or not, is idle because taking
it off leaves PEND empty. -/
theorem stepTakesTheNextTurn : Obligations.StepTakesTheNextTurn := by
  intro s rest
  refine ⟨fun a => step_of_agenda_busRead, fun a w => step_of_agenda_busWrite, step_of_agenda_hardReset, ?_, ?_⟩
  · intro hagenda hpend
    have idle : engineTurn { s with agenda := rest } = .next { s with agenda := rest } :=
      engineTurn_of_pend_none hpend
    exact (step_of_agenda_engine hagenda).trans idle
  · intro hagenda hpend
    exact (step_of_agenda_nil hagenda).trans (engineTurn_of_pend_none hpend)

end Sys2Proof.Machine
end

section
/-! SUPPORT. What each command can do (spec/41_encode.md to spec/43_control.md): one inversion lemma per command. -/

namespace Sys2Proof.Machine

section Commands

variable {s t : State}

/-- The command that takes `s` to `t` ends in an error: a command's cause is raised on the state it started from, its
draws counted (spec/60_exceptions.md R171, log 6). -/
def EndsInError (s t : State) : Prop :=
  ∃ e d, causeCode e ≤ 16 ∧ s.draws ≤ d ∧ t = raiseErr e (withDraws d s)

/-- An error raised before the command drew anything. -/
theorem endsInError_raiseErr {e : ErrFlag} (he : causeCode e ≤ 16) (h : t = raiseErr e s) : EndsInError s t :=
  ⟨e, s.draws, he, le_refl _, h⟩

theorem bitlen_le_of_not_tooBig (h : bitlenTooBig s = false) : s.bitlen.toNat ≤ 8 * s.params.ibufSize := by
  simpa [bitlenTooBig] using h

theorem pushBits_error {n : Nat} {v : Word} {e : ErrFlag} (h : pushBits n v s = .error e) : e = .oflow := by
  rcases pushBits_cases n v s with hp | hp <;> simp_all

/-- `PushBits`, where it completes, changes only the packer's part and BITCOUNT (R120). -/
theorem pushBits_ok {n : Nat} {v : Word} (h : pushBits n v s = .ok t) :
    ∃ q, t = { withPacker q s with bitcount := s.bitcount + BitVec.ofNat 32 n } := by
  rcases pushBits_cases n v s with hp | hp
  · simp_all
  · exact ⟨_, by injection hp.symm.trans h with ht; exact ht.symm⟩

theorem exec_nop (h : exec .nop s = .next t) : t = complete false s := by
  injection h with h
  exact h.symm

theorem exec_encInit (h : exec .encInit s = .next t) :
    t = complete false
      { s with acc := 0, accN := 0, optr := 0, bitcount := 0, status := { s.status with encClosed := false } } := by
  injection h with h
  exact h.symm

theorem exec_softReset (h : exec .softReset s = .next t) :
    t = complete false
      { s with acc := 0, accN := 0, optr := 0, bitcount := 0, iptr := 0, degenRemain := 0, result := 0,
               status := { done := false, resValid := false, eos := false, encClosed := false, errors := 0 } } := by
  injection h with h
  exact h.symm

/-- PUT_BITS fails, or packs into an open stream (R122). -/
theorem exec_putBits_cases {n : Nat} (h : exec (.putBits n) s = .next t) :
    EndsInError s t ∨
    (s.status.encClosed = false ∧ ∃ u, pushBits n s.data s = .ok u ∧ t = complete false u) := by
  change execPutBits n s = _ at h
  unfold execPutBits at h
  split at h <;> rename_i hclosed
  · injection h with h
    exact .inl (endsInError_raiseErr (by decide) h.symm)
  · split at h <;> rename_i hpush <;> injection h with h
    · obtain rfl := pushBits_error hpush
      exact .inl (endsInError_raiseErr (by decide) h.symm)
    · exact .inr ⟨by simpa using hclosed, _, hpush, h.symm⟩

/-- ENC_SYM fails, or packs the code `Lookup` found into an open stream (R124). -/
theorem exec_encSym_cases {sym : Nat} (h : exec (.encSym sym) s = .next t) :
    EndsInError s t ∨
    (s.status.encClosed = false ∧ ∃ f u, (lookup s sym).1 = .ok f ∧
      pushBits f.len f.code (withDraws (lookup s sym).2 s) = .ok u ∧
      t = complete false (if f.fallback then setErr .missing u else u)) := by
  change execEncSym sym s = _ at h
  have hd := lookup_draws_le s sym
  unfold execEncSym at h
  split at h <;> rename_i hclosed
  · injection h with h
    exact .inl (endsInError_raiseErr (by decide) h.symm)
  · split at h <;> rename_i x d hlookup <;> rw [hlookup] at hd ⊢
    · injection h with h
      have he : causeCode x ≤ 16 := by
        rcases lookup_error (s := s) (sym := sym) (by rw [hlookup]) with rfl | rfl | rfl <;> decide
      exact .inl ⟨x, d, he, hd, h.symm⟩
    · split at h <;> rename_i hpush <;> injection h with h
      · obtain rfl := pushBits_error hpush
        exact .inl ⟨.oflow, d, by decide, hd, h.symm⟩
      · exact .inr ⟨by simpa using hclosed, x, _, rfl, hpush, h.symm⟩

/-- FLUSH fails, or leaves a closed stream, or closes an open one, with its pending bits stored as a byte (R125). -/
theorem exec_flush_cases (h : exec .flush s = .next t) :
    EndsInError s t ∨
    (s.status.encClosed = true ∧ t = complete false s) ∨
    (s.status.encClosed = false ∧ 0 < s.accN.toNat ∧ s.optr.toNat + 1 ≤ s.params.obufSize ∧
      t = complete false
        { s with obuf := Memory.write s.obuf s.optr.toNat s.acc, optr := s.optr + 1, acc := 0, accN := 0,
                 status := { s.status with encClosed := true } }) ∨
    (s.status.encClosed = false ∧ s.accN.toNat = 0 ∧
      t = complete false { s with status := { s.status with encClosed := true } }) := by
  change execFlush s = _ at h
  unfold execFlush at h
  split at h <;> rename_i hclosed
  · injection h with h
    exact .inr (.inl ⟨hclosed, h.symm⟩)
  · have hopen : s.status.encClosed = false := by simpa using hclosed
    split at h <;> rename_i hpending
    · split at h <;> rename_i hroom <;> injection h with h
      · exact .inl (endsInError_raiseErr (by decide) h.symm)
      · exact .inr (.inr (.inl ⟨hopen, hpending, by omega, h.symm⟩))
    · injection h with h
      exact .inr (.inr (.inr ⟨hopen, by omega, h.symm⟩))

/-- DEC_INIT fails, or starts a decode at the first bit (R140). -/
theorem exec_decInit_cases (h : exec .decInit s = .next t) :
    EndsInError s t ∨
    t = complete false
      { s with iptr := 0, degenRemain := s.tables.degenWeight, status := { s.status with eos := false } } := by
  change execDecInit s = _ at h
  unfold execDecInit at h
  split at h
  · injection h with h
    exact .inl (endsInError_raiseErr (by decide) h.symm)
  · split at h <;> injection h with h
    · exact .inl (endsInError_raiseErr (by decide) h.symm)
    · exact .inr h.symm

/-- GET_BITS fails, or moves IPTR over its bits, which end below BITLEN (R141). -/
theorem exec_getBits_cases {n : Nat} (h : exec (.getBits n) s = .next t) :
    EndsInError s t ∨
    (s.bitlen.toNat ≤ 8 * s.params.ibufSize ∧ s.iptr.toNat + n ≤ s.bitlen.toNat ∧ ∃ v d,
      t = complete true { withDraws d s with result := v, iptr := s.iptr + BitVec.ofNat 32 n }) := by
  change execGetBits n s = _ at h
  unfold execGetBits at h
  split at h <;> rename_i hbig
  · injection h with h
    exact .inl (endsInError_raiseErr (by decide) h.symm)
  · split at h <;> rename_i hunder <;> injection h with h
    · exact .inl (endsInError_raiseErr (by decide) h.symm)
    · exact .inr ⟨bitlen_le_of_not_tooBig (by simpa using hbig), by omega, _, _, h.symm⟩

/-- DEC_SYM fails, finds no symbol left, emits the symbol of a leaf root, or walks to a symbol whose code ends at the bit
index `q`, past IPTR and not past BITLEN (R142). -/
theorem exec_decSym_cases (h : exec .decSym s = .next t) :
    EndsInError s t ∨ t = endOfStream s ∨
    (∃ v r, t = complete true
      { s with result := v, degenRemain := r, status := { s.status with eos := false } }) ∨
    (s.bitlen.toNat ≤ 8 * s.params.ibufSize ∧ ∃ v d q, s.iptr.toNat < q ∧ q ≤ s.bitlen.toNat ∧
      t = complete true { withDraws d s with
        result := v, iptr := BitVec.ofNat 32 q, status := { s.status with eos := false } }) := by
  change execDecSym s = _ at h
  unfold execDecSym at h
  split at h
  · injection h with h
    exact .inl (endsInError_raiseErr (by decide) h.symm)
  · split at h
    · unfold decSymLeafRoot at h
      split at h
      · injection h with h
        exact .inl (endsInError_raiseErr (by decide) h.symm)
      · split at h <;> injection h with h
        · exact .inr (.inl h.symm)
        · exact .inr (.inr (.inl ⟨_, _, h.symm⟩))
    · unfold decSymWalk at h
      split at h <;> rename_i hbig
      · injection h with h
        exact .inl (endsInError_raiseErr (by decide) h.symm)
      · split at h <;> rename_i hleft
        · injection h with h
          exact .inr (.inl h.symm)
        · obtain ⟨hdraws, hend⟩ :=
            walk_bound s (s.bitlen.toNat - s.iptr.toNat) s.tables.root.val.toNat s.iptr.toNat s.draws
          split at h <;> rename_i hwalk <;> injection h with h <;> rw [hwalk] at hdraws hend
          · rename_i e d
            have he : causeCode e ≤ 16 := by
              rcases walk_error s _ _ _ _ e (by rw [hwalk]) with rfl | rfl <;> decide
            exact .inl ⟨e, d, he, hdraws, h.symm⟩
          · rename_i sym q d
            obtain ⟨hq, hq', -⟩ := hend sym q rfl
            exact .inr (.inr (.inr ⟨bitlen_le_of_not_tooBig (by simpa using hbig), _, d, q, hq, by omega, h.symm⟩))

end Commands

end Sys2Proof.Machine
end

section
/-! SUPPORT. The frames of the commands: what no command writes (spec/20_memory.md R63), that every command empties PEND
(spec/10_state.md R38), and how far one moves IPTR (R48). -/

namespace Sys2Proof.Machine

section Frames

variable {s t u : State}

theorem sameHostState.trans (h : sameHostState s t) (h' : sameHostState t u) : sameHostState s u := by
  obtain ⟨params, ctrl, data, bitlen, tables, ibuf, agenda, answer⟩ := h
  obtain ⟨params', ctrl', data', bitlen', tables', ibuf', agenda', answer'⟩ := h'
  exact ⟨params'.trans params, ctrl'.trans ctrl, data'.trans data, bitlen'.trans bitlen, tables'.trans tables,
    ibuf'.trans ibuf, agenda'.trans agenda, answer'.trans answer⟩

theorem sameHostState_complete (b : Bool) (s : State) : sameHostState s (complete b s) :=
  ⟨rfl, rfl, rfl, rfl, rfl, rfl, rfl, rfl⟩

theorem sameHostState_withDraws (d : Nat) (s : State) : sameHostState s (withDraws d s) :=
  ⟨rfl, rfl, rfl, rfl, rfl, rfl, rfl, rfl⟩

theorem sameHostState_setErr (e : ErrFlag) (s : State) : sameHostState s (setErr e s) :=
  ⟨rfl, rfl, rfl, rfl, rfl, rfl, rfl, rfl⟩

theorem EndsInError.sameHostState (h : EndsInError s t) : sameHostState s t := by
  obtain ⟨e, d, -, -, rfl⟩ := h
  exact ⟨rfl, rfl, rfl, rfl, rfl, rfl, rfl, rfl⟩

theorem pushBits_sameHostState {n : Nat} {v : Word} (h : pushBits n v s = .ok t) : sameHostState s t := by
  obtain ⟨q, rfl⟩ := pushBits_ok h
  exact ⟨rfl, rfl, rfl, rfl, rfl, rfl, rfl, rfl⟩

/-- The host's state is no command's to write (R28, R33, R63). -/
theorem exec_sameHostState {i : Instr} (h : exec i s = .next t) : sameHostState s t := by
  cases i with
  | nop =>
    obtain rfl := exec_nop h
    exact sameHostState_complete false s
  | encInit =>
    obtain rfl := exec_encInit h
    exact ⟨rfl, rfl, rfl, rfl, rfl, rfl, rfl, rfl⟩
  | putBits n =>
    obtain herr | ⟨-, u, hpush, rfl⟩ := exec_putBits_cases h
    · exact herr.sameHostState
    · exact (pushBits_sameHostState hpush).trans (sameHostState_complete false u)
  | encSym sym =>
    obtain herr | ⟨-, f, u, -, hpush, rfl⟩ := exec_encSym_cases h
    · exact herr.sameHostState
    · have packed := (sameHostState_withDraws _ s).trans (pushBits_sameHostState hpush)
      cases f.fallback
      · exact packed.trans (sameHostState_complete false u)
      · exact (packed.trans (sameHostState_setErr .missing u)).trans (sameHostState_complete false _)
  | flush =>
    obtain herr | ⟨-, rfl⟩ | ⟨-, -, -, rfl⟩ | ⟨-, -, rfl⟩ := exec_flush_cases h
    · exact herr.sameHostState
    all_goals exact ⟨rfl, rfl, rfl, rfl, rfl, rfl, rfl, rfl⟩
  | decInit =>
    obtain herr | rfl := exec_decInit_cases h
    · exact herr.sameHostState
    · exact ⟨rfl, rfl, rfl, rfl, rfl, rfl, rfl, rfl⟩
  | getBits n =>
    obtain herr | ⟨-, -, v, d, rfl⟩ := exec_getBits_cases h
    · exact herr.sameHostState
    · exact ⟨rfl, rfl, rfl, rfl, rfl, rfl, rfl, rfl⟩
  | decSym =>
    obtain herr | rfl | ⟨v, r, rfl⟩ | ⟨-, v, d, q, -, -, rfl⟩ := exec_decSym_cases h
    · exact herr.sameHostState
    all_goals exact ⟨rfl, rfl, rfl, rfl, rfl, rfl, rfl, rfl⟩
  | softReset =>
    obtain rfl := exec_softReset h
    exact ⟨rfl, rfl, rfl, rfl, rfl, rfl, rfl, rfl⟩

theorem EndsInError.pend (h : EndsInError s t) : t.pend = none := by
  obtain ⟨e, d, -, -, rfl⟩ := h
  rfl

/-- Every command ends in `complete` or in an error, and both empty PEND (R38, R93, R171). -/
theorem exec_pend {i : Instr} (h : exec i s = .next t) : t.pend = none := by
  cases i with
  | nop => rw [exec_nop h, complete_pend]
  | encInit => rw [exec_encInit h, complete_pend]
  | putBits n =>
    obtain herr | ⟨-, u, -, rfl⟩ := exec_putBits_cases h
    · exact herr.pend
    · rfl
  | encSym sym =>
    obtain herr | ⟨-, f, u, -, -, rfl⟩ := exec_encSym_cases h
    · exact herr.pend
    · rfl
  | flush =>
    obtain herr | ⟨-, rfl⟩ | ⟨-, -, -, rfl⟩ | ⟨-, -, rfl⟩ := exec_flush_cases h
    · exact herr.pend
    all_goals rfl
  | decInit =>
    obtain herr | rfl := exec_decInit_cases h
    · exact herr.pend
    · rfl
  | getBits n =>
    obtain herr | ⟨-, -, v, d, rfl⟩ := exec_getBits_cases h
    · exact herr.pend
    · rfl
  | decSym =>
    obtain herr | rfl | ⟨v, r, rfl⟩ | ⟨-, v, d, q, -, -, rfl⟩ := exec_decSym_cases h
    · exact herr.pend
    all_goals rfl
  | softReset => rw [exec_softReset h, complete_pend]

/-- An engine's turn leaves PEND empty, whatever stood in it. -/
theorem engineTurn_pend (h : engineTurn s = .next t) : t.pend = none := by
  unfold engineTurn at h
  split at h <;> rename_i hpend
  · injection h with h
    rw [← h, hpend]
  · unfold engineStep at h
    split at h
    · injection h with h
      rw [← h, raiseErr_pend]
    · exact exec_pend h

theorem EndsInError.iptr (h : EndsInError s t) : t.iptr = s.iptr := by
  obtain ⟨e, d, -, -, rfl⟩ := h
  rfl

/-- GET_BITS leaves IPTR or moves it over `n` bits below BITLEN, writing RESULT (R141). -/
theorem exec_getBits_iptr {n : Nat} (h : exec (.getBits n) s = .next t) :
    t.iptr = s.iptr ∨
    (t.iptr.toNat = s.iptr.toNat + n ∧ t.iptr.toNat ≤ s.bitlen.toNat ∧ s.bitlen.toNat ≤ 8 * s.params.ibufSize ∧
      t.status.resValid = true) := by
  obtain herr | ⟨hlen, hroom, v, d, rfl⟩ := exec_getBits_cases h
  · exact .inl herr.iptr
  · have hmove : (s.iptr + BitVec.ofNat 32 n).toNat = s.iptr.toNat + n := by
      have := s.bitlen.isLt
      rw [BitVec.toNat_add, BitVec.toNat_ofNat]
      omega
    exact .inr ⟨hmove, hmove.trans_le hroom, hlen, rfl⟩

/-- DEC_SYM leaves IPTR or moves it past at least one bit, not past BITLEN, writing RESULT (R142). -/
theorem exec_decSym_iptr (h : exec .decSym s = .next t) :
    t.iptr = s.iptr ∨
    (s.iptr.toNat < t.iptr.toNat ∧ t.iptr.toNat ≤ s.bitlen.toNat ∧ s.bitlen.toNat ≤ 8 * s.params.ibufSize ∧
      t.status.resValid = true) := by
  obtain herr | rfl | ⟨v, r, rfl⟩ | ⟨hlen, v, d, q, hq, hq', rfl⟩ := exec_decSym_cases h
  · exact .inl herr.iptr
  · exact .inl rfl
  · exact .inl rfl
  · have hend : (BitVec.ofNat 32 q).toNat = q := by
      have := s.bitlen.isLt
      rw [BitVec.toNat_ofNat]
      omega
    exact .inr ⟨hq.trans_eq hend.symm, hend.trans_le hq', hlen, rfl⟩

end Frames

/-- Settles O11: the frame of each command, from its inversion lemma. -/
theorem noCommandWritesHostState : Obligations.NoCommandWritesHostState :=
  fun _ _ _ => exec_sameHostState

/-- Settles O26: GET_BITS moves IPTR by its `n ≥ 1` bits, DEC_SYM to the end of the code its walk followed. -/
theorem decodeCommandsMoveIptrOnlyUpToBitlen : Obligations.DecodeCommandsMoveIptrOnlyUpToBitlen := by
  rintro i s t (⟨n, hn, rfl⟩ | rfl) h
  · refine (exec_getBits_iptr h).imp_right fun ⟨hmove, hend⟩ => ⟨?_, hend⟩
    omega
  · exact exec_decSym_iptr h

end Sys2Proof.Machine
end

section
/-! SUPPORT. Bus writes by the case of spec/20_memory.md R55 that decides them, and the frames of the two transactions. -/

namespace Sys2Proof.Machine

section Transactions

variable {s : State} {a : Addr} {x : Target}

/-- R55 case 2: STATUS takes its W1C write whatever BUSY is. -/
theorem busWrite_status (w : Word) (s : State) : busWrite (regOffset .status) w s = w1cStatus w s := by
  rw [busWrite, target_regOffset]

/-- R55 case 3: CMD fills PEND, or is dropped with ERR_OVERRUN. -/
theorem busWrite_cmd (w : Word) (s : State) :
    busWrite (regOffset .cmd) w s = if busy s then setErr .overrun s else { s with pend := some w } := by
  rw [busWrite, target_regOffset]

/-- R55 cases 4 to 7: a write to anything but STATUS and CMD. -/
theorem busWrite_of_target (w : Word) (h : target s.params a = some x) (hstatus : x ≠ .reg .status)
    (hcmd : x ≠ .reg .cmd) :
    busWrite a w s =
      if readOnly x then s
      else if !s.params.tablesWritable && tableTarget x then setErr .addr s
      else if busy s then setErr .busywr s
      else performWrite w s x := by
  rw [busWrite, h]
  split
  · simp_all
  · simp_all
  · simp_all
  · rename_i y _ _ hy
    obtain rfl : x = y := by simpa using hy
    rfl

/-- R55 case 4: a write to read-only state is ignored. -/
theorem busWrite_readOnly (w : Word) (h : target s.params a = some x) (hro : readOnly x = true) :
    busWrite a w s = s := by
  rw [busWrite_of_target w h (by rintro rfl; cases hro) (by rintro rfl; cases hro), if_pos hro]

theorem readOnly_of_tableTarget (h : tableTarget x = true) : readOnly x = false := by
  cases x with
  | reg r => cases r <;> simp_all [tableTarget, readOnly]
  | obuf k => cases h
  | _ => rfl

/-- R55 case 5: a write to a fixed table sets ERR_ADDR. -/
theorem busWrite_romTable (w : Word) (hrom : s.params.tablesWritable = false) (h : target s.params a = some x)
    (htable : tableTarget x = true) : busWrite a w s = setErr .addr s := by
  rw [busWrite_of_target w h (by rintro rfl; cases htable) (by rintro rfl; cases htable),
    readOnly_of_tableTarget htable, hrom, htable]
  rfl

/-! ### What a transaction leaves as it was -/

/-- A read changes the answer, the count of draws and, where it is bad, the error bits (R53, R64). -/
theorem busRead_eq (a : Addr) (s : State) :
    ∃ v d e, busRead a s = { s with answer := v, draws := d, status := { s.status with errors := e } } := by
  obtain ⟨-, h⟩ | ⟨x, -, -, -, h⟩ | ⟨x, -, -, h⟩ := busRead_cases a s
  all_goals exact ⟨_, _, _, h⟩

theorem performWrite_params (w : Word) (s : State) (x : Target) : (performWrite w s x).params = s.params := by
  cases x with
  | reg r => cases r <;> rfl
  | _ => rfl

theorem performWrite_samePacker (w : Word) (s : State) (x : Target) : samePacker s (performWrite w s x) := by
  cases x with
  | reg r => cases r <;> exact ⟨rfl, rfl, rfl, rfl, rfl, rfl⟩
  | _ => exact ⟨rfl, rfl, rfl, rfl, rfl, rfl⟩

theorem performWrite_iptr (w : Word) (s : State) (x : Target) : (performWrite w s x).iptr = s.iptr := by
  cases x with
  | reg r => cases r <;> rfl
  | _ => rfl

/-- A performed write outside the tables leaves them. -/
theorem performWrite_tables (w : Word) (s : State) (h : tableTarget x = false) :
    (performWrite w s x).tables = s.tables := by
  cases x with
  | reg r => cases r <;> simp_all [tableTarget, performWrite]
  | obuf k => rfl
  | ibuf k => rfl
  | _ => cases h

theorem busWrite_params (a : Addr) (w : Word) (s : State) : (busWrite a w s).params = s.params := by
  obtain ⟨e, h⟩ | h | h | ⟨-, -, h⟩ | ⟨x, -, -, -, -, h⟩ := busWrite_cases a w s <;> rw [h]
  · rfl
  · rfl
  · exact performWrite_params w s x

/-- No bus write changes the tables of a ROM build (R49). -/
theorem busWrite_tables_rom (a : Addr) (w : Word) (hrom : s.params.tablesWritable = false) :
    (busWrite a w s).tables = s.tables := by
  obtain ⟨e, h⟩ | h | h | ⟨-, -, h⟩ | ⟨x, -, -, -, htable, h⟩ := busWrite_cases a w s <;> rw [h]
  · rfl
  · rfl
  · obtain hwritable | hother := htable
    · simp_all
    · exact performWrite_tables w s hother

end Transactions

/-! ### The obligations on bus writes -/

/-- Bit by bit, the W1C write of `w` clears DONE and the error bits that `w` names (R26, R55 case 2). -/
theorem statusWord_w1cStatus_getLsbD (s : State) (w : Word) (j : Nat) :
    (statusWord (w1cStatus w s)).getLsbD j =
      ((statusWord s).getLsbD j && !((decide (j = 1) || decide (8 ≤ j ∧ j ≤ 19)) && w.getLsbD j)) := by
  rw [statusWord_getLsbD, statusWord_getLsbD]
  by_cases herr : 8 ≤ j ∧ j ≤ 19
  · have hin : j - 8 < 12 := by omega
    have hlow : j ≠ 0 ∧ j ≠ 1 ∧ j ≠ 2 ∧ j ≠ 3 ∧ j ≠ 4 := by omega
    simp [herr, hlow, hin]
  · by_cases hdone : j = 1
    · simp [hdone]
    · simp [herr, hdone, busy]

/-- Settles O34: the write is `w1cStatus`, which touches DONE and the error bits only. -/
theorem statusWriteClearsTheWrittenW1cBits : Obligations.StatusWriteClearsTheWrittenW1cBits := by
  intro s w
  rw [busWrite_status]
  exact ⟨statusWord_w1cStatus_getLsbD s w, rfl⟩

/-- Settles O36: the registers named and the words of the OBUF window are read-only targets. -/
theorem readOnlyWritesAreIgnored : Obligations.ReadOnlyWritesAreIgnored := by
  intro s w
  refine ⟨fun r hr => ?_, fun k hp hk => busWrite_readOnly w (target_obufAddr hp hk) rfl⟩
  have hro : readOnly (.reg r) = true := by
    revert r
    decide
  exact busWrite_readOnly w (target_regOffset s.params r) hro

/-- A ROM build comes out of reset with its images (R49, R191). -/
theorem resetTables_rom {p : Params} (hrom : p.tablesWritable = false) : resetTables p = p.romImage := by
  simp [resetTables, hrom]

/-- No step changes the build. -/
theorem step_params {s t : State} (h : step s = .next t) : t.params = s.params := by
  obtain ⟨a, rest, -, rfl⟩ | ⟨a, w, rest, -, rfl⟩ | ⟨rest, -, rfl⟩ |
    ⟨rest, -, ⟨-, rfl⟩ | ⟨w, e, -, -, rfl⟩ | ⟨w, i, -, -, hexec⟩⟩ := step_cases h
  · obtain ⟨v, d, e, hread⟩ := busRead_eq a { s with agenda := rest }
    rw [hread]
  · exact busWrite_params a w _
  · rfl
  · rfl
  · rfl
  · exact (exec_sameHostState hexec).1

/-- No step changes the tables of a ROM build that holds its images (R49). -/
theorem step_tables_rom {s t : State} (hrom : s.params.tablesWritable = false) (himage : s.tables = s.params.romImage)
    (h : step s = .next t) : t.tables = s.params.romImage := by
  obtain ⟨a, rest, -, rfl⟩ | ⟨a, w, rest, -, rfl⟩ | ⟨rest, -, rfl⟩ |
    ⟨rest, -, ⟨-, rfl⟩ | ⟨w, e, -, -, rfl⟩ | ⟨w, i, -, -, hexec⟩⟩ := step_cases h
  · obtain ⟨v, d, e, hread⟩ := busRead_eq a { s with agenda := rest }
    rw [hread]
    exact himage
  · exact (busWrite_tables_rom (s := { s with agenda := rest }) a w hrom).trans himage
  · exact resetTables_rom hrom
  · exact himage
  · exact himage
  · obtain ⟨-, -, -, -, htables, -⟩ := exec_sameHostState hexec
    exact htables.trans himage

/-- Settles O37: a ROM build resets to its images, no step writes them, and a write to a table address is bad. -/
theorem romTablesNeverChange : Obligations.RomTablesNeverChange := by
  refine ⟨fun p hrom => resetTables_rom hrom, fun s t hrom himage h => ?_, fun s w hrom => ⟨?_, ?_, ?_, ?_⟩⟩
  · rw [step_params h]
    exact ⟨rfl, step_tables_rom hrom himage h⟩
  · exact busWrite_romTable w hrom (target_regOffset _ _) rfl
  · exact busWrite_romTable w hrom (target_regOffset _ _) rfl
  · intro i hp hi
    exact ⟨busWrite_romTable w hrom (target_dtLeftAddr hp hi) rfl,
      busWrite_romTable w hrom (target_dtRightAddr hp hi) rfl⟩
  · intro i hp hi
    exact ⟨busWrite_romTable w hrom (target_ctControlAddr hp hi) rfl,
      busWrite_romTable w hrom (target_ctCodeAddr hp hi) rfl⟩

/-! ### PEND seen through the port -/

/-- A register shows that PEND is full, not which word stands in it. -/
theorem regWord_of_pending (s : State) (w w' : Word) (r : Reg) :
    regWord { s with pend := some w } r = regWord { s with pend := some w' } r := by
  cases r <;> rfl

theorem targetWord_of_pending (s : State) (w w' : Word) (x : Target) :
    targetWord { s with pend := some w } x = targetWord { s with pend := some w' } x := by
  cases x with
  | reg r => exact congrArg (·, s.draws) (regWord_of_pending s w w' r)
  | _ => rfl

theorem busyDraw_of_pending (s : State) (w w' : Word) (x : Target) :
    busyDraw { s with pend := some w } x = busyDraw { s with pend := some w' } x := by
  cases x with
  | reg r => cases r <;> rfl
  | _ => rfl

/-- No bus read tells one pending word from another (R38). -/
theorem busRead_answer_of_pending (s : State) (a : Addr) (w w' : Word) :
    (busRead a { s with pend := some w }).answer = (busRead a { s with pend := some w' }).answer := by
  unfold busRead
  cases target s.params a with
  | none => rfl
  | some x =>
    cases hx : engineWritten x
    · simp [hx, targetWord_of_pending s w w']
    · simp [hx, busy, busyDraw_of_pending s w w']

theorem busy_iff (s : State) : busy s = true ↔ s.pend ≠ none := by
  simp [busy, Option.isSome_iff_ne_none]

/-- Settles O35: CMD fills or keeps PEND by BUSY, the engine's turn and reset empty it, and a read sees BUSY alone. -/
theorem pendIsFilledByCmdAndEmptiedByTheEngineAndReset :
    Obligations.PendIsFilledByCmdAndEmptiedByTheEngineAndReset := by
  intro s
  refine ⟨?_, fun w hpend => ?_, fun w hpend => ?_, fun t rest hagenda h => ?_, rfl, rfl,
    busRead_answer_of_pending s⟩
  · rw [statusWord_getLsbD, if_pos rfl, busy_iff]
  · rw [busWrite_cmd, if_neg (mt (busy_iff s).1 (not_not_intro hpend))]
  · rw [busWrite_cmd, if_pos ((busy_iff s).2 hpend)]
    rfl
  · obtain hagenda | hagenda := hagenda
    · exact engineTurn_pend (step_of_agenda_nil hagenda ▸ h)
    · exact engineTurn_pend (step_of_agenda_engine hagenda ▸ h)

end Sys2Proof.Machine
end

section
/-! SUPPORT. Register words bit by bit and as numbers (spec/10_state.md R22 to R37), `irq` (R44), and the window addresses
as numbers (spec/20_memory.md R51). -/

namespace Sys2Proof.Machine

/-- A concatenation as a number: the high part stands above the low part's bits. -/
theorem toNat_append_eq_add {m n : Nat} (x : BitVec m) (y : BitVec n) :
    (x ++ y).toNat = x.toNat * 2 ^ n + y.toNat := by
  rw [BitVec.toNat_append, ← Nat.shiftLeft_add_eq_or_of_lt y.isLt, Nat.shiftLeft_eq]

theorem param0Word_toNat {p : Params} (hp : p.legal) :
    (param0Word p).toNat = p.symW + 2 ^ 8 * p.maxCodeLen + 2 ^ 16 * p.tablesWritable.toNat := by
  obtain ⟨hsym, hlen, -, -⟩ := hp
  simp only [param0Word, toNat_append_eq_add, BitVec.toNat_ofBool, BitVec.toNat_ofNat]
  omega

theorem param1Word_toNat {p : Params} (hp : p.legal) :
    (param1Word p).toNat = (p.obufSize - 1) + 2 ^ 16 * (p.ibufSize - 1) := by
  obtain ⟨-, -, hobuf, hibuf⟩ := hp
  simp only [param1Word, toNat_append_eq_add, BitVec.toNat_ofNat]
  omega

theorem ctrlWord_toNat (c : Ctrl) :
    (ctrlWord c).toNat =
      c.strict.toNat + 2 * c.ieDone.toNat + 2 ^ 2 * c.ieErr.toNat + 2 ^ 16 * c.spaceSym.toNat := by
  simp only [ctrlWord, toNat_append_eq_add, BitVec.toNat_ofBool, BitVec.toNat_ofNat]
  omega

theorem statusWord_toNat (s : State) :
    (statusWord s).toNat =
      s.pend.isSome.toNat + 2 * s.status.done.toNat + 2 ^ 2 * s.status.resValid.toNat + 2 ^ 3 * s.status.eos.toNat +
        2 ^ 4 * s.status.encClosed.toNat + 2 ^ 8 * s.status.errors.toNat := by
  simp only [statusWord, busy, toNat_append_eq_add, BitVec.toNat_ofBool, BitVec.toNat_ofNat]
  omega

theorem packStateWord_toNat (s : State) : (packStateWord s).toNat = s.accN.toNat + 2 ^ 8 * s.acc.toNat := by
  simp only [packStateWord, toNat_append_eq_add, BitVec.toNat_ofNat]
  omega

theorem rootWord_toNat (r : Root) :
    (rootWord r).toNat = r.val.toNat + 2 ^ 30 * r.isLeaf.toNat + 2 ^ 31 * r.valid.toNat := by
  simp only [rootWord, toNat_append_eq_add, BitVec.toNat_ofBool, BitVec.toNat_ofNat]
  omega

/-- Settles O31: each composed word as a sum of its fields; the other registers are their field. -/
theorem registerWordsSpellTheirFields : Obligations.RegisterWordsSpellTheirFields :=
  fun s hp => ⟨rfl, param0Word_toNat hp, param1Word_toNat hp, ctrlWord_toNat s.ctrl, statusWord_toNat s, rfl,
    packStateWord_toNat s, rootWord_toNat s.tables.root, rfl⟩

theorem ctrlWord_getLsbD_ieDone (c : Ctrl) : (ctrlWord c).getLsbD 1 = c.ieDone := by
  simp only [ctrlWord, BitVec.getLsbD_append]
  simp

theorem ctrlWord_getLsbD_ieErr (c : Ctrl) : (ctrlWord c).getLsbD 2 = c.ieErr := by
  simp only [ctrlWord, BitVec.getLsbD_append]
  simp

/-- Bit `8 + i` of STATUS is error bit `i` (R26, spec/60_exceptions.md R172). -/
theorem statusWord_getLsbD_error (s : State) {i : Nat} (hi : i < 12) :
    (statusWord s).getLsbD (8 + i) = s.status.errors.getLsbD i := by
  rw [statusWord_getLsbD, if_neg (by omega), if_neg (by omega), if_neg (by omega), if_neg (by omega),
    if_neg (by omega), if_pos (by omega), Nat.add_sub_cancel_left]

/-- Some error is flagged exactly when some bit of `STATUS[19:8]` is 1. -/
theorem errors_ne_zero_iff (s : State) :
    s.status.errors ≠ 0 ↔ ∃ j, 8 ≤ j ∧ j ≤ 19 ∧ (statusWord s).getLsbD j = true := by
  constructor
  · intro hne
    by_contra hnone
    refine hne (BitVec.eq_of_getLsbD_eq fun i hi => ?_)
    have hbit : (statusWord s).getLsbD (8 + i) ≠ true := fun h => hnone ⟨8 + i, by omega, by omega, h⟩
    rw [statusWord_getLsbD_error s hi] at hbit
    simpa using hbit
  · rintro ⟨j, hlow, hhigh, hbit⟩ hzero
    obtain ⟨i, rfl⟩ := Nat.exists_eq_add_of_le hlow
    rw [statusWord_getLsbD_error s (by omega), hzero] at hbit
    simp at hbit

/-- Settles O42: `irq` in the bits of CTRL and STATUS that its fields stand at. -/
theorem irqFollowsEnabledDoneAndErrorBits : Obligations.IrqFollowsEnabledDoneAndErrorBits := by
  intro s
  rw [← errors_ne_zero_iff, ctrlWord_getLsbD_ieDone, ctrlWord_getLsbD_ieErr, statusWord_getLsbD]
  simp [irq]

/-- Settles O58: no window address of a legal build wraps in the 24 bits of the port. -/
theorem addressesAreThoseOfTheMap : Obligations.AddressesAreThoseOfTheMap := by
  refine ⟨rfl, fun p hp => ?_⟩
  have halphabet := alphabet_le hp
  have hnodes : p.dtNodes = p.alphabet - 1 := rfl
  obtain ⟨-, -, hobuf, hibuf⟩ := hp
  simp only [obufAddr, ibufAddr, dtLeftAddr, dtRightAddr, ctControlAddr, ctCodeAddr, BitVec.toNat_ofNat]
  refine ⟨fun k hk => ?_, fun k hk => ?_, fun i hi => ⟨?_, ?_⟩, fun c hc => ⟨?_, ?_⟩⟩
  all_goals omega

end Sys2Proof.Machine
end

section
/-! SUPPORT. The invariant is kept (spec/10_state.md R31, R34, R48, R49, spec/41_encode.md R127): the packer's part of it
by every command, the memories' part by every bus write. -/

namespace Sys2Proof.Machine

section Invariant

variable {s t : State}

/-- The part of the invariant that speaks of the packer: OBUF, OPTR and the three facts of R127. -/
structure StreamInv (s : State) : Prop where
  obufWf        : Memory.wf s.obuf
  obufBelow     : keysBelow s.obuf s.params.obufSize
  optrBound     : s.optr.toNat ≤ s.params.obufSize
  streamWritten : ∀ i < s.optr.toNat, (Memory.read? s.obuf i).isSome = true
  packer        : PackerInv s

theorem Inv.stream (h : Inv s) : StreamInv s :=
  ⟨h.obufWf, h.obufBelow, h.optrBound, h.streamWritten, h.packer⟩

/-- The invariant of a state whose host state is an earlier one's. -/
theorem Inv.of_stream (h : Inv s) (hparams : t.params = s.params) (htables : t.tables = s.tables)
    (hibuf : t.ibuf = s.ibuf) (hstream : StreamInv t) (hiptr : t.iptr.toNat ≤ 8 * s.params.ibufSize) : Inv t where
  build := hparams ▸ h.build
  tables := hparams ▸ htables ▸ h.tables
  romFixed := hparams ▸ htables ▸ h.romFixed
  obufWf := hstream.obufWf
  obufBelow := hstream.obufBelow
  ibufWf := hibuf ▸ h.ibufWf
  ibufBelow := hparams ▸ hibuf ▸ h.ibufBelow
  optrBound := hstream.optrBound
  streamWritten := hstream.streamWritten
  iptrBound := hparams ▸ hiptr
  packer := hstream.packer

/-- The packer's part depends on the build and the packer alone. -/
theorem StreamInv.congr (h : StreamInv s) (hparams : t.params = s.params) (hsame : samePacker s t) : StreamInv t := by
  obtain ⟨hacc, haccN, hoptr, hbitcount, hclosed, hobuf⟩ := hsame
  obtain ⟨obufWf, obufBelow, optrBound, streamWritten, whileOpen, whileClosed, accLow⟩ := h
  constructor
  · rwa [hobuf]
  · rwa [hobuf, hparams]
  · rwa [hoptr, hparams]
  · rwa [hoptr, hobuf]
  · constructor
    · rwa [hclosed, hbitcount, hoptr, haccN]
    · rwa [hclosed, hbitcount, hoptr, haccN]
    · rwa [hacc, haccN]

/-- An empty open stream: what ENC_INIT, SOFT_RESET and `rst` leave (R121, R161, R191). -/
theorem StreamInv.of_empty (hwf : Memory.wf t.obuf) (hbelow : keysBelow t.obuf t.params.obufSize) (hacc : t.acc = 0)
    (haccN : t.accN = 0) (hoptr : t.optr = 0) (hbitcount : t.bitcount = 0) (hopen : t.status.encClosed = false) :
    StreamInv t where
  obufWf := hwf
  obufBelow := hbelow
  optrBound := by simp [hoptr]
  streamWritten := by simp [hoptr]
  packer := ⟨by simp [hoptr, haccN, hbitcount], by simp [hopen], by simp [hacc]⟩

/-- `PushBits` into an open stream keeps the packer's part: BITCOUNT counts the bits (R120, R127). -/
theorem StreamInv.pushBits {n : Nat} {v : Word} (h : StreamInv s) (hp : s.params.legal)
    (hopen : s.status.encClosed = false) (hpush : pushBits n v s = .ok t) : StreamInv t := by
  have hsize : s.params.obufSize ≤ 65536 := hp.2.2.1.2.2
  obtain ⟨-, herr⟩ | ⟨hroom, q, hq, hok⟩ := pushBits_spec n v s hsize
  · rw [herr] at hpush
    cases hpush
  · rw [hok] at hpush
    obtain rfl := Except.ok.inj hpush
    have hcount : 8 * q.optr.toNat + q.accN.toNat = 8 * s.optr.toNat + s.accN.toNat + n :=
      hq.count.trans (by rw [length_bitsOf]; rfl)
    have hbits := h.packer.whileOpen hopen
    have haccN := q.accN.isLt
    have hoptr : q.optr.toNat ≤ s.params.obufSize := by omega
    exact
      { obufWf := hq.wf h.obufWf
        obufBelow := hq.below _ h.obufBelow hoptr
        optrBound := hoptr
        streamWritten := hq.written h.streamWritten
        packer :=
          { whileOpen := fun _ => by
              show (s.bitcount + BitVec.ofNat 32 n).toNat = 8 * q.optr.toNat + q.accN.toNat
              rw [BitVec.toNat_add, BitVec.toNat_ofNat]
              omega
            whileClosed := fun hclosed => absurd (hopen.symm.trans hclosed) Bool.false_ne_true
            accLow := hq.accLow h.packer.accLow } }

/-- FLUSH of pending bits: the byte at OPTR is the last of the `ceil(BITCOUNT / 8)` (R125, R127). -/
theorem StreamInv.flushByte (h : StreamInv s) (hp : s.params.legal) (hopen : s.status.encClosed = false)
    (hpending : 0 < s.accN.toNat) (hroom : s.optr.toNat + 1 ≤ s.params.obufSize) :
    StreamInv { s with obuf := Memory.write s.obuf s.optr.toNat s.acc, optr := s.optr + 1, acc := 0, accN := 0,
                       status := { s.status with encClosed := true } } := by
  have hsize : s.params.obufSize ≤ 65536 := hp.2.2.1.2.2
  have hbits := h.packer.whileOpen hopen
  have haccN := s.accN.isLt
  have hoptr : (s.optr + 1).toNat = s.optr.toNat + 1 := by bv_omega
  have hlast : s.optr.toNat + 1 = (s.bitcount.toNat + 7) / 8 := by omega
  exact
    { obufWf := Memory.wf_write h.obufWf _ _
      obufBelow := Memory.below_write h.obufBelow hroom _
      optrBound := hoptr.trans_le hroom
      streamWritten := fun i hi => by
        rw [hoptr] at hi
        rw [Memory.read?_write]
        split
        · rfl
        · exact h.streamWritten i (by omega)
      packer := ⟨nofun, fun _ => ⟨rfl, hoptr.trans hlast⟩, by simp⟩ }

/-- FLUSH with nothing pending closes a stream of whole bytes (R125, R127). -/
theorem StreamInv.close (h : StreamInv s) (hopen : s.status.encClosed = false) (hnone : s.accN.toNat = 0) :
    StreamInv { s with status := { s.status with encClosed := true } } := by
  have hbits := h.packer.whileOpen hopen
  have hwhole : s.optr.toNat = (s.bitcount.toNat + 7) / 8 := by omega
  exact ⟨h.obufWf, h.obufBelow, h.optrBound, h.streamWritten,
    ⟨nofun, fun _ => ⟨BitVec.eq_of_toNat_eq hnone, hwhole⟩, h.packer.accLow⟩⟩

theorem StreamInv.complete (h : StreamInv s) (b : Bool) : StreamInv (complete b s) :=
  h.congr rfl ⟨rfl, rfl, rfl, rfl, rfl, rfl⟩

theorem StreamInv.setErr (h : StreamInv s) (e : ErrFlag) : StreamInv (setErr e s) :=
  h.congr rfl ⟨rfl, rfl, rfl, rfl, rfl, rfl⟩

theorem StreamInv.withDraws (h : StreamInv s) (d : Nat) : StreamInv (withDraws d s) :=
  h.congr rfl ⟨rfl, rfl, rfl, rfl, rfl, rfl⟩

theorem EndsInError.streamInv (h : StreamInv s) (herr : EndsInError s t) : StreamInv t := by
  obtain ⟨e, d, -, -, rfl⟩ := herr
  exact h.congr rfl ⟨rfl, rfl, rfl, rfl, rfl, rfl⟩

/-- Every command keeps the packer's part of the invariant. -/
theorem exec_streamInv {i : Instr} (hp : s.params.legal) (hs : StreamInv s) (h : exec i s = .next t) :
    StreamInv t := by
  cases i with
  | nop =>
    obtain rfl := exec_nop h
    exact hs.complete false
  | encInit =>
    obtain rfl := exec_encInit h
    exact .of_empty hs.obufWf hs.obufBelow rfl rfl rfl rfl rfl
  | putBits n =>
    obtain herr | ⟨hopen, u, hpush, rfl⟩ := exec_putBits_cases h
    · exact herr.streamInv hs
    · exact (hs.pushBits hp hopen hpush).complete false
  | encSym sym =>
    obtain herr | ⟨hopen, f, u, -, hpush, rfl⟩ := exec_encSym_cases h
    · exact herr.streamInv hs
    · have packed : StreamInv u := (hs.withDraws (lookup s sym).2).pushBits hp hopen hpush
      cases f.fallback
      · exact packed.complete false
      · exact (packed.setErr .missing).complete false
  | flush =>
    obtain herr | ⟨-, rfl⟩ | ⟨hopen, hpending, hroom, rfl⟩ | ⟨hopen, hnone, rfl⟩ := exec_flush_cases h
    · exact herr.streamInv hs
    · exact hs.complete false
    · exact (hs.flushByte hp hopen hpending hroom).complete false
    · exact (hs.close hopen hnone).complete false
  | decInit =>
    obtain herr | rfl := exec_decInit_cases h
    · exact herr.streamInv hs
    · exact hs.congr rfl ⟨rfl, rfl, rfl, rfl, rfl, rfl⟩
  | getBits n =>
    obtain herr | ⟨-, -, v, d, rfl⟩ := exec_getBits_cases h
    · exact herr.streamInv hs
    · exact hs.congr rfl ⟨rfl, rfl, rfl, rfl, rfl, rfl⟩
  | decSym =>
    obtain herr | rfl | ⟨v, r, rfl⟩ | ⟨-, v, d, q, -, -, rfl⟩ := exec_decSym_cases h
    · exact herr.streamInv hs
    all_goals exact hs.congr rfl ⟨rfl, rfl, rfl, rfl, rfl, rfl⟩
  | softReset =>
    obtain rfl := exec_softReset h
    exact .of_empty hs.obufWf hs.obufBelow rfl rfl rfl rfl rfl

theorem pushBits_iptr {n : Nat} {v : Word} (h : pushBits n v s = .ok t) : t.iptr = s.iptr := by
  obtain ⟨q, rfl⟩ := pushBits_ok h
  rfl

/-- No command moves IPTR past the end of IBUF (R34, R48). -/
theorem exec_iptr_le {i : Instr} (hs : s.iptr.toNat ≤ 8 * s.params.ibufSize) (h : exec i s = .next t) :
    t.iptr.toNat ≤ 8 * s.params.ibufSize := by
  have kept (hsame : t.iptr = s.iptr) : t.iptr.toNat ≤ 8 * s.params.ibufSize := hsame ▸ hs
  have cleared (hzero : t.iptr = 0) : t.iptr.toNat ≤ 8 * s.params.ibufSize := by simp [hzero]
  cases i with
  | nop => exact kept (by rw [exec_nop h, complete_iptr])
  | encInit => exact kept (by rw [exec_encInit h, complete_iptr])
  | putBits n =>
    obtain herr | ⟨-, u, hpush, rfl⟩ := exec_putBits_cases h
    · exact kept herr.iptr
    · exact kept (by rw [complete_iptr, pushBits_iptr hpush])
  | encSym sym =>
    obtain herr | ⟨-, f, u, -, hpush, rfl⟩ := exec_encSym_cases h
    · exact kept herr.iptr
    · refine kept ?_
      rw [complete_iptr]
      split <;> exact (pushBits_iptr hpush :)
  | flush =>
    obtain herr | ⟨-, rfl⟩ | ⟨-, -, -, rfl⟩ | ⟨-, -, rfl⟩ := exec_flush_cases h
    · exact kept herr.iptr
    all_goals exact kept rfl
  | decInit =>
    obtain herr | rfl := exec_decInit_cases h
    · exact kept herr.iptr
    · exact cleared rfl
  | getBits n =>
    obtain hsame | ⟨-, hend, hlen, -⟩ := exec_getBits_iptr h
    · exact kept hsame
    · exact hend.trans hlen
  | decSym =>
    obtain hsame | ⟨-, hend, hlen, -⟩ := exec_decSym_iptr h
    · exact kept hsame
    · exact hend.trans hlen
  | softReset => exact cleared (by rw [exec_softReset h, complete_iptr])

theorem exec_inv {i : Instr} (hs : Inv s) (h : exec i s = .next t) : Inv t := by
  obtain ⟨hparams, -, -, -, htables, hibuf, -, -⟩ := exec_sameHostState h
  exact hs.of_stream hparams htables hibuf (exec_streamInv hs.build.legal hs.stream h)
    (exec_iptr_le hs.iptrBound h)

/-- The invariant speaks of the build, the tables, the buffers, the packer and IPTR alone. -/
theorem Inv.congr (hs : Inv s) (hparams : t.params = s.params) (htables : t.tables = s.tables)
    (hibuf : t.ibuf = s.ibuf) (hiptr : t.iptr = s.iptr) (hpacker : samePacker s t) : Inv t :=
  hs.of_stream hparams htables hibuf (hs.stream.congr hparams hpacker) (hiptr ▸ hs.iptrBound)

theorem TablesWf.empty (p : Params) : TablesWf p .empty := by
  constructor <;> simp [TableImage.empty]

theorem hardReset_inv (hs : Inv s) : Inv (hardReset s) where
  build := hs.build
  tables := by
    show TablesWf s.params (resetTables s.params)
    unfold resetTables
    split
    · exact .empty _
    · exact hs.build.image
  romFixed := resetTables_rom
  obufWf := .nil
  obufBelow := by simp
  ibufWf := .nil
  ibufBelow := by simp
  optrBound := by simp [hardReset, State.resetOf]
  streamWritten := by simp [hardReset, State.resetOf]
  iptrBound := by simp [hardReset, State.resetOf]
  packer := (StreamInv.of_empty (t := hardReset s) .nil (by simp) rfl rfl rfl rfl rfl).packer

/-- A performed write to a mapped address keeps CT and DT canonical and in range (R56, R57). -/
theorem performWrite_tablesWf {a : Addr} {x : Target} (w : Word) (hp : s.params.legal)
    (hs : TablesWf s.params s.tables) (hx : target s.params a = some x) :
    TablesWf s.params (performWrite w s x).tables := by
  obtain ⟨-, -, hnode, hsym⟩ := target_bounds hp hx
  cases x with
  | reg r =>
    cases r with
    | root => exact { hs with }
    | degenWeight => exact { hs with }
    | _ => exact hs
  | obuf k => exact hs
  | ibuf k => exact hs
  | dtLeft i =>
    exact { hs with
      leftWf := Memory.wf_write hs.leftWf _ _
      leftBelow := Memory.below_write hs.leftBelow (hnode i (.inl rfl)) _ }
  | dtRight i =>
    exact { hs with
      rightWf := Memory.wf_write hs.rightWf _ _
      rightBelow := Memory.below_write hs.rightBelow (hnode i (.inr rfl)) _ }
  | ctControl i =>
    exact { hs with
      controlWf := Memory.wf_write hs.controlWf _ _
      controlBelow := Memory.below_write hs.controlBelow (hsym i (.inl rfl)) _ }
  | ctCode i =>
    exact { hs with
      codeWf := Memory.wf_write hs.codeWf _ _
      codeBelow := Memory.below_write hs.codeBelow (hsym i (.inr rfl)) _ }

theorem writeLanes_wf {m : Memory Byte} (hm : Memory.wf m) (k : Nat) (w : Word) : Memory.wf (writeLanes m k w) :=
  Memory.wf_write (Memory.wf_write (Memory.wf_write (Memory.wf_write hm _ _) _ _) _ _) _ _

theorem writeLanes_below {m : Memory Byte} {n k : Nat} (hm : keysBelow m n) (hk : k + 3 < n) (w : Word) :
    keysBelow (writeLanes m k w) n :=
  Memory.below_write (Memory.below_write (Memory.below_write (Memory.below_write hm (by omega) _) (by omega) _)
    (by omega) _) hk _

/-- A performed write to a mapped address keeps IBUF canonical and in range (R59, R60). -/
theorem performWrite_ibuf_wf_below {a : Addr} {x : Target} (w : Word) (hs : Inv s) (hx : target s.params a = some x) :
    Memory.wf (performWrite w s x).ibuf ∧ keysBelow (performWrite w s x).ibuf s.params.ibufSize := by
  obtain ⟨-, hbyte, -, -⟩ := target_bounds hs.build.legal hx
  cases x with
  | ibuf k => exact ⟨writeLanes_wf hs.ibufWf k w, writeLanes_below hs.ibufBelow (hbyte k rfl).2 w⟩
  | reg r => cases r <;> exact ⟨hs.ibufWf, hs.ibufBelow⟩
  | _ => exact ⟨hs.ibufWf, hs.ibufBelow⟩

theorem performWrite_inv {a : Addr} {x : Target} (w : Word) (hs : Inv s) (hx : target s.params a = some x)
    (hrom : s.params.tablesWritable = true ∨ tableTarget x = false) : Inv (performWrite w s x) := by
  have hparams := performWrite_params w s x
  have hstream := hs.stream.congr hparams (performWrite_samePacker w s x)
  have htables := performWrite_tablesWf w hs.build.legal hs.tables hx
  obtain ⟨hibufWf, hibufBelow⟩ := performWrite_ibuf_wf_below w hs hx
  exact
    { build := hparams ▸ hs.build
      tables := hparams ▸ htables
      romFixed := fun hfixed => by
        rw [hparams] at hfixed ⊢
        obtain hwritable | hother := hrom
        · simp_all
        · rw [performWrite_tables w s hother, hs.romFixed hfixed]
      obufWf := hstream.obufWf
      obufBelow := hstream.obufBelow
      ibufWf := hibufWf
      ibufBelow := hparams ▸ hibufBelow
      optrBound := hstream.optrBound
      streamWritten := hstream.streamWritten
      iptrBound := by rw [hparams, performWrite_iptr]; exact hs.iptrBound
      packer := hstream.packer }

theorem busWrite_inv (a : Addr) (w : Word) (hs : Inv s) : Inv (busWrite a w s) := by
  obtain ⟨e, h⟩ | h | h | ⟨-, -, h⟩ | ⟨x, hx, -, -, hrom, h⟩ := busWrite_cases a w s <;> rw [h]
  · exact hs.congr rfl rfl rfl rfl ⟨rfl, rfl, rfl, rfl, rfl, rfl⟩
  · exact hs
  · exact hs.congr rfl rfl rfl rfl ⟨rfl, rfl, rfl, rfl, rfl, rfl⟩
  · exact hs.congr rfl rfl rfl rfl ⟨rfl, rfl, rfl, rfl, rfl, rfl⟩
  · exact performWrite_inv w hs hx hrom

theorem busRead_inv (a : Addr) (hs : Inv s) : Inv (busRead a s) := by
  obtain ⟨v, d, e, h⟩ := busRead_eq a s
  rw [h]
  exact hs.congr rfl rfl rfl rfl ⟨rfl, rfl, rfl, rfl, rfl, rfl⟩

end Invariant

/-- Settles O45: one preservation lemma per kind of turn, the agenda being no part of the invariant. -/
theorem everyStepKeepsTheInvariant : Obligations.EveryStepKeepsTheInvariant := by
  intro s t hs h
  have moved (rest : List Turn) : Inv { s with agenda := rest } :=
    hs.congr rfl rfl rfl rfl ⟨rfl, rfl, rfl, rfl, rfl, rfl⟩
  obtain ⟨a, rest, -, rfl⟩ | ⟨a, w, rest, -, rfl⟩ | ⟨rest, -, rfl⟩ |
    ⟨rest, -, ⟨-, rfl⟩ | ⟨w, e, -, -, rfl⟩ | ⟨w, i, -, -, hexec⟩⟩ := step_cases h
  · exact busRead_inv a (moved rest)
  · exact busWrite_inv a w (moved rest)
  · exact hardReset_inv (moved rest)
  · exact moved rest
  · exact (moved rest).congr rfl rfl rfl rfl ⟨rfl, rfl, rfl, rfl, rfl, rfl⟩
  · exact exec_inv (moved rest) hexec

end Sys2Proof.Machine
end

section
/-! SUPPORT. ENC_SYM over an entry that `Lookup` found (spec/41_encode.md R123, R124), its code word written or not. -/

namespace Sys2Proof.Machine

section EncSym

variable {s : State} {sym : Nat}

/-- ENC_SYM where `Lookup` finds a code and `PushBits` takes it (R124). -/
theorem exec_encSym_of_pushed {f : Found} {d : Nat} {u : State} (hopen : s.status.encClosed = false)
    (hfound : lookup s sym = (.ok f, d)) (hpush : pushBits f.len f.code (withDraws d s) = .ok u) :
    exec (.encSym sym) s = .next (complete false (if f.fallback then setErr .missing u else u)) := by
  show execEncSym sym s = _
  rw [execEncSym, hopen, hfound]
  simp only [hpush]
  rfl

/-- ENC_SYM in an open stream with room for the code found: its bits are pushed, and MISSING marks a fallback (R124). -/
theorem exec_encSym_of_found {f : Found} {d : Nat} (hp : s.params.legal) (hopen : s.status.encClosed = false)
    (hfound : lookup s sym = (.ok f, d)) (hroom : s.optr.toNat + (s.accN.toNat + f.len) / 8 ≤ s.params.obufSize) :
    ∃ q, Pushed (packerOf s) q (bitsOf f.code f.len) ∧
      exec (.encSym sym) s = .next { s with
        acc := q.acc, accN := q.accN, optr := q.optr, obuf := q.obuf,
        bitcount := s.bitcount + BitVec.ofNat 32 f.len, draws := d, pend := none,
        status := { s.status with
          errors := if f.fallback then s.status.errors ||| errMask .missing else s.status.errors,
          resValid := false, done := true } } := by
  obtain ⟨hfull, -⟩ | ⟨-, q, hq, hpush⟩ := pushBits_spec f.len f.code (withDraws d s) hp.2.2.1.2.2
  · exact absurd hroom (Nat.not_le.2 hfull)
  · refine ⟨q, hq, ?_⟩
    rw [exec_encSym_of_pushed hopen hfound hpush]
    cases f.fallback <;> rfl

/-- A code word nothing has written is a draw, and one draw is counted (spec/10_state.md R43). -/
theorem ctCode_unwritten {e d : Nat} (h : Memory.read? s.tables.ctCode e = none) :
    ctCode s e d = (Config.draw d 32, d + 1) := by
  simp [ctCode, readCell, h]

end EncSym

/-- The bits pushed carry OPTR and ACC_N on by their number, in bytes and a rest. -/
theorem Pushed.optr_accN {p q : Packer} {bits : List Bool} (h : Pushed p q bits) :
    q.optr.toNat = p.optr.toNat + (p.accN.toNat + bits.length) / 8 ∧
    q.accN.toNat = (p.accN.toNat + bits.length) % 8 := by
  have hcount := h.count
  have hp := p.accN.isLt
  have hq := q.accN.isLt
  omega

/-- Settles O17: `Lookup` finds a code of LEN bits whatever the draw is, and ENC_SYM pushes it as it pushes any code. -/
theorem encSymOfAnUnwrittenCodeWordPacksADraw : Obligations.EncSymOfAnUnwrittenCodeWordPacksADraw := by
  intro s sym entry fb len hp _ hopen hchoose hcontrol hcode hpos hmax hroom
  have hfound : lookup s sym =
      (.ok { len := len.toNat, code := Config.draw s.draws 32, fallback := fb }, s.draws + 1) := by
    rw [lookup_of_control hchoose hcontrol, ctCode_unwritten hcode, if_neg (by omega)]
  obtain ⟨q, hq, hexec⟩ := exec_encSym_of_found hp hopen hfound hroom
  obtain ⟨hoptr, haccN⟩ := hq.optr_accN
  rw [length_bitsOf] at hoptr haccN
  refine ⟨_, Config.draw s.draws 32, hexec, hq.stream, hoptr, haccN, hq.accLow, rfl, rfl, rfl, fun a ha => ?_,
    ⟨rfl, rfl, rfl, rfl, rfl, rfl, rfl, rfl⟩, ⟨rfl, rfl, rfl, rfl⟩, rfl⟩
  exact hq.outside a (ha.imp_right hoptr.trans_le)

end Sys2Proof.Machine
end

section
/-! SUPPORT. Which bytes of OBUF a storing command stores (spec/20_memory.md R63, spec/41_encode.md R120, R125). -/

namespace Sys2Proof.Machine

section Storing

variable {s t : State}

/-- From `s` to `t` the packer stored bytes of OBUF only from the old OPTR up to the new one, inside the buffer, and the
unpacker is as it was. -/
def StoresBetweenOptrs (s t : State) : Prop :=
  s.optr.toNat ≤ t.optr.toNat ∧ t.optr.toNat ≤ s.params.obufSize ∧
  (∀ a, a < s.optr.toNat ∨ t.optr.toNat ≤ a → Memory.read? t.obuf a = Memory.read? s.obuf a) ∧ sameUnpacker s t

/-- What moves neither OPTR nor a byte of OBUF stores nothing. -/
theorem storesBetweenOptrs_of_same (hbound : s.optr.toNat ≤ s.params.obufSize) (hoptr : t.optr = s.optr)
    (hobuf : t.obuf = s.obuf) (hunpacker : sameUnpacker s t) : StoresBetweenOptrs s t := by
  rw [StoresBetweenOptrs, hoptr, hobuf]
  exact ⟨le_refl _, hbound, fun _ _ => rfl, hunpacker⟩

theorem EndsInError.storesBetweenOptrs (h : EndsInError s t) (hbound : s.optr.toNat ≤ s.params.obufSize) :
    StoresBetweenOptrs s t := by
  obtain ⟨e, d, -, -, rfl⟩ := h
  exact storesBetweenOptrs_of_same hbound rfl rfl ⟨rfl, rfl, rfl, rfl⟩

/-- `PushBits` stores the bytes its bits fill, and has checked that they fit (R120). -/
theorem pushBits_storesBetweenOptrs {n : Nat} {v : Word} (hp : s.params.legal) (h : pushBits n v s = .ok t) :
    StoresBetweenOptrs s t := by
  obtain ⟨-, herr⟩ | ⟨hroom, q, hq, hok⟩ := pushBits_spec n v s hp.2.2.1.2.2
  · rw [herr] at h
    cases h
  · rw [hok] at h
    obtain rfl := Except.ok.inj h
    obtain ⟨hoptr, -⟩ := hq.optr_accN
    rw [length_bitsOf] at hoptr
    exact ⟨hq.optr_mono, hoptr.trans_le hroom, hq.outside, rfl, rfl, rfl, rfl⟩

/-- FLUSH stores at most the byte at OPTR (R125). -/
theorem exec_flush_storesBetweenOptrs (hp : s.params.legal) (hbound : s.optr.toNat ≤ s.params.obufSize)
    (h : exec .flush s = .next t) : StoresBetweenOptrs s t := by
  obtain herr | ⟨-, rfl⟩ | ⟨-, -, hroom, rfl⟩ | ⟨-, -, rfl⟩ := exec_flush_cases h
  · exact herr.storesBetweenOptrs hbound
  · exact storesBetweenOptrs_of_same hbound rfl rfl ⟨rfl, rfl, rfl, rfl⟩
  · have hsize : s.params.obufSize ≤ 65536 := hp.2.2.1.2.2
    have hoptr : (s.optr + 1).toNat = s.optr.toNat + 1 := by bv_omega
    rw [StoresBetweenOptrs, complete_optr, complete_obuf, hoptr]
    exact ⟨Nat.le_succ _, hroom, fun a ha => Memory.read?_write_ne _ _ (by omega), rfl, rfl, rfl, rfl⟩
  · exact storesBetweenOptrs_of_same hbound rfl rfl ⟨rfl, rfl, rfl, rfl⟩

/-- The three commands that store bytes of OBUF, on every path (R63). -/
theorem exec_storesBetweenOptrs {i : Instr} (hp : s.params.legal) (hbound : s.optr.toNat ≤ s.params.obufSize)
    (hi : (∃ n, i = .putBits n) ∨ (∃ sym, i = .encSym sym) ∨ i = .flush) (h : exec i s = .next t) :
    StoresBetweenOptrs s t := by
  obtain ⟨n, rfl⟩ | ⟨sym, rfl⟩ | rfl := hi
  · obtain herr | ⟨-, u, hpush, rfl⟩ := exec_putBits_cases h
    · exact herr.storesBetweenOptrs hbound
    · have packed : StoresBetweenOptrs s u := pushBits_storesBetweenOptrs hp hpush
      exact packed
  · obtain herr | ⟨-, f, u, -, hpush, rfl⟩ := exec_encSym_cases h
    · exact herr.storesBetweenOptrs hbound
    · have packed : StoresBetweenOptrs s u :=
        pushBits_storesBetweenOptrs (s := withDraws (lookup s sym).2 s) hp hpush
      cases f.fallback <;> exact packed
  · exact exec_flush_storesBetweenOptrs hp hbound h

end Storing

/-- Settles O19: the bytes `PushBits` and FLUSH store, and the frame every command keeps. -/
theorem storingCommandsStoreOnlyBetweenOldAndNewOptr : Obligations.StoringCommandsStoreOnlyBetweenOldAndNewOptr := by
  intro i s t hp hbound hi h
  obtain ⟨hmono, hroom, houtside, hunpacker⟩ := exec_storesBetweenOptrs hp hbound hi h
  exact ⟨hmono, hroom, houtside, hunpacker, exec_sameHostState h⟩

end Sys2Proof.Machine
end

section
/-! SUPPORT. Bus reads by the case of spec/20_memory.md R54 that decides them, bad accesses (R53), and what a busy read
shows (R69). -/

namespace Sys2Proof.Machine

section Reads

variable {s : State} {a : Addr} {x : Target}

theorem busRead_bad (h : target s.params a = none) : busRead a s = { setErr .addr s with answer := some 0 } := by
  rw [busRead, h]

theorem busWrite_bad (w : Word) (h : target s.params a = none) : busWrite a w s = setErr .addr s := by
  rw [busWrite, h]

/-- A read that R69 does not turn into a draw answers the word the address names (R54). -/
theorem busRead_of_target (h : target s.params a = some x) (hexact : busy s = false ∨ engineWritten x = false) :
    busRead a s = { s with answer := some (targetWord s x).1, draws := (targetWord s x).2 } := by
  have hcase : (busy s && engineWritten x) = false := Bool.and_eq_false_iff.2 hexact
  rw [busRead, h]
  simp only [hcase]
  rfl

/-- A read of engine-written state while BUSY = 1 takes one draw (R69). -/
theorem busRead_of_busy (h : target s.params a = some x) (hb : busy s = true) (hx : engineWritten x = true) :
    busRead a s = { s with answer := some (busyDraw s x), draws := s.draws + 1 } := by
  rw [busRead, h]
  simp only [hb, hx]
  rfl

/-- A register read exactly changes the answer alone. -/
theorem busRead_reg {r : Reg} (hexact : busy s = false ∨ engineWritten (.reg r) = false) :
    busRead (regOffset r) s = { s with answer := some (regWord s r) } :=
  busRead_of_target (target_regOffset s.params r) hexact

theorem targetWord_withAnswer (s : State) (v : Option Word) (x : Target) :
    targetWord { s with answer := v } x = targetWord s x := by
  cases x with
  | reg r => cases r <;> rfl
  | _ => rfl

theorem busyDraw_withAnswer (s : State) (v : Option Word) (x : Target) :
    busyDraw { s with answer := v } x = busyDraw s x := by
  cases x with
  | reg r => cases r <;> rfl
  | _ => rfl

/-- No read depends on what an earlier one returned (log 7). -/
theorem busRead_withAnswer (a : Addr) (s : State) (v : Option Word) :
    busRead a { s with answer := v } = busRead a s := by
  cases h : target s.params a with
  | none => rw [busRead_bad h, busRead_bad (s := { s with answer := v }) h]; rfl
  | some x =>
    cases hcase : busy s && engineWritten x
    · have hexact := Bool.and_eq_false_iff.1 hcase
      rw [busRead_of_target h hexact, busRead_of_target (s := { s with answer := v }) h hexact, targetWord_withAnswer]
    · obtain ⟨hb, hx⟩ := (Bool.and_eq_true_iff).1 hcase
      rw [busRead_of_busy h hb hx, busRead_of_busy (s := { s with answer := v }) h hb hx, busyDraw_withAnswer]

/-- A good read changes the answer and the count of draws, and the latter only upwards (R64, log 4, 7). -/
theorem busRead_good (h : target s.params a = some x) :
    ∃ v d, busRead a s = { s with answer := some v, draws := d } ∧ s.draws ≤ d := by
  obtain ⟨hbad, -⟩ | ⟨y, -, -, -, hread⟩ | ⟨y, -, -, hread⟩ := busRead_cases a s
  · simp [h] at hbad
  · exact ⟨_, _, hread, Nat.le_succ _⟩
  · exact ⟨_, _, hread, targetWord_draws_le s y⟩

theorem performWrite_pend (w : Word) (s : State) (x : Target) : (performWrite w s x).pend = s.pend := by
  cases x with
  | reg r => cases r <;> rfl
  | _ => rfl

/-- Only a write to CMD touches PEND (R38, R64). -/
theorem busWrite_pend (w : Word) (h : a ≠ regOffset .cmd) : (busWrite a w s).pend = s.pend := by
  obtain ⟨e, hw⟩ | hw | hw | ⟨hcmd, -⟩ | ⟨x, -, -, -, -, hw⟩ := busWrite_cases a w s
  · rw [hw, setErr_pend]
  · rw [hw]
  · rw [hw, w1cStatus_pend]
  · exact absurd hcmd h
  · rw [hw, performWrite_pend]

/-- What a busy read of STATUS shows: BUSY, and a draw in every other bit (R69, log 19). -/
theorem getLsbD_busyDraw_status (s : State) (j : Nat) :
    (busyDraw s (.reg .status)).getLsbD j = (decide (j = 0) || (Config.draw s.draws 32).getLsbD j) := by
  simp [busyDraw, BitVec.getLsbD_or, Bool.or_comm]

theorem targetWord_withPend (s : State) (v : Option Word) (h : engineWritten x = false) :
    targetWord { s with pend := v } x = targetWord s x := by
  cases x with
  | reg r =>
    cases r with
    | status => cases h
    | _ => rfl
  | _ => rfl

/-- A read of state the engine does not write is blind to PEND (R69). -/
theorem busRead_answer_withPend (v : Option Word) (h : target s.params a = some x) (hx : engineWritten x = false) :
    (busRead a s).answer = (busRead a { s with pend := v }).answer := by
  rw [busRead_of_target h (.inr hx), busRead_of_target (s := { s with pend := v }) h (.inr hx),
    targetWord_withPend s v hx]

end Reads

/-! ### The obligations on bus reads -/

/-- Settles O30: the read of an idle block at a register's offset. -/
theorem idleReadReturnsTheRegister : Obligations.IdleReadReturnsTheRegister :=
  fun _ _ hb => busRead_reg (.inl hb)

/-- Settles O32: the map names nothing at exactly these addresses. -/
theorem badAccessSetsErrAddrAndNothingElse : Obligations.BadAccessSetsErrAddrAndNothingElse := by
  intro s a w hbad
  have hnone := (target_none_iff s.params a).2 hbad
  exact ⟨busRead_bad hnone, busWrite_bad w hnone⟩

/-- Settles O33: a read that draws nothing changes the answer alone, which no read looks at, and only CMD fills PEND. -/
theorem goodReadHasNoSideEffect : Obligations.GoodReadHasNoSideEffect := by
  refine ⟨fun s a haligned hmapped => ?_, fun s a w => busWrite_pend w⟩
  have hsome : target s.params a ≠ none := by
    simp [target_none_iff, haligned, hmapped]
  obtain ⟨x, hx⟩ := Option.ne_none_iff_exists'.1 hsome
  obtain ⟨v, d, hread, hdraws⟩ := busRead_good hx
  refine ⟨v, d, hread, hdraws, fun hd => ?_⟩
  subst hd
  calc busRead a (busRead a s) = busRead a { s with answer := some v } := by rw [hread]
    _ = busRead a s := busRead_withAnswer a s (some v)

/-- Settles O41: engine-written targets take a draw, the others read the same with PEND full or empty. -/
theorem busyReadsShowBusyAndExactHostState : Obligations.BusyReadsShowBusyAndExactHostState := by
  intro s hp hb
  refine ⟨⟨busyDraw s (.reg .status), s.draws, ?_, ?_, fun j hj => ?_⟩, fun r hr => ⟨s.draws, ?_⟩,
    fun k hk => ⟨s.draws, ?_⟩, fun r hr => ?_, fun a ha => ?_⟩
  · rw [busRead_of_busy (target_regOffset _ _) hb rfl]
  · simp [getLsbD_busyDraw_status]
  · simp [getLsbD_busyDraw_status, Nat.ne_of_gt hj]
  · have hx : engineWritten (.reg r) = true ∧ busyDraw s (.reg r) = Config.draw s.draws 32 := by
      fin_cases hr <;> exact ⟨rfl, rfl⟩
    rw [busRead_of_busy (target_regOffset _ _) hb hx.1, hx.2]
  · rw [busRead_of_busy (target_obufAddr hp hk) hb rfl]
    rfl
  · have hx : engineWritten (.reg r) = false := by
      revert r
      decide
    exact busRead_reg (.inr hx)
  · obtain ⟨k, hk, rfl⟩ | ⟨i, hi, rfl | rfl⟩ | ⟨i, hi, rfl | rfl⟩ := ha
    · exact busRead_answer_withPend none (target_ibufAddr hp hk) rfl
    · exact busRead_answer_withPend none (target_dtLeftAddr hp hi) rfl
    · exact busRead_answer_withPend none (target_dtRightAddr hp hi) rfl
    · exact busRead_answer_withPend none (target_ctControlAddr hp hi) rfl
    · exact busRead_answer_withPend none (target_ctCodeAddr hp hi) rfl

end Sys2Proof.Machine
end

section
/-! SUPPORT. Writes that are performed (spec/20_memory.md R55 case 7), what they read back as, and the byte lanes of a
window word (R60). -/

namespace Sys2Proof.Machine

/-! ### Host-written state -/

/-- The targets R55 case 7 writes. -/
def hostWritten : Target → Bool
  | .reg .ctrl | .reg .data | .reg .bitlen | .reg .root | .reg .degenWeight => true
  | .ibuf _ | .dtLeft _ | .dtRight _ | .ctControl _ | .ctCode _ => true
  | _ => false

/-- The word written to a target as it reads back: its reserved bits are 0 (R25, R35, R56, R57). -/
def readBack (w : Word) : Target → Word
  | .reg .ctrl             => w &&& 0xFFFF0007
  | .reg .root             => w &&& 0xC000FFFF
  | .dtLeft _ | .dtRight _ => w &&& 0x8000FFFF
  | .ctControl _           => w &&& 0x8000003F
  | _                      => w

section Writes

variable {s : State} {a : Addr} {x : Target}

theorem readOnly_of_hostWritten (h : hostWritten x = true) : readOnly x = false := by
  cases x with
  | reg r => cases r <;> simp_all [hostWritten, readOnly]
  | obuf k => cases h
  | _ => rfl

theorem busWrite_hostWritten (w : Word) (h : target s.params a = some x) (hb : busy s = false)
    (hx : hostWritten x = true) (htable : tableTarget x = true → s.params.tablesWritable = true) :
    busWrite a w s = performWrite w s x :=
  busWrite_performs w h hb (readOnly_of_hostWritten hx) htable (by rintro rfl; cases hx) (by rintro rfl; cases hx)

/-! ### The fields of a word, back as a word -/

theorem ctrlWord_ctrlOfWord (w : Word) : ctrlWord (ctrlOfWord w) = w &&& 0xFFFF0007 := by
  refine BitVec.eq_of_getLsbD_eq fun i hi => ?_
  simp only [ctrlWord, ctrlOfWord, BitVec.getLsbD_append, BitVec.getLsbD_and]
  interval_cases i <;> simp

theorem rootWord_rootOfWord (w : Word) : rootWord (rootOfWord w) = w &&& 0xC000FFFF := by
  refine BitVec.eq_of_getLsbD_eq fun i hi => ?_
  simp only [rootWord, rootOfWord, BitVec.getLsbD_append, BitVec.getLsbD_and]
  interval_cases i <;> simp

theorem descWord_descOfWord (w : Word) : descWord (descOfWord w) = w &&& 0x8000FFFF := by
  refine BitVec.eq_of_getLsbD_eq fun i hi => ?_
  simp only [descWord, descOfWord, BitVec.getLsbD_append, BitVec.getLsbD_and]
  interval_cases i <;> simp

theorem ctControlWord_ctControlOfWord (w : Word) :
    ctControlWord (ctControlOfWord w).valid (ctControlOfWord w).len = w &&& 0x8000003F := by
  refine BitVec.eq_of_getLsbD_eq fun i hi => ?_
  simp only [ctControlWord, ctControlOfWord, BitVec.getLsbD_append, BitVec.getLsbD_and]
  interval_cases i <;> simp

/-! ### Read after write -/

theorem readDesc_write_same (m : Memory Desc) (i d : Nat) (c : Desc) : readDesc (Memory.write m i c) i d = (c, d) :=
  readCell_written (Memory.read?_write_same m i c)

/-- A host-written target holds what the last performed write stored, and no draw is involved (R54, R55 case 7). -/
theorem targetWord_performWrite (w : Word) (s : State) (hx : hostWritten x = true) :
    targetWord (performWrite w s x) x = (readBack w x, s.draws) := by
  cases x with
  | reg r =>
    cases r with
    | ctrl => exact congrArg (·, s.draws) (ctrlWord_ctrlOfWord w)
    | root => exact congrArg (·, s.draws) (rootWord_rootOfWord w)
    | data => rfl
    | bitlen => rfl
    | degenWeight => rfl
    | _ => cases hx
  | obuf k => cases hx
  | ibuf k => exact readLanes_writeLanes s.ibuf k w s.draws
  | dtLeft i => simp only [targetWord, performWrite, readDesc_write_same, descWord_descOfWord, readBack]
  | dtRight i => simp only [targetWord, performWrite, readDesc_write_same, descWord_descOfWord, readBack]
  | ctControl t =>
    simp only [targetWord, performWrite, ctValid, ctLen, Memory.read?_write_same, ctControlWord_ctControlOfWord, readBack]
  | ctCode t => exact readCell_written (Memory.read?_write_same s.tables.ctCode t w)

/-- A word written to host-written state of an idle block reads back without its reserved bits. -/
theorem busRead_busWrite_answer (w : Word) (h : target s.params a = some x) (hb : busy s = false)
    (hx : hostWritten x = true) (htable : tableTarget x = true → s.params.tablesWritable = true) :
    (busRead a (busWrite a w s)).answer = some (readBack w x) := by
  have htarget : target (performWrite w s x).params a = some x := by rwa [performWrite_params]
  have hidle : busy (performWrite w s x) = false := by rwa [busy, performWrite_pend]
  rw [busWrite_hostWritten w h hb hx htable, busRead_of_target htarget (.inl hidle), targetWord_performWrite w s hx]

/-! ### Byte lanes -/

/-- The bytes of a concatenation of four. -/
theorem extractLsb'_append_bytes (b : Nat → Byte) {j : Nat} (hj : j < 4) :
    (b 3 ++ b 2 ++ b 1 ++ b 0).extractLsb' (8 * j) 8 = b j := by
  obtain rfl | rfl | rfl | rfl : j = 0 ∨ j = 1 ∨ j = 2 ∨ j = 3 := by omega
  · exact BitVec.extractLsb'_append_eq_right
  · rw [BitVec.extractLsb'_append_eq_of_le (by decide)]
    exact BitVec.extractLsb'_append_eq_right
  · rw [BitVec.extractLsb'_append_eq_of_le (by decide), BitVec.extractLsb'_append_eq_of_le (by decide)]
    exact BitVec.extractLsb'_append_eq_right
  · rw [BitVec.extractLsb'_append_eq_of_le (by decide), BitVec.extractLsb'_append_eq_of_le (by decide),
      BitVec.extractLsb'_append_eq_of_le (by decide)]
    exact BitVec.extractLsb'_eq_self

/-- The draws counted before byte `k + j` of a word read (R43, log 5). -/
def laneDraws (m : Memory Byte) (k d : Nat) : Nat → Nat
  | 0     => d
  | j + 1 => (readByte m (k + j) (laneDraws m k d j)).2

theorem readLanes_eq (m : Memory Byte) (k d : Nat) :
    readLanes m k d =
      ((readByte m (k + 3) (laneDraws m k d 3)).1 ++ (readByte m (k + 2) (laneDraws m k d 2)).1 ++
        (readByte m (k + 1) (laneDraws m k d 1)).1 ++ (readByte m (k + 0) (laneDraws m k d 0)).1, laneDraws m k d 4) := rfl

/-- A window word shows each written byte at its lane, whatever the others hold (R60). -/
theorem extractLsb'_readLanes {m : Memory Byte} {k j : Nat} {b : Byte} (d : Nat) (hj : j < 4)
    (h : Memory.read? m (k + j) = some b) : (readLanes m k d).1.extractLsb' (8 * j) 8 = b := by
  rw [readLanes_eq]
  have hlane := extractLsb'_append_bytes (fun j => (readByte m (k + j) (laneDraws m k d j)).1) hj
  exact hlane.trans (congrArg Prod.fst (readCell_written h))

end Writes

/-- Settles O39: each writable word is one host-written target. -/
theorem writtenWordReadsBackWithoutReservedBits : Obligations.WrittenWordReadsBackWithoutReservedBits := by
  intro s w hp hb
  refine ⟨?_, ?_, ?_, fun k hk => ?_, fun hwritable => ⟨?_, ?_, fun i hi => ⟨?_, ?_⟩, fun i hi => ⟨?_, ?_⟩⟩⟩
  · exact busRead_busWrite_answer w (target_regOffset _ .ctrl) hb rfl nofun
  · exact busRead_busWrite_answer w (target_regOffset _ .data) hb rfl nofun
  · exact busRead_busWrite_answer w (target_regOffset _ .bitlen) hb rfl nofun
  · exact busRead_busWrite_answer w (target_ibufAddr hp hk) hb rfl nofun
  · exact busRead_busWrite_answer w (target_regOffset _ .root) hb rfl fun _ => hwritable
  · exact busRead_busWrite_answer w (target_regOffset _ .degenWeight) hb rfl fun _ => hwritable
  · exact busRead_busWrite_answer w (target_dtLeftAddr hp hi) hb rfl fun _ => hwritable
  · exact busRead_busWrite_answer w (target_dtRightAddr hp hi) hb rfl fun _ => hwritable
  · exact busRead_busWrite_answer w (target_ctControlAddr hp hi) hb rfl fun _ => hwritable
  · exact busRead_busWrite_answer w (target_ctCodeAddr hp hi) hb rfl fun _ => hwritable

/-- Settles O40: the four bytes a word write stores, and the four a word read joins. -/
theorem byteLanesAreLittleEndian : Obligations.ByteLanesAreLittleEndian := by
  intro s k hp hb
  have hwrite (w : Word) (hk : 4 * k < s.params.ibufSize) :
      (busWrite (ibufAddr k) w s).ibuf = writeLanes s.ibuf (4 * k) w :=
    congrArg State.ibuf (busWrite_hostWritten w (target_ibufAddr hp hk) hb rfl nofun)
  refine ⟨fun w j hk hj => ?_, fun w a hk ha => ?_, fun hk => ⟨_, ?_, fun j b => extractLsb'_readLanes s.draws⟩,
    fun hk => ⟨_, ?_, fun j b => extractLsb'_readLanes s.draws⟩⟩
  · rw [hwrite w hk, read?_writeLanes, if_pos (by omega), Nat.add_sub_cancel_left]
  · rw [hwrite w hk, read?_writeLanes, if_neg (by omega)]
  · rw [busRead_of_target (target_ibufAddr hp hk) (.inl hb)]
    rfl
  · rw [busRead_of_target (target_obufAddr hp hk) (.inl hb)]
    rfl

/-- Settles O59: the address, as a number, is that of a host-written target, and the write stores into it alone. -/
theorem performedWriteChangesOnlyItsTarget : Obligations.PerformedWriteChangesOnlyItsTarget := by
  intro s a w hp hb
  obtain ⟨-, hmap⟩ := addressesAreThoseOfTheMap
  obtain ⟨-, hibuf, hdt, hct⟩ := hmap s.params hp
  have performs {x : Target} {b : Addr} (ha : a.toNat = b.toNat) (h : target s.params b = some x)
      (hx : hostWritten x = true) (htable : tableTarget x = true → s.params.tablesWritable = true) :
      busWrite a w s = performWrite w s x :=
    busWrite_hostWritten w (BitVec.eq_of_toNat_eq ha ▸ h) hb hx htable
  refine ⟨fun ha => ?_, fun ha => ?_, fun ha => ?_, fun k hk ha => ?_, fun hwritable =>
    ⟨fun ha => ?_, fun ha => ?_, fun i hi ha => ?_, fun i hi ha => ?_, fun c hc ha => ?_, fun c hc ha => ?_⟩⟩
  · exact performs (b := regOffset .ctrl) ha (target_regOffset _ _) rfl nofun
  · exact performs (b := regOffset .data) ha (target_regOffset _ _) rfl nofun
  · exact performs (b := regOffset .bitlen) ha (target_regOffset _ _) rfl nofun
  · exact ⟨_, performs (ha.trans (hibuf k hk).symm) (target_ibufAddr hp hk) rfl nofun, read?_writeLanes _ _ w⟩
  · exact performs (b := regOffset .root) ha (target_regOffset _ _) rfl fun _ => hwritable
  · exact performs (b := regOffset .degenWeight) ha (target_regOffset _ _) rfl fun _ => hwritable
  · exact ⟨_, performs (ha.trans (hdt i hi).1.symm) (target_dtLeftAddr hp hi) rfl fun _ => hwritable,
      fun x => Memory.read?_write _ _ x _⟩
  · exact ⟨_, performs (ha.trans (hdt i hi).2.symm) (target_dtRightAddr hp hi) rfl fun _ => hwritable,
      fun x => Memory.read?_write _ _ x _⟩
  · exact ⟨_, performs (ha.trans (hct c hc).1.symm) (target_ctControlAddr hp hc) rfl fun _ => hwritable,
      fun x => Memory.read?_write _ _ x _⟩
  · exact ⟨_, performs (ha.trans (hct c hc).2.symm) (target_ctCodeAddr hp hc) rfl fun _ => hwritable,
      fun x => Memory.read?_write _ _ x _⟩

end Sys2Proof.Machine
end

section
/-! SUPPORT. The decoder inverted (spec/30_encoding.md R87, R92): a word decodes to a command exactly when it is well-formed
and the word spells its opcode and its operand. -/

namespace Sys2Proof

section Decoder

variable {p : Params} {w : Word} {i : Instr}

theorem formatZ_eq_ok_iff {j : Instr} : formatZ w j = .ok i ↔ i = j ∧ w.toNat % 2 ^ 28 = 0 := by
  rw [formatZ, ← low28_eq_zero]
  split <;> simp_all [eq_comm]

theorem formatN_eq_ok_iff {f : Nat → Instr} :
    formatN w f = .ok i ↔ ∃ n, i = f n ∧ 1 ≤ n ∧ n ≤ 32 ∧ w.toNat % 2 ^ 28 = n - 1 := by
  have hbits : w.extractLsb' 5 23 = 0 ↔ w.toNat % 2 ^ 28 < 2 ^ 5 := by rw [mid23_eq_zero]; omega
  rw [formatN, countField_eq]
  constructor
  · intro h
    split at h
    · cases h
      exact ⟨_, rfl, by omega, by omega, by have := hbits.1 ‹_›; omega⟩
    · cases h
  · rintro ⟨n, rfl, hn, hn', hw⟩
    rw [if_pos (hbits.2 (by omega)), show w.toNat % 2 ^ 5 + 1 = n by omega]

theorem formatS_eq_ok_iff {f : Nat → Instr} :
    formatS p w f = .ok i ↔ ∃ c, i = f c ∧ c < p.alphabet ∧ c < 2 ^ 16 ∧ w.toNat % 2 ^ 28 = c := by
  have hbits : w.extractLsb' 16 12 = 0 ↔ w.toNat % 2 ^ 28 < 2 ^ 16 := by rw [mid12_eq_zero]; omega
  rw [formatS, symField_eq]
  constructor
  · intro h
    split at h
    · split at h
      · cases h
        exact ⟨_, rfl, ‹_›, by omega, by have := hbits.1 ‹_›; omega⟩
      · cases h
    · cases h
  · rintro ⟨c, rfl, halpha, hc, hw⟩
    have hsym : w.toNat % 2 ^ 16 = c := by omega
    rw [if_pos (hbits.2 (by omega)), hsym, if_pos halpha]

/-- The decode function and `Encode` are inverse relations (R87, R92): the word of a command is its opcode above its operand,
and a symbol has only the 16 bits of SYM. -/
theorem decode_eq_ok_iff :
    decode p w = .ok i ↔
      i.wf p = true ∧ operandBits i < 2 ^ 16 ∧ w.toNat / 2 ^ 28 = opcode i ∧ w.toNat % 2 ^ 28 = operandBits i := by
  rw [decode, opcField_eq]
  constructor
  · intro h
    split at h
    case h_10 => cases h
    case h_3 | h_7 =>
      obtain ⟨n, rfl, hn, hn', hw⟩ := formatN_eq_ok_iff.1 h
      exact ⟨decide_eq_true ⟨hn, hn'⟩, by simp only [operandBits]; omega, ‹_›, hw⟩
    case h_4 =>
      obtain ⟨c, rfl, halpha, hc, hw⟩ := formatS_eq_ok_iff.1 h
      exact ⟨decide_eq_true halpha, hc, ‹_›, hw⟩
    all_goals
      obtain ⟨rfl, hw⟩ := formatZ_eq_ok_iff.1 h
      exact ⟨rfl, by decide, ‹_›, hw⟩
  · rintro ⟨hwf, hsmall, hopc, hw⟩
    rw [hopc]
    cases i with
    | putBits n | getBits n =>
      obtain ⟨hn, hn'⟩ := of_decide_eq_true hwf
      exact formatN_eq_ok_iff.2 ⟨n, rfl, hn, hn', hw⟩
    | encSym c => exact formatS_eq_ok_iff.2 ⟨c, rfl, of_decide_eq_true hwf, hsmall, hw⟩
    | _ => exact formatZ_eq_ok_iff.2 ⟨rfl, hw⟩

end Decoder

/-- Settles O1: the word of a well-formed command has its opcode and its operand as quotient and remainder by `2^28`. -/
theorem encodedCommandDecodesBack : Obligations.EncodedCommandDecodesBack := by
  intro p i hp hwf
  have hsmall := operandBits_lt hp hwf
  have hword := encode_toNat hp hwf
  exact decode_eq_ok_iff.2 ⟨hwf, hsmall, by omega, by omega⟩

/-- Settles O2: a word is its quotient and its remainder by `2^28`. -/
theorem decodedWordIsTheEncodingOfItsCommand : Obligations.DecodedWordIsTheEncodingOfItsCommand := by
  intro p w i h
  obtain ⟨hwf, -, hopc, hw⟩ := decode_eq_ok_iff.1 h
  refine ⟨hwf, ?_⟩
  have hword : opcode i <<< 28 + operandBits i = w.toNat := by
    rw [Nat.shiftLeft_eq, ← hopc, ← hw, Nat.div_add_mod']
  rw [encode, hword, BitVec.ofNat_toNat, BitVec.setWidth_eq]

end Sys2Proof
end

section
/-! SUPPORT. Operands, illegal words and the rows of the opcode map (spec/30_encoding.md R82 to R86). -/

namespace Sys2Proof

/-! ### Illegal words -/

/-- A format refuses a word by its own check or by what it checks next. -/
theorem exists_error_ite {c : Prop} [Decidable c] {x : Except Illegal Instr} {e : Illegal} :
    (∃ e', (if c then x else .error e) = .error e') ↔ (c → ∃ e', x = .error e') := by
  by_cases h : c <;> simp [h]

/-- The three conditions of R85, opcode by opcode. -/
theorem decode_eq_error_iff (p : Params) (w : Word) :
    (∃ e, decode p w = .error e) ↔
      (w.toNat / 2 ^ 28 ∈ [0, 1, 4, 5, 7, 8] ∧ w.toNat % 2 ^ 28 ≠ 0) ∨
      (w.toNat / 2 ^ 28 ∈ [2, 6] ∧ w.toNat % 2 ^ 28 / 2 ^ 5 ≠ 0) ∨
      (w.toNat / 2 ^ 28 = 3 ∧ (w.toNat % 2 ^ 28 / 2 ^ 16 ≠ 0 ∨ p.alphabet ≤ w.toNat % 2 ^ 16)) ∨
      9 ≤ w.toNat / 2 ^ 28 := by
  rw [decode_eq]
  split
  case h_10 =>
    have hreserved : 9 ≤ w.toNat / 2 ^ 28 := by
      simp only [imp_false] at *
      omega
    exact iff_of_true ⟨_, rfl⟩ (.inr (.inr (.inr hreserved)))
  all_goals
    rename_i hopc
    rw [hopc]
    simp [exists_error_ite, imp_iff_not_or]

/-! ### The opcode map -/

/-- How many operand bits a command's word has (R81). -/
def operandWidth : Instr → Nat
  | .putBits _ | .getBits _ => 5
  | .encSym _               => 16
  | _                       => 0

theorem operandBits_lt_operandWidth {p : Params} {i : Instr} (hwf : i.wf p = true) (h : operandBits i < 2 ^ 16) :
    operandBits i < 2 ^ operandWidth i := by
  cases i with
  | putBits n | getBits n =>
    obtain ⟨hn, hn'⟩ := of_decide_eq_true hwf
    simp only [operandBits, operandWidth]
    omega
  | encSym c => exact h
  | _ => decide

theorem opcode_lt (i : Instr) : opcode i < opcodeMap.length := by
  cases i <;> simp [opcode, opcodeMap]

/-- The row of a command: the map lists the rows in the order of their opcodes (R82). -/
def rowOf (i : Instr) : OpcodeRow := opcodeMap[opcode i]'(opcode_lt i)

theorem rowOf_congr {i j : Instr} (h : opcode i = opcode j) : rowOf i = rowOf j := by
  simp only [rowOf, h]

theorem exists_rowOf_of_mem {r : OpcodeRow} (h : r ∈ opcodeMap) : ∃ i, rowOf i = r := by
  have hrows : [Instr.nop, .encInit, .putBits 1, .encSym 0, .flush, .decInit, .getBits 1, .decSym,
      .softReset].map rowOf = opcodeMap := rfl
  rw [← hrows] at h
  obtain ⟨i, -, rfl⟩ := List.mem_map.1 h
  exact ⟨i, rfl⟩

@[simp] theorem rowOf_mnemonic (i : Instr) : (rowOf i).mnemonic = mnemonic i := by
  cases i <;> rfl

theorem rowOf_pattern_opcode (i : Instr) : (rowOf i).pattern.toNat / 2 ^ 28 = opcode i := by
  cases i <;> simp [rowOf, opcode, opcodeMap]

theorem rowOf_pattern_operand (i : Instr) : (rowOf i).pattern.toNat % 2 ^ 28 = 0 := by
  cases i <;> simp [rowOf, opcode, opcodeMap]

/-- A row's mask is every bit above the operand. -/
theorem rowOf_mask (i : Instr) : (rowOf i).mask = BitVec.allOnes 32 <<< operandWidth i := by
  cases i <;> simp [rowOf, opcode, operandWidth, opcodeMap]

/-- The mnemonic tells the opcode. -/
theorem findIdx_mnemonic (i : Instr) : opcodeMap.findIdx (·.mnemonic == mnemonic i) = opcode i := by
  cases i <;> rfl

theorem opcode_congr {i j : Instr} (h : mnemonic i = mnemonic j) : opcode i = opcode j := by
  rw [← findIdx_mnemonic, h, findIdx_mnemonic]

theorem and_allOnes_shiftLeft {n : Nat} (w : BitVec n) (k : Nat) : w &&& BitVec.allOnes n <<< k = (w >>> k) <<< k := by
  ext i hi
  by_cases h : i < k
  · simp [h]
  · simp [h, hi, show k + (i - k) = i by omega]

/-- A mask of the bits from `k` on clears the bits below `k`. -/
theorem toNat_and_allOnes_shiftLeft {n : Nat} (w : BitVec n) (k : Nat) :
    (w &&& BitVec.allOnes n <<< k).toNat = w.toNat / 2 ^ k * 2 ^ k := by
  have hle : w.toNat / 2 ^ k * 2 ^ k < 2 ^ n := lt_of_le_of_lt (Nat.div_mul_le_self _ _) w.isLt
  rw [and_allOnes_shiftLeft, BitVec.toNat_shiftLeft, BitVec.toNat_ushiftRight, Nat.shiftLeft_eq,
    Nat.shiftRight_eq_div_pow, Nat.mod_eq_of_lt hle]

/-- A word selects a command's row when it has that opcode and no bit above that operand (R82). -/
theorem rowOf_selects_iff (i : Instr) (w : Word) :
    (rowOf i).selects w = true ↔ w.toNat / 2 ^ 28 = opcode i ∧ w.toNat % 2 ^ 28 < 2 ^ operandWidth i := by
  have hopc := rowOf_pattern_opcode i
  have hoperand := rowOf_pattern_operand i
  have hwidth : operandWidth i = 0 ∨ operandWidth i = 5 ∨ operandWidth i = 16 := by
    cases i <;> simp [operandWidth]
  rw [OpcodeRow.selects, beq_iff_eq, rowOf_mask, ← BitVec.toNat_inj, toNat_and_allOnes_shiftLeft]
  rcases hwidth with h | h | h <;> rw [h] <;> omega

/-- A word that decodes to a command selects its row. -/
theorem rowOf_selects_of_decode {p : Params} {w : Word} {i : Instr} (h : decode p w = .ok i) :
    (rowOf i).selects w = true := by
  obtain ⟨hwf, hsmall, hopc, hoperand⟩ := decode_eq_ok_iff.1 h
  exact (rowOf_selects_iff i w).2 ⟨hopc, hoperand ▸ operandBits_lt_operandWidth hwf hsmall⟩

/-- A word that selects a command's row decodes to a command of that row, its symbol permitting (R82, R85). -/
theorem exists_decode_of_rowOf_selects {p : Params} {w : Word} {i : Instr} (h : (rowOf i).selects w = true)
    (hsym : mnemonic i = "ENC_SYM" → w.toNat % 2 ^ 16 < p.alphabet) :
    ∃ j, decode p w = .ok j ∧ mnemonic j = mnemonic i := by
  obtain ⟨hopc, hlt⟩ := (rowOf_selects_iff i w).1 h
  cases i with
  | putBits n =>
    have hcount : w.toNat % 2 ^ 28 < 32 := hlt
    exact ⟨.putBits (w.toNat % 2 ^ 28 + 1),
      decode_eq_ok_iff.2 ⟨decide_eq_true ⟨by omega, by omega⟩, by simp only [operandBits]; omega, hopc, rfl⟩, rfl⟩
  | getBits n =>
    have hcount : w.toNat % 2 ^ 28 < 32 := hlt
    exact ⟨.getBits (w.toNat % 2 ^ 28 + 1),
      decode_eq_ok_iff.2 ⟨decide_eq_true ⟨by omega, by omega⟩, by simp only [operandBits]; omega, hopc, rfl⟩, rfl⟩
  | encSym c =>
    have hbelow := hsym rfl
    have hsymbol : w.toNat % 2 ^ 28 < 2 ^ 16 := hlt
    exact ⟨.encSym (w.toNat % 2 ^ 28), decode_eq_ok_iff.2 ⟨decide_eq_true (by omega), hlt, hopc, rfl⟩, rfl⟩
  | _ => exact ⟨_, decode_eq_ok_iff.2 ⟨rfl, by decide, hopc, Nat.lt_one_iff.1 hlt⟩, rfl⟩

/-! ### The obligations on words -/

/-- Settles O4: the rows selected by one word have one opcode, and both a row and the command decoded are told by it. -/
theorem opcodeMapDecidesTheCommand : Obligations.OpcodeMapDecidesTheCommand := by
  refine ⟨fun w r hr r' hr' hsel hsel' => ?_, fun p w r hr => ?_⟩
  · obtain ⟨i, rfl⟩ := exists_rowOf_of_mem hr
    obtain ⟨j, rfl⟩ := exists_rowOf_of_mem hr'
    obtain ⟨hi, -⟩ := (rowOf_selects_iff i w).1 hsel
    obtain ⟨hj, -⟩ := (rowOf_selects_iff j w).1 hsel'
    exact rowOf_congr (hi.symm.trans hj)
  · obtain ⟨i, rfl⟩ := exists_rowOf_of_mem hr
    rw [rowOf_mnemonic]
    constructor
    · rintro ⟨j, hj, hname⟩
      rw [← rowOf_congr (opcode_congr hname), ← hname]
      refine ⟨rowOf_selects_of_decode hj, fun hsym => ?_⟩
      cases j with
      | encSym c =>
        obtain ⟨hwf, hsmall, -, hoperand⟩ := decode_eq_ok_iff.1 hj
        have hbelow : c < p.alphabet := of_decide_eq_true hwf
        simp only [operandBits] at hsmall hoperand
        omega
      | _ => simp [mnemonic] at hsym
    · rintro ⟨hsel, hsym⟩
      exact exists_decode_of_rowOf_selects hsel hsym

/-- Settles O5: the operand is what the word holds below its opcode. -/
theorem operandFieldsAreReadAsWritten : Obligations.OperandFieldsAreReadAsWritten := by
  refine ⟨fun p w n h => ?_, fun p w c h => ?_, by decide, by decide, by decide, by decide, by decide⟩
  · obtain h | h := h
    all_goals
      obtain ⟨hwf, -, -, hoperand⟩ := decode_eq_ok_iff.1 h
      have hcount : 1 ≤ n ∧ n ≤ 32 := of_decide_eq_true hwf
      simp only [operandBits] at hoperand
      omega
  · obtain ⟨-, hsmall, -, hoperand⟩ := decode_eq_ok_iff.1 h
    simp only [operandBits] at hsmall hoperand
    omega

end Sys2Proof
end

section
/-! SUPPORT. The engine's turn by what PEND decodes to (spec/30_encoding.md R85, R90). -/

namespace Sys2Proof.Machine

section Engine

variable {s : State} {w : Word} {rest : List Turn}

/-- The engine moves when its turn comes, and when no turn is to come (log 3). -/
theorem step_of_engine_moves (h : s.agenda = .engine :: rest ∨ s.agenda = [] ∧ rest = []) :
    step s = engineTurn { s with agenda := rest } := by
  obtain h | ⟨h, rfl⟩ := h
  · exact step_of_agenda_engine h
  · rw [step_of_agenda_nil h, ← h]

theorem engineTurn_of_illegal {e : Illegal} (hpend : s.pend = some w) (h : decode s.params w = .error e) :
    engineTurn s = .next (raiseErr .illegal s) := by
  simp only [engineTurn, engineStep, hpend, h]

theorem engineTurn_of_decode {i : Instr} (hpend : s.pend = some w) (h : decode s.params w = .ok i) :
    engineTurn s = exec i s := by
  simp only [engineTurn, engineStep, hpend, h]

end Engine

/-- Settles O3: the words that decode to nothing, and the error an engine's turn raises on one. -/
theorem wordIsIllegalExactlyUnderTheThreeConditions : Obligations.WordIsIllegalExactlyUnderTheThreeConditions := by
  refine ⟨decode_eq_error_iff, fun s w e rest hpend hillegal hmoves => ?_⟩
  rw [step_of_engine_moves hmoves, engineTurn_of_illegal (s := { s with agenda := rest }) hpend hillegal]
  rfl

/-- Settles O6: the engine's turn on a word that decodes, on the agenda or after its end. -/
theorem engineStepRunsTheDecodedCommand : Obligations.EngineStepRunsTheDecodedCommand := by
  intro s w i rest hpend hdecode
  constructor
  · intro hagenda
    rw [step_of_agenda_nil hagenda, engineTurn_of_decode hpend hdecode]
  · intro hagenda
    rw [step_of_agenda_engine hagenda, engineTurn_of_decode (s := { s with agenda := rest }) hpend hdecode]

end Sys2Proof.Machine
end

section
/-! SUPPORT. Runs of the machine along the agenda, and the run of an issued command (spec/30_encoding.md R91, R92). -/

namespace Sys2Proof.Machine

/-- Every command answers a next state (spec/60_exceptions.md R170). -/
theorem exec_total (i : Instr) (s : State) : ∃ t, exec i s = .next t := by
  cases i
  all_goals
    simp only [exec, execNop, execEncInit, execPutBits, execEncSym, execFlush, execDecInit, execGetBits, execDecSym,
      decSymLeafRoot, decSymWalk, execSoftReset]
    repeat' split
    all_goals exact ⟨_, rfl⟩

section Runs

variable {M : Host.Core} {s t u : State} {x : Turn} {ts ts' rest : List Turn}

theorem run_succ {s t : M.State} (n : Nat) (h : M.step s = .next t) : M.run (n + 1) s = M.run n t := by
  rw [Host.Core.run, h]

theorem run_add {s t : M.State} (m n : Nat) (h : M.run m s = .next t) : M.run (m + n) s = M.run n t := by
  induction m generalizing s with
  | zero =>
    obtain rfl : s = t := by injection h
    rw [Nat.zero_add]
  | succ m ih =>
    rw [Host.Core.run] at h
    split at h
    · rename_i u hu
      rw [Nat.succ_add, run_succ _ hu, ih h]
    · cases h
    · cases h

/-- The state with the turns still to come replaced. -/
def withAgenda (ts : List Turn) (s : State) : State := { s with agenda := ts }

theorem withAgenda_self (h : s.agenda = ts) : withAgenda ts s = s := by
  rw [← h]
  rfl

/-- The machine runs through the turns `ts`, at the front of any agenda, from `s` to `t`; the agendas of `s` and `t`
themselves play no part. -/
def Runs (ts : List Turn) (s t : State) : Prop :=
  ∀ rest, Host.Core.run core ts.length (withAgenda (ts ++ rest) s) = .next (withAgenda rest t)

theorem Runs.nil (s : State) : Runs [] s s := fun _ => rfl

theorem Runs.append (h : Runs ts s t) (h' : Runs ts' t u) : Runs (ts ++ ts') s u := by
  intro rest
  rw [List.append_assoc, List.length_append, run_add _ _ (h (ts' ++ rest)), h' rest]

theorem Runs.of_step (h : ∀ rest, step (withAgenda (x :: rest) s) = .next (withAgenda rest t)) : Runs [x] s t :=
  fun rest => run_succ (M := core) 0 (h rest)

/-- A write to CMD of an idle block fills PEND (R55 case 3). -/
theorem runs_writeCmd (w : Word) (hpend : s.pend = none) : Runs [wrReg .cmd w] s { s with pend := some w } := by
  refine .of_step fun rest => ?_
  have hidle : ¬ busy (withAgenda rest s) = true := by simp [busy, withAgenda, hpend]
  have hwrite : busWrite (regOffset .cmd) w (withAgenda rest s) = withAgenda rest { s with pend := some w } := by
    rw [busWrite_cmd, if_neg hidle]
    rfl
  exact (step_of_agenda_busWrite rfl).trans (congrArg _ hwrite)

/-- A poll of a busy block draws its answer and changes nothing else (R69). -/
theorem runs_busyPoll (hb : busy s = true) :
    Runs [rdReg .status] s { s with answer := some (busyDraw s (.reg .status)), draws := s.draws + 1 } := by
  refine .of_step fun rest => ?_
  have hread := busRead_of_busy (s := withAgenda rest s) (target_regOffset s.params .status) hb rfl
  exact (step_of_agenda_busRead rfl).trans (congrArg _ hread)

/-- However many polls find the block busy, they draw their answers and change nothing else (R91, log 17). -/
theorem runs_waits (waits : Nat) (hb : busy s = true) :
    ∃ v, Runs (List.replicate waits (rdReg .status)) s { s with answer := v, draws := s.draws + waits } := by
  induction waits generalizing s with
  | zero => exact ⟨s.answer, .nil s⟩
  | succ waits ih =>
    obtain ⟨v, hrest⟩ := ih (s := { s with answer := some (busyDraw s (.reg .status)), draws := s.draws + 1 }) hb
    refine ⟨v, ?_⟩
    rw [List.replicate_succ, ← List.singleton_append, Nat.add_comm waits, ← Nat.add_assoc]
    exact (runs_busyPoll hb).append hrest

theorem busy_of_pend_none (h : s.pend = none) : busy s = false := by
  rw [busy, h]
  rfl

/-- A poll of an idle block answers STATUS (R54). -/
theorem step_idlePoll (h : s.agenda = rdReg .status :: rest) (hpend : s.pend = none) :
    step s = .next { s with agenda := rest, answer := some (statusWord s) } := by
  have hread := busRead_reg (s := { s with agenda := rest }) (r := .status) (.inl (busy_of_pend_none hpend))
  exact (step_of_agenda_busRead h).trans (congrArg _ hread)

/-- The state with the command `i` pending and `waits` polls answered, `v` the last answer, `ts` still to come. -/
def issued (i : Instr) (waits : Nat) (v : Option Word) (ts : List Turn) (s : State) : State :=
  { s with pend := some (encode i), agenda := ts, answer := v, draws := s.draws + waits }

/-- The run up to the engine's turn on an issued command (R92). -/
theorem run_issue (i : Instr) (waits : Nat) (hpend : s.pend = none) (hagenda : s.agenda = issue i waits ++ rest) :
    ∃ v, Host.Core.run core (waits + 1) s = .next (issued i waits v (.engine :: rdReg .status :: rest) s) := by
  obtain ⟨v, hwaits⟩ := runs_waits (s := { s with pend := some (encode i) }) waits rfl
  have hrun := (runs_writeCmd (encode i) hpend).append hwaits (.engine :: rdReg .status :: rest)
  have hself : s.agenda = [wrReg .cmd (encode i)] ++ List.replicate waits (rdReg .status) ++
      .engine :: rdReg .status :: rest := by
    simp [hagenda, issue, poll]
  rw [withAgenda_self hself, List.length_append, List.length_replicate, Nat.add_comm] at hrun
  exact ⟨v, hrun⟩

/-- The engine's turn on an issued command runs it, decoded back from its word. -/
theorem step_issued {i : Instr} (waits : Nat) (v : Option Word) (hp : s.params.legal) (hwf : i.wf s.params = true) :
    step (issued i waits v (.engine :: rest) s) = exec i (issued i waits v rest s) :=
  (engineStepRunsTheDecodedCommand (issued i waits v (.engine :: rest) s) _ i rest rfl
    (encodedCommandDecodesBack s.params i hp hwf)).2 rfl

end Runs

/-- Settles O54: the write fills PEND, the waiting polls leave it, the engine's turn runs the command, which empties it, and
the last poll finds the block idle. -/
theorem issuedCommandRunsOnce : Obligations.IssuedCommandRunsOnce := by
  intro s i waits rest hp hwf hpend hagenda
  obtain ⟨v, hissued⟩ := run_issue i waits hpend hagenda
  obtain ⟨t, ht⟩ := exec_total i (issued i waits v (rdReg .status :: rest) s)
  obtain ⟨-, -, -, -, -, -, htagenda, -⟩ := exec_sameHostState ht
  have htpend := exec_pend ht
  refine ⟨v, t, ht, ?_, ?_⟩
  · calc Host.Core.run core (waits + 1 + 2) s
        = Host.Core.run core 2 (issued i waits v (.engine :: rdReg .status :: rest) s) := run_add (M := core) _ 2 hissued
      _ = Host.Core.run core 1 t := run_succ (M := core) 1 ((step_issued waits v hp hwf).trans ht)
      _ = .next { t with agenda := rest, answer := some (statusWord t) } :=
        run_succ (M := core) 0 (step_idlePoll htagenda htpend)
  · rw [statusWord_getLsbD, if_pos rfl, busy_of_pend_none htpend]

end Sys2Proof.Machine
end

section
/-! SUPPORT. The host's loading writes (spec/30_encoding.md R92, spec/40_table_generation.md R112 to R114,
spec/70_reset_and_hazards.md R193): what each writes into the tables, and what the tables then hold. -/

namespace Sys2Proof.Machine

/-! ### Memories after a list of writes -/

section Memories

variable {α β : Type} {key : β → Nat} {val : β → α}

theorem Memory.read?_foldl_write_of_notMem (l : List β) (m : Memory α) {a : Nat} (h : a ∉ l.map key) :
    Memory.read? (l.foldl (fun m x => Memory.write m (key x) (val x)) m) a = Memory.read? m a := by
  induction l generalizing m with
  | nil => rfl
  | cons x l ih =>
    rw [List.map_cons, List.mem_cons, not_or] at h
    obtain ⟨hne, hl⟩ := h
    rw [List.foldl_cons, ih _ hl, Memory.read?_write_ne m _ hne]

/-- Writes to different cells leave each its own value. -/
theorem Memory.read?_foldl_write_of_mem {l : List β} (m : Memory α) (hl : (l.map key).Nodup) {x : β} (hx : x ∈ l) :
    Memory.read? (l.foldl (fun m x => Memory.write m (key x) (val x)) m) (key x) = some (val x) := by
  induction l generalizing m with
  | nil => cases hx
  | cons y l ih =>
    rw [List.map_cons, List.nodup_cons] at hl
    obtain ⟨hy, hl⟩ := hl
    rw [List.foldl_cons]
    obtain rfl | hx := List.mem_cons.1 hx
    · rw [Memory.read?_foldl_write_of_notMem l _ hy, Memory.read?_write_same]
    · exact ih _ hl hx

theorem Memory.notMem_keys_of_read?_none {m : Memory α} {a : Nat} (h : Memory.read? m a = none) : a ∉ m.map Prod.fst := by
  induction m with
  | nil => simp
  | cons x m ih =>
    obtain ⟨k, v⟩ := x
    rw [Memory.read?] at h
    split at h
    · cases h
    · rw [List.map_cons, List.mem_cons, not_or]
      exact ⟨Ne.symm ‹_›, ih h⟩

end Memories

/-! ### Words of a table image -/

theorem rootOfWord_rootWord (r : Root) : rootOfWord (rootWord r) = r := by
  have hvalid : (rootWord r).getLsbD 31 = r.valid := by
    simp only [rootWord, BitVec.getLsbD_append]
    simp
  have hleaf : (rootWord r).getLsbD 30 = r.isLeaf := by
    simp only [rootWord, BitVec.getLsbD_append]
    simp
  have hval : (rootWord r).extractLsb' 0 16 = r.val := BitVec.extractLsb'_append_eq_right
  rw [rootOfWord, hvalid, hleaf, hval]

theorem descOfWord_descWord (c : Desc) : descOfWord (descWord c) = c := by
  have hleaf : (descWord c).getLsbD 31 = c.leaf := by
    simp only [descWord, BitVec.getLsbD_append]
    simp
  have hval : (descWord c).extractLsb' 0 16 = c.val := BitVec.extractLsb'_append_eq_right
  rw [descOfWord, hleaf, hval]

/-- The control word LDCODE writes sets VALID, and the length stands in LEN. -/
theorem ctControlOfWord_ldcode (n : Nat) :
    ctControlOfWord (0x80000000 ||| BitVec.ofNat 32 n) = { valid := true, len := BitVec.ofNat 6 n } := by
  have hvalid : (0x80000000 ||| BitVec.ofNat 32 n).getLsbD 31 = true := by
    simp only [BitVec.getLsbD_or]
    simp
  have hlen : (0x80000000 ||| BitVec.ofNat 32 n).extractLsb' 0 6 = BitVec.ofNat 6 n := by
    refine BitVec.eq_of_getLsbD_eq fun i hi => ?_
    simp only [BitVec.getLsbD_extractLsb', BitVec.getLsbD_or, BitVec.getLsbD_ofNat]
    interval_cases i <;> simp
  rw [ctControlOfWord, hvalid, hlen]

/-! ### Writes to the tables -/

theorem performWrite_withAgenda (w : Word) (ts : List Turn) (s : State) (x : Target) :
    performWrite w (withAgenda ts s) x = withAgenda ts (performWrite w s x) := by
  cases x with
  | reg r => cases r <;> rfl
  | _ => rfl

/-- The state with its tables replaced. -/
def withTables (m : TableImage) (s : State) : State := { s with tables := m }

/-- The CT entry of a code stored into a table image (R112). -/
def storeCode (m : TableImage) (c : Nat × List Bool) : TableImage :=
  { m with
    ctControl := Memory.write m.ctControl c.1 { valid := true, len := BitVec.ofNat 6 c.2.length },
    ctCode := Memory.write m.ctCode c.1 (BitVec.ofNat 32 (bitsValue c.2)) }

/-- The descriptors of a node stored into a table image (R113). -/
def storeNode (m : TableImage) (x : Nat × Desc × Desc) : TableImage :=
  { m with dtLeft := Memory.write m.dtLeft x.1 x.2.1, dtRight := Memory.write m.dtRight x.1 x.2.2 }

/-- The tables with the root image of a tree stored into them (R114). -/
def storeRoot (m : TableImage) (t : Tree) : TableImage := { m with root := rootImage t, degenWeight := degenImage t }

/-- The tables `m` after the loading writes of a tree (R193). -/
def loadedTables (t : Tree) (m : TableImage) : TableImage :=
  storeRoot ((dtSlots t 0).foldl storeNode ((assignCodes t).foldl storeCode m)) t

/-- Where the turns of each item store it into the tables, the turns of a list store its items in order. -/
theorem Runs.flatMap {β : Type} {s : State} {f : β → List Turn} {store : TableImage → β → TableImage} {l : List β}
    (h : ∀ x ∈ l, ∀ m, Runs (f x) (withTables m s) (withTables (store m x) s)) (m : TableImage) :
    Runs (l.flatMap f) (withTables m s) (withTables (l.foldl store m) s) := by
  induction l generalizing m with
  | nil => exact .nil _
  | cons x l ih =>
    rw [List.flatMap_cons, List.foldl_cons]
    exact (h x List.mem_cons_self m).append (ih (fun y hy => h y (List.mem_cons_of_mem x hy)) _)

section Loading

variable {s : State} (hp : s.params.legal) (hwritable : s.params.tablesWritable = true) (hpend : s.pend = none)
include hwritable hpend

/-- A write to a table of an idle, writable build is performed (R55 case 7). -/
theorem runs_tableWrite {a : Addr} {x : Target} {w : Word} {m m' : TableImage} (h : target s.params a = some x)
    (hx : tableTarget x = true) (hw : performWrite w (withTables m s) x = withTables m' s) :
    Runs [.busWrite a w] (withTables m s) (withTables m' s) := by
  refine .of_step fun rest => ?_
  have hwrite : busWrite a w (withAgenda rest (withTables m s)) = withAgenda rest (withTables m' s) := by
    rw [← hw, ← performWrite_withAgenda]
    exact busWrite_performs w h (busy_of_pend_none hpend) (readOnly_of_tableTarget hx) (fun _ => hwritable)
      (by rintro rfl; cases hx) (by rintro rfl; cases hx)
  exact (step_of_agenda_busWrite rfl).trans (congrArg _ hwrite)

theorem runs_storeRoot (t : Tree) (m : TableImage) :
    Runs (ldroot (rootImage t) ++ [wrReg .degenWeight (degenImage t)]) (withTables m s)
      (withTables (storeRoot m t) s) := by
  have hroot : Runs (ldroot (rootImage t)) (withTables m s) (withTables { m with root := rootImage t } s) :=
    runs_tableWrite hwritable hpend (target_regOffset _ .root) rfl (by simp only [performWrite, rootOfWord_rootWord]; rfl)
  exact hroot.append (runs_tableWrite hwritable hpend (target_regOffset _ .degenWeight) rfl rfl)

include hp

theorem runs_ldcode {c : Nat × List Bool} (hc : c.1 < s.params.alphabet) (m : TableImage) :
    Runs (ldcode c.1 c.2) (withTables m s) (withTables (storeCode m c) s) := by
  have hcontrol := runs_tableWrite (w := 0x80000000 ||| BitVec.ofNat 32 c.2.length) (m := m) (m' := { m with
      ctControl := Memory.write m.ctControl c.1 { valid := true, len := BitVec.ofNat 6 c.2.length } })
    hwritable hpend (target_ctControlAddr hp hc) rfl (by simp only [performWrite, ctControlOfWord_ldcode]; rfl)
  exact hcontrol.append (runs_tableWrite hwritable hpend (target_ctCodeAddr hp hc) rfl rfl)

theorem runs_ldnode {x : Nat × Desc × Desc} (hx : x.1 < s.params.dtNodes) (m : TableImage) :
    Runs (ldnode x.1 x.2.1 x.2.2) (withTables m s) (withTables (storeNode m x) s) := by
  have hleft := runs_tableWrite (w := descWord x.2.1) (m := m)
    (m' := { m with dtLeft := Memory.write m.dtLeft x.1 x.2.1 }) hwritable hpend (target_dtLeftAddr hp hx) rfl
    (by simp only [performWrite, descOfWord_descWord]; rfl)
  exact hleft.append (runs_tableWrite hwritable hpend (target_dtRightAddr hp hx) rfl
    (by simp only [performWrite, descOfWord_descWord]; rfl))

theorem runs_loadTree {t : Tree} (hfits : fitsBuild s.params (assignCodes t) = true)
    (hnodes : internalNodes t ≤ s.params.dtNodes) :
    Runs (loadTree t) s (withTables (loadedTables t s.tables) s) := by
  have hcodes : ∀ c ∈ assignCodes t, c.1 < s.params.alphabet := fun c hc => by
    have hc := List.all_eq_true.1 hfits c hc
    simp only [Bool.and_eq_true, decide_eq_true_eq] at hc
    exact hc.1
  have hslots : ∀ x ∈ dtSlots t 0, x.1 < s.params.dtNodes := fun x hx => by
    have hrange := dtSlots_range t 0 x hx
    omega
  have hct := Runs.flatMap (fun c hc => runs_ldcode hp hwritable hpend (hcodes c hc)) s.tables
  have hdt := Runs.flatMap (fun x hx => runs_ldnode hp hwritable hpend (hslots x hx))
    ((assignCodes t).foldl storeCode s.tables)
  rw [loadTree, List.append_assoc _ (ldroot _)]
  exact (hct.append hdt).append (runs_storeRoot hwritable hpend t _)

end Loading

/-! ### What the tables hold -/

theorem foldl_storeCode (l : List (Nat × List Bool)) (m : TableImage) :
    l.foldl storeCode m = { m with
      ctControl := l.foldl (fun n c => Memory.write n c.1 { valid := true, len := BitVec.ofNat 6 c.2.length }) m.ctControl,
      ctCode := l.foldl (fun n c => Memory.write n c.1 (BitVec.ofNat 32 (bitsValue c.2))) m.ctCode } := by
  induction l generalizing m with
  | nil => rfl
  | cons c l ih => rw [List.foldl_cons, ih]; rfl

theorem foldl_storeNode (l : List (Nat × Desc × Desc)) (m : TableImage) :
    l.foldl storeNode m = { m with
      dtLeft := l.foldl (fun n x => Memory.write n x.1 x.2.1) m.dtLeft,
      dtRight := l.foldl (fun n x => Memory.write n x.1 x.2.2) m.dtRight } := by
  induction l generalizing m with
  | nil => rfl
  | cons x l ih => rw [List.foldl_cons, ih]; rfl

theorem foldl_storeNode_ctControl (l : List (Nat × Desc × Desc)) (m : TableImage) :
    (l.foldl storeNode m).ctControl = m.ctControl := by
  rw [foldl_storeNode]

theorem foldl_storeNode_ctCode (l : List (Nat × Desc × Desc)) (m : TableImage) :
    (l.foldl storeNode m).ctCode = m.ctCode := by
  rw [foldl_storeNode]

/-- The slots of a tree are numbered one after another (R113). -/
theorem dtSlots_indexes (t : Tree) (j : Nat) : (dtSlots t j).map Prod.fst = List.range' j (internalNodes t) := by
  induction t generalizing j with
  | leaf => rfl
  | node l r w ihl ihr =>
    rw [dtSlots, internalNodes, List.map_cons, List.map_append, ihl, ihr, List.range'_append_1, ← List.range'_succ]

/-- CT after the loading writes of codes with different symbols, where no entry was valid (R112). -/
theorem holdsCodes_of_storeCode {s u : State} {codes : List (Nat × List Bool)} (hnodup : (codes.map Prod.fst).Nodup)
    (hinvalid : ∀ sym, ctValid s sym = false)
    (hcontrol : u.tables.ctControl = (codes.foldl storeCode s.tables).ctControl)
    (hcode : u.tables.ctCode = (codes.foldl storeCode s.tables).ctCode) : holdsCodes u codes := by
  rw [foldl_storeCode] at hcontrol hcode
  intro sym
  split
  · rename_i k hk
    have hmem : (sym, k) ∈ codes := Memory.mem_of_read? hk
    rw [hcontrol, hcode]
    exact ⟨Memory.read?_foldl_write_of_mem _ hnodup hmem, Memory.read?_foldl_write_of_mem _ hnodup hmem⟩
  · rename_i hnone
    have hnot := Memory.notMem_keys_of_read?_none hnone
    rw [ctValid, hcontrol, Memory.read?_foldl_write_of_notMem _ _ hnot]
    exact hinvalid sym

/-- DT and ROOT after the loading writes of a tree (R113, R114). -/
theorem holdsTree_of_storeNode {u : State} {t : Tree} {m : TableImage} (hroot : u.tables.root = rootImage t)
    (hleft : u.tables.dtLeft = ((dtSlots t 0).foldl storeNode m).dtLeft)
    (hright : u.tables.dtRight = ((dtSlots t 0).foldl storeNode m).dtRight) : holdsTree u t := by
  have hnodup : ((dtSlots t 0).map Prod.fst).Nodup := by
    rw [dtSlots_indexes]
    exact List.nodup_range'
  rw [foldl_storeNode] at hleft hright
  refine ⟨fun x hx => ?_, hroot⟩
  rw [hleft, hright]
  exact ⟨Memory.read?_foldl_write_of_mem _ hnodup hx, Memory.read?_foldl_write_of_mem _ hnodup hx⟩

/-- Settles O55: the loading writes store the codes, the nodes and the root in turn, and the cells they name are different. -/
theorem loadingATreeLeavesItsImage : Obligations.LoadingATreeLeavesItsImage := by
  intro s t rest hp hwritable hpend hinvalid hnodup hfits hnodes hagenda
  have hrun := runs_loadTree hp hwritable hpend hfits hnodes rest
  rw [withAgenda_self hagenda] at hrun
  have htree : holdsTree (withAgenda rest (withTables (loadedTables t s.tables) s)) t :=
    holdsTree_of_storeNode (m := (assignCodes t).foldl storeCode s.tables) rfl rfl rfl
  have hcodes : holdsCodes (withAgenda rest (withTables (loadedTables t s.tables) s)) (assignCodes t) :=
    holdsCodes_of_storeCode ((assignCodes_symbols t).symm ▸ hnodup) hinvalid (foldl_storeNode_ctControl _ _)
      (foldl_storeNode_ctCode _ _)
  exact ⟨_, hrun, rfl, htree, hcodes, rfl⟩

end Sys2Proof.Machine
end

section
/-! SUPPORT. The codes of a tree (spec/40_table_generation.md R106 to R108): two leaves part at the Internal node where
one is below the left child and the other below the right one, so neither code begins with the other. -/

namespace Sys2Proof.Machine

/-- The codes of an Internal node, in order: those of its left child behind '0', those of its right child behind '1'. -/
theorem walkCodes_node (l r : Tree) (w : Nat) :
    walkCodes (.node l r w) [] =
      (walkCodes l []).map (fun c => (c.1, false :: c.2)) ++ (walkCodes r []).map (fun c => (c.1, true :: c.2)) := by
  rw [walkCodes, walkCodes_path l, walkCodes_path r]
  rfl

/-- Below an Internal node no code is empty: it begins with the bit of one child. -/
theorem ne_nil_of_mem_walkCodes_node {l r : Tree} {w : Nat} {c : Nat × List Bool}
    (hc : c ∈ walkCodes (.node l r w) []) : c.2 ≠ [] := by
  obtain ⟨c', -, h⟩ | ⟨c', -, h⟩ := (mem_walkCodes_node l r w c.1 c.2).1 hc <;> simp [h]

/-- Of any two codes of the list neither begins with the other (R108). -/
def PrefixFree (codes : List (Nat × List Bool)) : Prop :=
  codes.Pairwise (fun c c' => ¬ c.2 <+: c'.2 ∧ ¬ c'.2 <+: c.2)

/-- The same bit in front of every code keeps them `PrefixFree`. -/
theorem prefixFree_map_cons (b : Bool) {codes : List (Nat × List Bool)}
    (h : PrefixFree codes) : PrefixFree (codes.map (fun c => (c.1, b :: c.2))) :=
  List.pairwise_map.2 (h.imp fun hcc' => by simpa [List.cons_prefix_cons] using hcc')

/-- The codes of the walk are `PrefixFree`, for any tree: a lone leaf has one code, and at an Internal node the
codes of the two children differ in their first bit. -/
theorem walkCodes_prefixFree (t : Tree) : PrefixFree (walkCodes t []) := by
  induction t with
  | leaf sym count => exact List.pairwise_singleton _ _
  | node l r w ihl ihr =>
    rw [walkCodes_node]
    refine List.pairwise_append.2 ⟨prefixFree_map_cons false ihl, prefixFree_map_cons true ihr, fun c hc c' hc' => ?_⟩
    obtain ⟨_, _, rfl⟩ := List.mem_map.1 hc
    obtain ⟨_, _, rfl⟩ := List.mem_map.1 hc'
    simp [List.cons_prefix_cons]

/-- Settles O53: a bare leaf has the one code "1" (R107); the codes of an Internal root are those of the walk. -/
theorem codesAreNonEmptyAndPrefixFree : Obligations.CodesAreNonEmptyAndPrefixFree := by
  intro tree
  cases tree with
  | leaf sym count => exact ⟨by simp [assignCodes], List.pairwise_singleton _ _⟩
  | node l r w => exact ⟨fun _ => ne_nil_of_mem_walkCodes_node (w := w), walkCodes_prefixFree (.node l r w)⟩

end Sys2Proof.Machine
end

section
/-! SUPPORT. The words of the encode family (spec/30_encoding.md R80, R82, R92). -/

namespace Sys2Proof

variable {p : Params} {w : Word} {i : Instr}

/-- A command of format Z has one word: no other word with its opcode decodes (R80, R85). -/
theorem decode_formatZ_only_encode (hi : i ∈ [Instr.nop, .encInit, .flush, .decInit, .decSym, .softReset])
    (hopc : w.toNat / 2 ^ 28 = opcode i) :
    (w = encode i → decode p w = .ok i) ∧ (w ≠ encode i → ∃ e, decode p w = .error e) := by
  have hword : w.toNat % 2 ^ 28 = 0 ↔ w = encode i := by
    have hencode : (encode i).toNat = opcode i * 2 ^ 28 := by
      simp only [List.mem_cons, List.not_mem_nil, or_false] at hi
      rcases hi with rfl | rfl | rfl | rfl | rfl | rfl <;> rfl
    rw [← BitVec.toNat_inj, hencode]
    omega
  obtain ⟨hok, herror⟩ := decode_formatZ p w i hi hopc
  exact ⟨fun h => hok (hword.2 h), fun h => ⟨_, herror (mt hword.1 h)⟩⟩

theorem encode_putBits (n : Nat) : encode (.putBits n) = 0x20000000 + BitVec.ofNat 32 (n - 1) := by
  have hopc : opcode (.putBits n) <<< 28 = 0x20000000 := by norm_num [opcode, Nat.shiftLeft_eq]
  rw [encode, hopc, operandBits, BitVec.ofNat_add, BitVec.ofNat_eq_ofNat]

theorem encode_encSym (c : Nat) : encode (.encSym c) = 0x30000000 + BitVec.ofNat 32 c := by
  have hopc : opcode (.encSym c) <<< 28 = 0x30000000 := by norm_num [opcode, Nat.shiftLeft_eq]
  rw [encode, hopc, operandBits, BitVec.ofNat_add, BitVec.ofNat_eq_ofNat]

end Sys2Proof
end

section
/-! SUPPORT. ENC_INIT, PUT_BITS, ENC_SYM and FLUSH, each by the conditions of its rule (spec/41_encode.md R121 to
R125). -/

namespace Sys2Proof.Machine

/-- Settles O13: ENC_INIT has one word, and its meaning is the state written out in R121. -/
theorem encInitStartsAnEmptyStream : Obligations.EncInitStartsAnEmptyStream :=
  ⟨fun _ _ => decode_formatZ_only_encode (i := .encInit) (by decide), fun _ => rfl⟩

section Packing

variable {s t : State} {n sym : Nat}

/-! ### What a packing command leaves -/

/-- From `s` to `t` a command packed the `n` bits `bits` and completed, with `st` in STATUS and `d` draws counted; the
bytes stored are the `(ACC_N + n) div 8` from OPTR on (R120). -/
def Packs (s t : State) (bits : List Bool) (n : Nat) (st : Status) (d : Nat) : Prop :=
  packedBits t = (packedBits s).map (· ++ bits) ∧
  t.optr.toNat = s.optr.toNat + (s.accN.toNat + n) / 8 ∧
  t.accN.toNat = (s.accN.toNat + n) % 8 ∧
  (s.acc.toNat % 2 ^ (8 - s.accN.toNat) = 0 → t.acc.toNat % 2 ^ (8 - t.accN.toNat) = 0) ∧
  t.bitcount = s.bitcount + BitVec.ofNat 32 n ∧
  t.status = st ∧ t.pend = none ∧
  (∀ a, a < s.optr.toNat ∨ s.optr.toNat + (s.accN.toNat + n) / 8 ≤ a →
    Memory.read? t.obuf a = Memory.read? s.obuf a) ∧
  sameHostState s t ∧ sameUnpacker s t ∧ t.draws = d

/-- Bits pushed and counted in BITCOUNT are packed. -/
theorem packs_of_pushed {q : Packer} {bits : List Bool} {st : Status} (d : Nat) (hn : bits.length = n)
    (heos : st.eos = s.status.eos) (hq : Pushed (packerOf s) q bits) :
    Packs s { s with
      acc := q.acc, accN := q.accN, optr := q.optr, obuf := q.obuf, bitcount := s.bitcount + BitVec.ofNat 32 n,
      draws := d, pend := none, status := st } bits n st d := by
  obtain ⟨hoptr, haccN⟩ := hq.optr_accN
  rw [hn] at hoptr haccN
  exact ⟨hq.stream, hoptr, haccN, hq.accLow, rfl, rfl, rfl, fun a ha => hq.outside a (ha.imp_right hoptr.trans_le),
    ⟨rfl, rfl, rfl, rfl, rfl, rfl, rfl, rfl⟩, ⟨rfl, rfl, rfl, heos⟩, rfl⟩

/-- `PushBits` refuses bits that OBUF has no room for (R120). -/
theorem pushBits_of_full {v : Word} (hfull : s.optr.toNat + (s.accN.toNat + n) / 8 > s.params.obufSize) :
    pushBits n v s = .error .oflow := by
  rw [pushBits, if_pos hfull]

/-! ### PUT_BITS -/

theorem exec_putBits_of_closed (hclosed : s.status.encClosed = true) :
    exec (.putBits n) s = .next (raiseErr .seq s) := by
  show execPutBits n s = _
  rw [execPutBits, if_pos hclosed]

theorem exec_putBits_of_full (hopen : s.status.encClosed = false)
    (hfull : s.optr.toNat + (s.accN.toNat + n) / 8 > s.params.obufSize) :
    exec (.putBits n) s = .next (raiseErr .oflow s) := by
  show execPutBits n s = _
  rw [execPutBits, hopen, pushBits_of_full hfull]
  rfl

/-- PUT_BITS into an open stream with room packs the low bits of DATA (R122). -/
theorem exec_putBits_packs (hp : s.params.legal) (hopen : s.status.encClosed = false)
    (hroom : s.optr.toNat + (s.accN.toNat + n) / 8 ≤ s.params.obufSize) :
    ∃ t, exec (.putBits n) s = .next t ∧
      Packs s t (bitsOf s.data n) n { s.status with resValid := false, done := true } s.draws := by
  obtain ⟨hfull, -⟩ | ⟨-, q, hq, hpush⟩ := pushBits_spec n s.data s hp.2.2.1.2.2
  · exact absurd hroom (Nat.not_le.2 hfull)
  · refine ⟨_, ?_, packs_of_pushed s.draws (length_bitsOf _ _) rfl hq⟩
    show execPutBits n s = _
    rw [execPutBits, hopen, hpush]
    rfl

/-! ### ENC_SYM -/

theorem exec_encSym_of_closed (hclosed : s.status.encClosed = true) :
    exec (.encSym sym) s = .next (raiseErr .seq s) := by
  show execEncSym sym s = _
  rw [execEncSym, if_pos hclosed]

theorem exec_encSym_of_lookup_error {e : ErrFlag} {d : Nat} (hopen : s.status.encClosed = false)
    (hlookup : lookup s sym = (.error e, d)) : exec (.encSym sym) s = .next (raiseErr e (withDraws d s)) := by
  show execEncSym sym s = _
  rw [execEncSym, hopen, hlookup]
  rfl

theorem exec_encSym_of_full {f : Found} {d : Nat} (hopen : s.status.encClosed = false)
    (hfound : lookup s sym = (.ok f, d)) (hfull : s.optr.toNat + (s.accN.toNat + f.len) / 8 > s.params.obufSize) :
    exec (.encSym sym) s = .next (raiseErr .oflow (withDraws d s)) := by
  have hpush : pushBits f.len f.code (withDraws d s) = .error .oflow := pushBits_of_full hfull
  show execEncSym sym s = _
  rw [execEncSym, hopen, hfound]
  simp only [hpush]
  rfl

/-- `Lookup` that chooses no entry reads none and takes no draw (R123). -/
theorem lookup_of_chooseEntry_error {e : ErrFlag} (h : chooseEntry s sym = .error e) :
    lookup s sym = (.error e, s.draws) := by
  rw [lookup, h]

theorem chooseEntry_of_none_valid (hsym : sym < s.params.alphabet)
    (hnone : ∀ u < s.params.alphabet, ctValid s u = false) : chooseEntry s sym = .error .empty := by
  rw [chooseEntry, hnone sym hsym, leastValid_none.2 hnone]
  rfl

/-- With STRICT = 1 an invalid entry has no fallback, though there be a valid one (R123). -/
theorem chooseEntry_of_strict (hsome : ∃ u < s.params.alphabet, ctValid s u = true) (hinvalid : ctValid s sym = false)
    (hstrict : s.ctrl.strict = true) : chooseEntry s sym = .error .missing := by
  obtain ⟨u, hu, hvalid⟩ := hsome
  have hleast : leastValid s ≠ none := fun h => by simp [leastValid_none.1 h u hu] at hvalid
  obtain ⟨least, hleast⟩ := Option.ne_none_iff_exists'.1 hleast
  rw [chooseEntry, hinvalid, hleast]
  simp only [hstrict]
  rfl

/-- The read of a code word counts a draw only where the word is unwritten (log 5). -/
theorem ctCode_draws_of_written {e d : Nat} (h : Memory.read? s.tables.ctCode e ≠ none) : (ctCode s e d).2 = d := by
  obtain ⟨code, hcode⟩ := Option.ne_none_iff_exists'.1 h
  rw [ctCode_written hcode]

/-! ### FLUSH -/

theorem exec_flush_of_closed (hclosed : s.status.encClosed = true) : exec .flush s = .next (complete false s) := by
  show execFlush s = _
  rw [execFlush, if_pos hclosed]

theorem exec_flush_of_full (hopen : s.status.encClosed = false) (hpending : 0 < s.accN.toNat)
    (hfull : s.optr.toNat + 1 > s.params.obufSize) : exec .flush s = .next (raiseErr .oflow s) := by
  show execFlush s = _
  rw [execFlush, hopen, if_pos hpending, if_pos hfull]
  rfl

theorem exec_flush_of_room (hopen : s.status.encClosed = false) (hpending : 0 < s.accN.toNat)
    (hroom : s.optr.toNat + 1 ≤ s.params.obufSize) :
    exec .flush s = .next (complete false
      { s with obuf := Memory.write s.obuf s.optr.toNat s.acc, optr := s.optr + 1, acc := 0, accN := 0,
               status := { s.status with encClosed := true } }) := by
  show execFlush s = _
  rw [execFlush, hopen, if_pos hpending, if_neg (Nat.not_lt.2 hroom)]
  rfl

theorem exec_flush_of_none_pending (hopen : s.status.encClosed = false) (hnone : s.accN = 0) :
    exec .flush s = .next (complete false { s with status := { s.status with encClosed := true } }) := by
  show execFlush s = _
  rw [execFlush, hopen, hnone]
  rfl

/-- The stream of whole bytes packs to its bytes. -/
theorem payload_eq_of_none_pending (hnone : s.accN = 0) : payload s = (packedBits s).map packBytes := by
  have hpending : pendingBits s = [] := by rw [pendingBits, hnone]; rfl
  have hpack (bytes : List Byte) : packBytes (bytes.flatMap byteBits) = bytes := by
    simpa [packBytes, padBits] using packBytes_flatMap bytes []
  rw [packedBits, hpending, Option.map_map]
  simp [Function.comp_def, hpack]

/-- The accumulator, its low bits 0, is the byte that the pending bits pad to (R125, R126). -/
theorem bufferBytes_write_acc (hpending : 0 < s.accN.toNat) (hlow : s.acc.toNat % 2 ^ (8 - s.accN.toNat) = 0) :
    bufferBytes (Memory.write s.obuf s.optr.toNat s.acc) (s.optr.toNat + 1) = (packedBits s).map packBytes := by
  have hpack (bytes : List Byte) : packBytes (bytes.flatMap byteBits ++ pendingBits s) = bytes ++ [s.acc] := by
    rw [packBytes_flatMap, pendingBits, packBytes_pending s.acc s.accN.toNat hpending s.accN.isLt hlow]
  rw [bufferBytes_write_end, packedBits, Option.map_map, payload]
  simp [Function.comp_def, hpack]

end Packing

/-- Settles O14: PUT_BITS in R122's order, its bits pushed by `PushBits`. -/
theorem putBitsAppendsTheLowBitsOfData : Obligations.PutBitsAppendsTheLowBitsOfData := by
  refine ⟨fun p w hopc hbits => (decode_eq_error_iff p w).2 (.inr (.inl ⟨by rw [hopc]; decide, hbits⟩)), ?_⟩
  intro s n hp hpos hmax
  refine ⟨?_, exec_putBits_of_closed, exec_putBits_of_full, exec_putBits_packs hp⟩
  have hdecode := encodedCommandDecodesBack s.params (.putBits n) hp (decide_eq_true ⟨hpos, hmax⟩)
  rwa [encode_putBits] at hdecode

/-- Settles O15: the entry `Lookup` finds is read without a draw, and its code is pushed. -/
theorem encSymPacksTheCodeLookupChooses : Obligations.EncSymPacksTheCodeLookupChooses := by
  intro s sym entry fb len code hp hsym hopen hchoose hcontrol hcode hpos hmax hroom
  have hdecode := encodedCommandDecodesBack s.params (.encSym sym) hp (decide_eq_true hsym)
  have hfound : lookup s sym = (.ok { len := len.toNat, code := code, fallback := fb }, s.draws) := by
    rw [lookup_of hchoose hcontrol hcode, if_neg (by omega)]
  obtain ⟨q, hq, hexec⟩ := exec_encSym_of_found hp hopen hfound hroom
  rw [encode_encSym] at hdecode
  exact ⟨hdecode, _, hexec, packs_of_pushed s.draws (length_bitsOf _ _) rfl hq⟩

/-- Settles O16: R124's checks in order; the draws of a failed command are those of its one read of a code word. -/
theorem encSymRaisesItsErrorsInOrder : Obligations.EncSymRaisesItsErrorsInOrder := by
  intro s sym hsym
  refine ⟨exec_encSym_of_closed, fun hopen => ⟨fun hnone => ?_, fun hsome hinvalid hstrict => ?_, ?_⟩⟩
  · exact exec_encSym_of_lookup_error hopen (lookup_of_chooseEntry_error (chooseEntry_of_none_valid hsym hnone))
  · exact exec_encSym_of_lookup_error hopen
      (lookup_of_chooseEntry_error (chooseEntry_of_strict hsome hinvalid hstrict))
  · intro entry fb len hchoose hcontrol
    have hlookup := lookup_of_control hchoose hcontrol
    refine ⟨(ctCode s entry s.draws).2, readCell_draws_le .., ctCode_draws_of_written, fun hbad => ?_,
      fun hpos hmax hfull => ?_⟩
    · rw [if_pos hbad] at hlookup
      exact exec_encSym_of_lookup_error hopen hlookup
    · rw [if_neg (by omega)] at hlookup
      exact exec_encSym_of_full hopen hlookup hfull

/-- Settles O18: a closed stream, a full OBUF, no pending bit, and pending bits stored as the last byte. -/
theorem flushPadsWritesAndCloses : Obligations.FlushPadsWritesAndCloses := by
  refine ⟨fun _ _ => decode_formatZ_only_encode (i := .flush) (by decide), fun s hp => ?_⟩
  refine ⟨exec_flush_of_closed, exec_flush_of_full, fun hopen hroom hbound hlow => ?_⟩
  have hsize : s.params.obufSize ≤ 65536 := hp.2.2.1.2.2
  by_cases hnone : s.accN = 0
  · have hzero : s.accN.toNat = 0 := congrArg BitVec.toNat hnone
    have hwhole : s.optr.toNat = (8 * s.optr.toNat + s.accN.toNat + 7) / 8 := by omega
    have hacc : s.acc = 0 := by
      rw [hzero] at hlow
      exact BitVec.eq_of_toNat_eq (Nat.mod_eq_of_lt s.acc.isLt ▸ hlow)
    exact ⟨_, exec_flush_of_none_pending hopen hnone, payload_eq_of_none_pending hnone, hwhole, hacc, hnone, rfl, rfl,
      rfl, fun _ _ => rfl, ⟨rfl, rfl, rfl, rfl, rfl, rfl, rfl, rfl⟩, ⟨rfl, rfl, rfl, rfl⟩, rfl⟩
  · have hpending : 0 < s.accN.toNat := Nat.pos_of_ne_zero fun h => hnone (BitVec.eq_of_toNat_eq h)
    have hoptr : (s.optr + 1).toNat = s.optr.toNat + 1 := by bv_omega
    have haccN := s.accN.isLt
    refine ⟨_, exec_flush_of_room hopen hpending (hroom.resolve_left hnone), ?_, ?_, rfl, rfl, rfl, rfl, rfl,
      fun a ha => Memory.read?_write_ne _ _ (ha.resolve_right hnone),
      ⟨rfl, rfl, rfl, rfl, rfl, rfl, rfl, rfl⟩, ⟨rfl, rfl, rfl, rfl⟩, rfl⟩
    · rw [← bufferBytes_write_acc hpending hlow, ← hoptr]
      rfl
    · rw [complete_optr, hoptr]
      omega

end Sys2Proof.Machine
end

section
/-! SUPPORT. The frames of the packer and of the unpacker, and the packer invariant, command by command
(spec/41_encode.md R121, R127, spec/42_decode.md R140 to R142, spec/43_control.md R160, R161). -/

namespace Sys2Proof.Machine

section Frames

variable {s t : State} {i : Instr}

/-! ### What is left alone -/

theorem EndsInError.samePacker (h : EndsInError s t) : samePacker s t := by
  obtain ⟨e, d, -, -, rfl⟩ := h
  exact ⟨rfl, rfl, rfl, rfl, rfl, rfl⟩

/-- NOP and the decode family leave the packer, OBUF with it. -/
theorem exec_samePacker (hi : i ∈ [Instr.nop, .decInit, .decSym] ∨ ∃ n, i = .getBits n) (h : exec i s = .next t) :
    samePacker s t := by
  simp only [List.mem_cons, List.not_mem_nil, or_false] at hi
  obtain (rfl | rfl | rfl) | ⟨n, rfl⟩ := hi
  · obtain rfl := exec_nop h
    exact ⟨rfl, rfl, rfl, rfl, rfl, rfl⟩
  · obtain herr | rfl := exec_decInit_cases h
    · exact herr.samePacker
    · exact ⟨rfl, rfl, rfl, rfl, rfl, rfl⟩
  · obtain herr | rfl | ⟨v, r, rfl⟩ | ⟨-, v, d, q, -, -, rfl⟩ := exec_decSym_cases h
    · exact herr.samePacker
    all_goals exact ⟨rfl, rfl, rfl, rfl, rfl, rfl⟩
  · obtain herr | ⟨-, -, v, d, rfl⟩ := exec_getBits_cases h
    · exact herr.samePacker
    · exact ⟨rfl, rfl, rfl, rfl, rfl, rfl⟩

theorem exec_sameUnpacker (hi : i ∈ [Instr.nop, .encInit]) (h : exec i s = .next t) : sameUnpacker s t := by
  simp only [List.mem_cons, List.not_mem_nil, or_false] at hi
  obtain rfl | rfl := hi
  · obtain rfl := exec_nop h
    exact ⟨rfl, rfl, rfl, rfl⟩
  · obtain rfl := exec_encInit h
    exact ⟨rfl, rfl, rfl, rfl⟩

/-! ### The packer invariant -/

theorem PackerInv.congr (h : PackerInv s) (hsame : samePacker s t) : PackerInv t := by
  obtain ⟨hacc, haccN, hoptr, hbitcount, hclosed, -⟩ := hsame
  obtain ⟨whileOpen, whileClosed, accLow⟩ := h
  exact ⟨by rwa [hclosed, hbitcount, hoptr, haccN], by rwa [hclosed, hbitcount, hoptr, haccN], by rwa [hacc, haccN]⟩

/-- An empty open stream: what ENC_INIT, SOFT_RESET and `rst` leave. -/
theorem packerInv_of_empty (hacc : t.acc = 0) (haccN : t.accN = 0) (hoptr : t.optr = 0) (hbitcount : t.bitcount = 0)
    (hopen : t.status.encClosed = false) : PackerInv t :=
  ⟨by simp [hoptr, haccN, hbitcount], by simp [hopen], by simp [hacc]⟩

theorem exec_packerInv_of_emptied (h : exec .encInit s = .next t ∨ exec .softReset s = .next t) : PackerInv t := by
  obtain h | h := h
  · obtain rfl := exec_encInit h
    exact packerInv_of_empty rfl rfl rfl rfl rfl
  · obtain rfl := exec_softReset h
    exact packerInv_of_empty rfl rfl rfl rfl rfl

/-- `PushBits` into an open stream counts its bits in BITCOUNT, which does not wrap (R120). -/
theorem PackerInv.pushBits {n : Nat} {v : Word} (h : PackerInv s) (hp : s.params.legal)
    (hopen : s.status.encClosed = false) (hpush : pushBits n v s = .ok t) : PackerInv t := by
  have hsize : s.params.obufSize ≤ 65536 := hp.2.2.1.2.2
  obtain ⟨-, herr⟩ | ⟨hroom, q, hq, hok⟩ := pushBits_spec n v s hsize
  · rw [herr] at hpush
    cases hpush
  · rw [hok] at hpush
    obtain rfl := Except.ok.inj hpush
    have hcount : 8 * q.optr.toNat + q.accN.toNat = 8 * s.optr.toNat + s.accN.toNat + n :=
      hq.count.trans (by rw [length_bitsOf]; rfl)
    have hbits := h.whileOpen hopen
    have hwrap : (s.bitcount + BitVec.ofNat 32 n).toNat = s.bitcount.toNat + n := by
      rw [BitVec.toNat_add, BitVec.toNat_ofNat]
      omega
    exact
      { whileOpen := fun _ => hwrap.trans (by rw [hbits, ← hcount]; rfl)
        whileClosed := fun hclosed => absurd (hopen.symm.trans hclosed) Bool.false_ne_true
        accLow := hq.accLow h.accLow }

/-- FLUSH closes a stream of `ceil(BITCOUNT / 8)` bytes (R125). -/
theorem PackerInv.flush (h : PackerInv s) (hp : s.params.legal) (hexec : exec .flush s = .next t) : PackerInv t := by
  obtain herr | ⟨-, rfl⟩ | ⟨hopen, hpending, hroom, rfl⟩ | ⟨hopen, hnone, rfl⟩ := exec_flush_cases hexec
  · exact h.congr herr.samePacker
  · exact h.congr ⟨rfl, rfl, rfl, rfl, rfl, rfl⟩
  · have hsize : s.params.obufSize ≤ 65536 := hp.2.2.1.2.2
    have hbits := h.whileOpen hopen
    have haccN := s.accN.isLt
    have hoptr : (s.optr + 1).toNat = (s.bitcount.toNat + 7) / 8 := by bv_omega
    exact ⟨nofun, fun _ => ⟨rfl, hoptr⟩, by simp⟩
  · have hbits := h.whileOpen hopen
    have hoptr : s.optr.toNat = (s.bitcount.toNat + 7) / 8 := by omega
    exact ⟨nofun, fun _ => ⟨BitVec.eq_of_toNat_eq hnone, hoptr⟩, h.accLow⟩

theorem exec_packerInv (hp : s.params.legal) (hs : PackerInv s) (h : exec i s = .next t) : PackerInv t := by
  cases i with
  | nop | decInit | decSym => exact hs.congr (exec_samePacker (.inl (by decide)) h)
  | getBits n => exact hs.congr (exec_samePacker (.inr ⟨n, rfl⟩) h)
  | encInit => exact exec_packerInv_of_emptied (.inl h)
  | softReset => exact exec_packerInv_of_emptied (.inr h)
  | flush => exact hs.flush hp h
  | putBits n =>
    obtain herr | ⟨hopen, u, hpush, rfl⟩ := exec_putBits_cases h
    · exact hs.congr herr.samePacker
    · exact (hs.pushBits hp hopen hpush).congr ⟨rfl, rfl, rfl, rfl, rfl, rfl⟩
  | encSym sym =>
    obtain herr | ⟨hopen, f, u, -, hpush, rfl⟩ := exec_encSym_cases h
    · exact hs.congr herr.samePacker
    · have found : PackerInv (withDraws (lookup s sym).2 s) := hs.congr ⟨rfl, rfl, rfl, rfl, rfl, rfl⟩
      have packed : PackerInv u := found.pushBits hp hopen hpush
      cases f.fallback <;> exact packed.congr ⟨rfl, rfl, rfl, rfl, rfl, rfl⟩

/-- No command moves OPTR past the end of OBUF (R31). -/
theorem exec_optr_le (hp : s.params.legal) (hbound : s.optr.toNat ≤ s.params.obufSize) (h : exec i s = .next t) :
    t.optr.toNat ≤ s.params.obufSize := by
  have kept (hsame : samePacker s t) : t.optr.toNat ≤ s.params.obufSize := by
    obtain ⟨-, -, hoptr, -⟩ := hsame
    rwa [hoptr]
  have stored (hi : (∃ n, i = .putBits n) ∨ (∃ sym, i = .encSym sym) ∨ i = .flush) :
      t.optr.toNat ≤ s.params.obufSize := by
    obtain ⟨-, hle, -⟩ := exec_storesBetweenOptrs hp hbound hi h
    exact hle
  cases i with
  | nop | decInit | decSym => exact kept (exec_samePacker (.inl (by decide)) h)
  | getBits n => exact kept (exec_samePacker (.inr ⟨n, rfl⟩) h)
  | encInit => rw [exec_encInit h]; exact Nat.zero_le _
  | softReset => rw [exec_softReset h]; exact Nat.zero_le _
  | flush => exact stored (.inr (.inr rfl))
  | putBits n => exact stored (.inl ⟨n, rfl⟩)
  | encSym sym => exact stored (.inr (.inl ⟨sym, rfl⟩))

end Frames

/-- Settles O27: ENC_INIT and SOFT_RESET write the packer's registers but no byte of OBUF; the others leave the
packer. -/
theorem commandsThatStoreNothingLeaveObuf : Obligations.CommandsThatStoreNothingLeaveObuf := by
  intro i s t h
  refine ⟨fun hi a => ?_, fun hi => exec_samePacker hi h, fun hi => exec_sameUnpacker hi h⟩
  have kept (hi : i ∈ [Instr.nop, .decInit, .decSym] ∨ ∃ n, i = .getBits n) :
      Memory.read? t.obuf a = Memory.read? s.obuf a := by
    obtain ⟨-, -, -, -, -, hobuf⟩ := exec_samePacker hi h
    rw [hobuf]
  simp only [List.mem_cons, List.not_mem_nil, or_false] at hi
  obtain (rfl | rfl | rfl | rfl | rfl) | hi := hi
  · exact kept (.inl (by decide))
  · rw [exec_encInit h, complete_obuf]
  · exact kept (.inl (by decide))
  · exact kept (.inl (by decide))
  · rw [exec_softReset h, complete_obuf]
  · exact kept (.inr hi)

/-- Settles O46: an empty stream has the three facts, and each command keeps them. -/
theorem everyCommandKeepsThePackerInvariant : Obligations.EveryCommandKeepsThePackerInvariant := by
  refine ⟨fun p => packerInv_of_empty rfl rfl rfl rfl rfl, fun s t => exec_packerInv_of_emptied, ?_⟩
  intro i s t hp hbound hs h
  obtain ⟨hparams, -⟩ := exec_sameHostState h
  exact ⟨exec_packerInv hp hs h, hparams ▸ exec_optr_le hp hbound h⟩

end Sys2Proof.Machine
end

section
/-! SUPPORT. Runs of packing commands (spec/41_encode.md R126): each pushes the bits it is said to pack, so a run pushes
their concatenation; and over a text with codes for all its symbols these are the codes (R110). -/

namespace Sys2Proof.Machine

section PackRuns

variable {s t u : State} {i : Instr} {bits : List Bool}

theorem execNext_eq_some_iff : execNext i s = some t ↔ exec i s = .next t := by
  rw [execNext]
  split <;> simp_all

/-- A run's first command, and what the rest of the run packs. -/
theorem encodeRun_cons {v : Word} {rest : List (Word × Instr)} (h : encodeRun ((v, i) :: rest) s = some (u, bits)) :
    ∃ t bits', exec i { s with data := v } = .next t ∧ encodeRun rest t = some (u, bits') ∧
      bits = bitsPacked i { s with data := v } t ++ bits' := by
  rw [encodeRun] at h
  split at h
  · cases h
  · rename_i t hexec
    obtain ⟨⟨u', bits'⟩, hrest, heq⟩ := Option.map_eq_some_iff.1 h
    cases heq
    exact ⟨t, bits', execNext_eq_some_iff.1 hexec, hrest, rfl⟩

/-! ### The bits one command packs -/

/-- BITCOUNT tells that bits were pushed. -/
theorem add_ofNat_ne_self (x : Word) {n : Nat} (hpos : 1 ≤ n) (hmax : n ≤ 32) : x + BitVec.ofNat 32 n ≠ x := by
  intro h
  have hx := congrArg BitVec.toNat h
  rw [BitVec.toNat_add, BitVec.toNat_ofNat] at hx
  have := x.isLt
  omega

theorem bitsPacked_of_endsInError (h : EndsInError s t) : bitsPacked i s t = [] := by
  obtain ⟨e, d, -, -, rfl⟩ := h
  exact if_pos rfl

theorem bitsPacked_putBits {n : Nat} (h : t.bitcount ≠ s.bitcount) : bitsPacked (.putBits n) s t = bitsOf s.data n :=
  if_neg h

theorem bitsPacked_encSym {sym : Nat} {f : Found} (h : t.bitcount ≠ s.bitcount) (hfound : (lookup s sym).1 = .ok f) :
    bitsPacked (.encSym sym) s t = bitsOf f.code f.len := by
  rw [bitsPacked, if_neg h]
  simp only [hfound]

/-- The commands that pack: PUT_BITS with an operand a word can have, and ENC_SYM. -/
def PackingCommand (i : Instr) : Prop := (∃ n, 1 ≤ n ∧ n ≤ 32 ∧ i = .putBits n) ∨ (∃ sym, i = .encSym sym)

/-- `PushBits` that completes pushes its bits, counts them in BITCOUNT and leaves the stream open. -/
theorem pushBits_ok_pushed {n : Nat} {v : Word} (hp : s.params.legal) (h : pushBits n v s = .ok u) :
    Pushed (packerOf s) (packerOf u) (bitsOf v n) ∧ u.bitcount = s.bitcount + BitVec.ofNat 32 n ∧
      u.status = s.status := by
  obtain ⟨-, herr⟩ | ⟨-, q, hq, hok⟩ := pushBits_spec n v s hp.2.2.1.2.2
  · rw [herr] at h
    cases h
  · rw [hok] at h
    obtain rfl := Except.ok.inj h
    exact ⟨hq, rfl, rfl⟩

/-- A command that fails pushes nothing. -/
theorem EndsInError.pushed (h : EndsInError s t) (hopen : s.status.encClosed = false) :
    Pushed (packerOf s) (packerOf t) (bitsPacked i s t) ∧ t.status.encClosed = false := by
  rw [bitsPacked_of_endsInError h]
  obtain ⟨e, d, -, -, rfl⟩ := h
  exact ⟨Pushed.refl _, hopen⟩

/-- A packing command in an open stream, failing or not, pushes the bits R126 counts for it. -/
theorem exec_pushed_bitsPacked (hp : s.params.legal) (hi : PackingCommand i) (hopen : s.status.encClosed = false)
    (h : exec i s = .next t) :
    Pushed (packerOf s) (packerOf t) (bitsPacked i s t) ∧ t.status.encClosed = false := by
  obtain ⟨n, hpos, hmax, rfl⟩ | ⟨sym, rfl⟩ := hi
  · obtain herr | ⟨-, u, hpush, rfl⟩ := exec_putBits_cases h
    · exact herr.pushed hopen
    · obtain ⟨hq, hcount, hstatus⟩ := pushBits_ok_pushed hp hpush
      have hne : (complete false u).bitcount ≠ s.bitcount := hcount.trans_ne (add_ofNat_ne_self _ hpos hmax)
      rw [bitsPacked_putBits hne]
      exact ⟨hq, (congrArg Status.encClosed hstatus).trans hopen⟩
  · obtain herr | ⟨-, f, u, hfound, hpush, rfl⟩ := exec_encSym_cases h
    · exact herr.pushed hopen
    · obtain ⟨hq, hcount, hstatus⟩ := pushBits_ok_pushed (s := withDraws (lookup s sym).2 s) hp hpush
      obtain ⟨hpos, hlen⟩ := lookup_len hfound
      have hmax : f.len ≤ 32 := hlen.trans hp.2.1.2
      have hne := hcount.trans_ne (add_ofNat_ne_self _ hpos hmax)
      have hclosed : u.status.encClosed = false := (congrArg Status.encClosed hstatus).trans hopen
      cases f.fallback
      all_goals
        rw [bitsPacked_encSym (by exact hne) hfound]
        exact ⟨hq, hclosed⟩

/-! ### The bits a run packs -/

/-- An open stream of a legal build, inside OBUF and with the facts of R127. -/
structure OpenStream (s : State) : Prop where
  legal     : s.params.legal
  isOpen    : s.status.encClosed = false
  optrBound : s.optr.toNat ≤ s.params.obufSize
  packer    : PackerInv s

/-- The host's write of DATA is no matter of the stream's. -/
theorem OpenStream.withData (h : OpenStream s) (v : Word) : OpenStream { s with data := v } :=
  ⟨h.legal, h.isOpen, h.optrBound, h.packer.congr ⟨rfl, rfl, rfl, rfl, rfl, rfl⟩⟩

theorem exec_openStream (h : OpenStream s) (hi : PackingCommand i) (hexec : exec i s = .next t) :
    Pushed (packerOf s) (packerOf t) (bitsPacked i s t) ∧ OpenStream t := by
  obtain ⟨hparams, -⟩ := exec_sameHostState hexec
  obtain ⟨hpushed, hopen⟩ := exec_pushed_bitsPacked h.legal hi h.isOpen hexec
  exact ⟨hpushed, hparams ▸ h.legal, hopen, hparams ▸ exec_optr_le h.legal h.optrBound hexec,
    exec_packerInv h.legal h.packer hexec⟩

/-- A run of packing commands pushes the bits it collects, and its stream stays open. -/
theorem encodeRun_openStream {cmds : List (Word × Instr)} (h : OpenStream s)
    (hcmds : ∀ c ∈ cmds, PackingCommand c.2)
    (hrun : encodeRun cmds s = some (u, bits)) : Pushed (packerOf s) (packerOf u) bits ∧ OpenStream u := by
  induction cmds generalizing s bits with
  | nil =>
    cases hrun
    exact ⟨Pushed.refl _, h⟩
  | cons c rest ih =>
    obtain ⟨v, i⟩ := c
    obtain ⟨t, bits', hexec, hrest, rfl⟩ := encodeRun_cons hrun
    obtain ⟨hpushed, ht⟩ := exec_openStream (h.withData v) (hcmds (v, i) List.mem_cons_self) hexec
    obtain ⟨hpushed', hu⟩ := ih ht (fun c hc => hcmds c (List.mem_cons_of_mem _ hc)) hrest
    exact ⟨hpushed.trans hpushed', hu⟩

/-- Between two states of an open stream BITCOUNT counts the bits pushed (R127). -/
theorem OpenStream.bitcount_of_pushed (h : OpenStream s) (h' : OpenStream u)
    (hpushed : Pushed (packerOf s) (packerOf u) bits) : u.bitcount.toNat = s.bitcount.toNat + bits.length := by
  rw [h.packer.whileOpen h.isOpen, h'.packer.whileOpen h'.isOpen]
  exact hpushed.count

/-- ENC_INIT leaves an open stream of no bits (R121). -/
theorem openStream_of_encInit (hp : s.params.legal) (h : exec .encInit s = .next t) :
    OpenStream t ∧ packedBits t = some [] ∧ t.bitcount = 0 := by
  have hpacker := exec_packerInv_of_emptied (.inl h)
  obtain rfl := exec_encInit h
  exact ⟨⟨hp, rfl, Nat.zero_le _, hpacker⟩, rfl, rfl⟩

/-- FLUSH of an open stream that completes leaves the packed bytes of its bits (R125, R126). -/
theorem exec_flush_openStream (h : OpenStream s) (hbits : packedBits s = some bits) (hexec : exec .flush s = .next t)
    (hclosed : t.status.encClosed = true) :
    payload t = some (packBytes bits) ∧ t.optr.toNat = (s.bitcount.toNat + 7) / 8 ∧ t.bitcount = s.bitcount := by
  obtain ⟨-, hfull, hflush⟩ := flushPadsWritesAndCloses.2 s h.legal
  have hroom : s.accN = 0 ∨ s.optr.toNat + 1 ≤ s.params.obufSize := by
    by_contra hno
    obtain ⟨hpending, hno⟩ := not_or.1 hno
    have hpos : 0 < s.accN.toNat := Nat.pos_of_ne_zero fun h => hpending (BitVec.eq_of_toNat_eq h)
    rw [hfull h.isOpen hpos (by omega)] at hexec
    injection hexec with hexec
    rw [← hexec, raiseErr_status_encClosed, h.isOpen] at hclosed
    cases hclosed
  obtain ⟨t', hexec', hpayload, hoptr, -, -, hcount, -⟩ := hflush h.isOpen hroom h.optrBound h.packer.accLow
  obtain rfl : t' = t := by injection hexec'.symm.trans hexec
  rw [← h.packer.whileOpen h.isOpen] at hoptr
  rw [hbits] at hpayload
  exact ⟨hpayload, hoptr, hcount⟩

/-! ### The bits of a text -/

theorem errMask_ne_zero (e : ErrFlag) : errMask e ≠ 0 := by
  cases e <;> decide

theorem EndsInError.errors_ne_zero (h : EndsInError s t) : t.status.errors ≠ 0 := by
  obtain ⟨e, d, -, -, rfl⟩ := h
  intro hzero
  obtain ⟨-, hmask⟩ := BitVec.or_eq_zero_iff.1 hzero
  exact errMask_ne_zero e hmask

theorem exec_of_setsNoError (h : setsNoError i s = true) :
    ∃ t, exec i (withErrors 0 s) = .next t ∧ t.status.errors = 0 := by
  rw [setsNoError] at h
  split at h
  · exact ⟨_, execNext_eq_some_iff.1 ‹_›, beq_iff_eq.1 h⟩
  · cases h

theorem noneFails_cons {v : Word} {rest : List (Word × Instr)} (h : noneFails ((v, i) :: rest) s = true)
    (hexec : exec i { s with data := v } = .next t) :
    setsNoError i { s with data := v } = true ∧ noneFails rest t = true := by
  rw [noneFails, execNext_eq_some_iff.2 hexec, Bool.and_eq_true] at h
  exact h

/-- `PushBits` that completes had room for its bits (R120). -/
theorem pushBits_ok_room {n : Nat} {v : Word} (h : pushBits n v s = .ok u) :
    s.optr.toNat + (s.accN.toNat + n) / 8 ≤ s.params.obufSize := by
  by_contra hfull
  rw [pushBits_of_full (Nat.not_le.1 hfull)] at h
  cases h

/-- CT holds the code `k` for the symbol `x`, of a length the build allows (R112, R115). -/
structure HoldsCode (s : State) (x : Nat) (k : List Bool) : Prop where
  control : Memory.read? s.tables.ctControl x = some { valid := true, len := BitVec.ofNat 6 k.length }
  code    : Memory.read? s.tables.ctCode x = some (BitVec.ofNat 32 (bitsValue k))
  length  : k.length ≤ s.params.maxCodeLen

/-- `Lookup` of a symbol whose code CT holds gives no error but that of an empty code, and the code's bits (R123). -/
theorem lookup_of_holdsCode {x : Nat} {k : List Bool} (hp : s.params.legal) (h : HoldsCode s x k) {f : Found}
    (hfound : (lookup s x).1 = .ok f) : lookup s x = (.ok f, s.draws) ∧ bitsOf f.code f.len = k := by
  have hvalid : ctValid s x = true := by rw [ctValid, h.control]
  have hlength : k.length ≤ 32 := h.length.trans hp.2.1.2
  have hlen : (BitVec.ofNat 6 k.length).toNat = k.length := Nat.mod_eq_of_lt (by omega)
  have hlookup := lookup_of (.inl ⟨hvalid, rfl, rfl⟩) h.control h.code
  split at hlookup
  · rw [hlookup] at hfound
    cases hfound
  · rw [hlookup] at hfound
    cases hfound
    exact ⟨hlookup, by rw [hlen, bitsOf_bitsValue k hlength]⟩

/-- An ENC_SYM that sets no error packs the code that CT holds for its symbol (R124). -/
theorem bitsPacked_of_holdsCode {x : Nat} {k : List Bool} (hp : s.params.legal) (hk : HoldsCode s x k)
    (hno : setsNoError (.encSym x) s = true) (h : exec (.encSym x) s = .next t) : bitsPacked (.encSym x) s t = k := by
  obtain ⟨t', hexec, hclear⟩ := exec_of_setsNoError hno
  obtain herr | ⟨hopen, f, u, hfound, hpush, -⟩ := exec_encSym_cases hexec
  · exact absurd hclear herr.errors_ne_zero
  · rw [lookup_withErrors] at hfound
    obtain ⟨hlookup, hbits⟩ := lookup_of_holdsCode hp hk hfound
    obtain ⟨hpos, hlen⟩ := lookup_len hfound
    have hroom : s.optr.toNat + (s.accN.toNat + f.len) / 8 ≤ s.params.obufSize :=
      pushBits_ok_room (s := withDraws _ (withErrors 0 s)) hpush
    obtain ⟨q, -, hpacked⟩ := exec_encSym_of_found hp hopen hlookup hroom
    rw [hpacked] at h
    injection h with h
    have hne : t.bitcount ≠ s.bitcount := by
      rw [← h]
      exact add_ofNat_ne_self _ hpos (hlen.trans hp.2.1.2)
    rw [bitsPacked_encSym hne hfound, hbits]

theorem holdsCodes_congr {codes : List (Nat × List Bool)} (h : holdsCodes s codes) (htables : t.tables = s.tables) :
    holdsCodes t codes := by
  simpa only [holdsCodes, ctValid, htables] using h

theorem holdsCode_of_codeOf {codes : List (Nat × List Bool)} {x : Nat} {k : List Bool} (h : holdsCodes s codes)
    (hfits : fitsBuild s.params codes = true) (hk : codeOf codes x = some k) : HoldsCode s x k := by
  have hx := h x
  rw [hk] at hx
  obtain ⟨hcontrol, hcode⟩ := hx
  have hfit := List.all_eq_true.1 hfits (x, k) (Memory.mem_of_read? hk)
  rw [Bool.and_eq_true, decide_eq_true_eq, decide_eq_true_eq] at hfit
  exact ⟨hcontrol, hcode, hfit.2⟩

/-- `encode` of a text whose first symbol has a code (R110). -/
theorem encodeText_cons {codes : List (Nat × List Bool)} {space x : Nat} {text : List Nat} {k : List Bool}
    (hk : codeOf codes x = some k) (h : encodeText codes space text = some bits) :
    encodeText codes space (x :: text) = some (k ++ bits) := by
  obtain ⟨ks, hks, rfl⟩ := Option.map_eq_some_iff.1 h
  have hx : codeOrFallback codes space x = some k := by rw [codeOrFallback, hk]
  simp [encodeText, List.mapM_cons, hx, hks]

/-- The ENC_SYMs of a text with codes for all its symbols, none failing, pack `encode` of the text (R126). -/
theorem encodeText_of_encodeRun {cmds : List (Word × Instr)} {text : List Nat} {codes : List (Nat × List Bool)}
    (space : Nat) (hp : s.params.legal) (hcmds : cmds.map Prod.snd = text.map Instr.encSym)
    (hcodes : holdsCodes s codes) (hfits : fitsBuild s.params codes = true) (hcoded : ∀ x ∈ text, (codeOf codes x).isSome = true)
    (hno : noneFails cmds s = true) (hrun : encodeRun cmds s = some (u, bits)) :
    encodeText codes space text = some bits := by
  induction text generalizing cmds s bits with
  | nil =>
    obtain rfl := List.map_eq_nil_iff.1 hcmds
    cases hrun
    rfl
  | cons x text ih =>
    obtain ⟨⟨v, i⟩, rest, rfl, rfl, hrest⟩ := List.map_eq_cons_iff.1 hcmds
    obtain ⟨t, bits', hexec, hrun', rfl⟩ := encodeRun_cons hrun
    obtain ⟨hno', hnone⟩ := noneFails_cons hno hexec
    obtain ⟨hparams, -, -, -, htables, -⟩ := exec_sameHostState hexec
    obtain ⟨k, hk⟩ := Option.isSome_iff_exists.1 (hcoded x List.mem_cons_self)
    have hheld : HoldsCode { s with data := v } x k := holdsCode_of_codeOf (holdsCodes_congr hcodes rfl) hfits hk
    rw [bitsPacked_of_holdsCode (s := { s with data := v }) hp hheld hno' hexec]
    refine encodeText_cons hk (ih (hparams ▸ hp) hrest (holdsCodes_congr hcodes htables) (hparams ▸ hfits)
      (fun y hy => hcoded y (List.mem_cons_of_mem _ hy)) hnone hrun')

end PackRuns

/-- Settles O47: the run pushes its bits onto the empty stream of ENC_INIT, BITCOUNT counts them by R127, and FLUSH
leaves their packed bytes. -/
theorem packLaw : Obligations.PackLaw := by
  intro s0 s1 s2 t cmds bits hp hinit hcmds hrun hflush hclosed
  obtain ⟨hparams, -, -, -, htables, -⟩ := exec_sameHostState hinit
  obtain ⟨hopen1, hempty, hzero⟩ := openStream_of_encInit hp hinit
  obtain ⟨hpushed, hopen2⟩ := encodeRun_openStream hopen1 hcmds hrun
  have hbits : packedBits s2 = some bits := by
    have hstream := hpushed.stream
    rwa [← packedBits_eq, ← packedBits_eq, hempty] at hstream
  have hcount : s2.bitcount.toNat = bits.length := by
    rw [hopen1.bitcount_of_pushed hopen2 hpushed, hzero]
    exact Nat.zero_add _
  obtain ⟨hpayload, hoptr, hkept⟩ := exec_flush_openStream hopen2 hbits hflush hclosed
  rw [hkept, hoptr, hcount]
  exact ⟨rfl, rfl, hpayload, fun text codes htext hcodes hfits hcoded hnone =>
    encodeText_of_encodeRun _ (hparams ▸ hp) htext (holdsCodes_congr hcodes htables) (hparams ▸ hfits) hcoded hnone
      hrun⟩

end Sys2Proof.Machine
end

section
/-! SUPPORT. The words of GET_BITS (spec/30_encoding.md R80, R82, R92). -/

namespace Sys2Proof

theorem encode_getBits (n : Nat) : encode (.getBits n) = 0x60000000 + BitVec.ofNat 32 (n - 1) := by
  have hopc : opcode (.getBits n) <<< 28 = 0x60000000 := by norm_num [opcode, Nat.shiftLeft_eq]
  rw [encode, hopc, operandBits, BitVec.ofNat_add, BitVec.ofNat_eq_ofNat]

end Sys2Proof
end

section
/-! SUPPORT. DEC_INIT, GET_BITS and DEC_SYM, each by the conditions of its rule (spec/42_decode.md R140 to R142). -/

namespace Sys2Proof.Machine

section Decoding

variable {s : State} {bytes : List Byte} {n : Nat}

theorem bitlenTooBig_of_gt (h : s.bitlen.toNat > 8 * s.params.ibufSize) : bitlenTooBig s = true :=
  decide_eq_true h

theorem bitlenTooBig_of_le (h : s.bitlen.toNat ≤ 8 * s.params.ibufSize) : bitlenTooBig s = false :=
  decide_eq_false (Nat.not_lt.2 h)

/-- A bit index advanced, as a number and as a word, is the same advance. -/
theorem ofNat_toNat_add (x : Word) (k : Nat) : BitVec.ofNat 32 (x.toNat + k) = x + BitVec.ofNat 32 k := by
  rw [BitVec.ofNat_add, BitVec.ofNat_toNat, BitVec.setWidth_eq]

/-- IPTR advanced up to BITLEN does not wrap. -/
theorem toNat_add_ofNat_of_le {x y : Word} {k : Nat} (h : x.toNat + k ≤ y.toNat) :
    (x + BitVec.ofNat 32 k).toNat = x.toNat + k := by
  have := y.isLt
  rw [BitVec.toNat_add, BitVec.toNat_ofNat]
  omega

/-! ### DEC_INIT -/

theorem exec_decInit_of_no_tree (hroot : s.tables.root.valid = false) :
    exec .decInit s = .next (raiseErr .empty s) := by
  show execDecInit s = _
  rw [execDecInit, hroot]
  rfl

theorem exec_decInit_of_tooBig (hvalid : s.tables.root.valid = true) (hinner : s.tables.root.isLeaf = false)
    (hbig : s.bitlen.toNat > 8 * s.params.ibufSize) : exec .decInit s = .next (raiseErr .param s) := by
  show execDecInit s = _
  rw [execDecInit, hvalid, hinner, bitlenTooBig_of_gt hbig]
  rfl

/-- The state a decode starts from: the first bit, the full weight, EOS clear (R140). -/
def decodeStart (s : State) : State :=
  { s with iptr := 0, degenRemain := s.tables.degenWeight, pend := none,
           status := { s.status with eos := false, resValid := false, done := true } }

theorem exec_decInit_starts (hvalid : s.tables.root.valid = true)
    (hfits : s.tables.root.isLeaf = true ∨ s.bitlen.toNat ≤ 8 * s.params.ibufSize) :
    exec .decInit s = .next (decodeStart s) := by
  have hcheck : (!s.tables.root.isLeaf && bitlenTooBig s) = false := by
    obtain hleaf | hle := hfits
    · rw [hleaf]; rfl
    · rw [bitlenTooBig_of_le hle, Bool.and_false]
  show execDecInit s = _
  rw [execDecInit, hvalid, hcheck]
  rfl

/-! ### The input stream -/

/-- IBUF holds the bytes, BITLEN of whose bits are the input stream, and BITLEN fits IBUF (R33, R143). -/
structure InputHolds (s : State) (bytes : List Byte) : Prop where
  holds  : ibufHolds s bytes
  length : s.bitlen.toNat ≤ 8 * bytes.length
  fits   : s.bitlen.toNat ≤ 8 * s.params.ibufSize

/-- The bits of the input stream from IPTR on. -/
def bitsAhead (s : State) (bytes : List Byte) : List Bool := (unpackBits bytes s.bitlen.toNat).drop s.iptr.toNat

theorem length_bitsAhead (h : InputHolds s bytes) : (bitsAhead s bytes).length = s.bitlen.toNat - s.iptr.toNat := by
  rw [bitsAhead, List.length_drop, length_unpackBits _ _ h.length]

/-- R141's loop over a written IBUF reads the next bits of `unpack`, and draws nothing. -/
theorem takeBits_of_holds (h : InputHolds s bytes) (hroom : s.iptr.toNat + n ≤ s.bitlen.toNat) (d : Nat) :
    takeBits s.ibuf n s.iptr.toNat 0 d = (bitsValue ((bitsAhead s bytes).take n), d) := by
  have hlength : ((bitsAhead s bytes).take n).length = n := by
    rw [List.length_take, length_bitsAhead h]
    omega
  have hread := takeBits_eq (m := s.ibuf) ((bitsAhead s bytes).take n) s.iptr.toNat 0 d fun j b hj d => ?_
  · rwa [hlength] at hread
  · obtain ⟨hjn, -⟩ := List.getElem?_eq_some_iff.1 hj
    rw [hlength] at hjn
    obtain ⟨b', hb', hin⟩ := inBit_of_holds (k := s.iptr.toNat + j) (d := d) h.holds h.length (by omega)
    rw [List.getElem?_take_of_lt hjn, bitsAhead, List.getElem?_drop, hb'] at hj
    rw [hin, Option.some.inj hj]

/-! ### GET_BITS -/

theorem exec_getBits_of_tooBig (hbig : s.bitlen.toNat > 8 * s.params.ibufSize) :
    exec (.getBits n) s = .next (raiseErr .param s) := by
  show execGetBits n s = _
  rw [execGetBits, if_pos (bitlenTooBig_of_gt hbig)]

theorem exec_getBits_of_underrun (hfits : s.bitlen.toNat ≤ 8 * s.params.ibufSize)
    (hunder : s.iptr.toNat + n > s.bitlen.toNat) : exec (.getBits n) s = .next (raiseErr .underrun s) := by
  show execGetBits n s = _
  rw [execGetBits, bitlenTooBig_of_le hfits, if_pos hunder]
  rfl

/-- What GET_BITS leaves that read the number `v` in `n` bits, the draws then counted as `d` (R141). -/
def bitsRead (v n d : Nat) (s : State) : State :=
  { s with result := BitVec.ofNat 32 v, iptr := s.iptr + BitVec.ofNat 32 n, pend := none, draws := d,
           status := { s.status with resValid := true, done := true } }

theorem exec_getBits_reads {v d : Nat} (hfits : s.bitlen.toNat ≤ 8 * s.params.ibufSize)
    (hroom : s.iptr.toNat + n ≤ s.bitlen.toNat) (hread : takeBits s.ibuf n s.iptr.toNat 0 s.draws = (v, d)) :
    exec (.getBits n) s = .next (bitsRead v n d s) := by
  show execGetBits n s = _
  rw [execGetBits, bitlenTooBig_of_le hfits, if_neg (Nat.not_lt.2 hroom), hread]
  rfl

/-! ### DEC_SYM before the walk -/

theorem exec_decSym_of_no_tree (hroot : s.tables.root.valid = false) :
    exec .decSym s = .next (raiseErr .empty s) := by
  show execDecSym s = _
  rw [execDecSym, hroot]
  rfl

theorem exec_decSym_of_leaf (hvalid : s.tables.root.valid = true) (hleaf : s.tables.root.isLeaf = true) :
    exec .decSym s = decSymLeafRoot s := by
  show execDecSym s = _
  rw [execDecSym, hvalid, hleaf]
  rfl

theorem exec_decSym_of_inner (hvalid : s.tables.root.valid = true) (hinner : s.tables.root.isLeaf = false) :
    exec .decSym s = decSymWalk s := by
  show execDecSym s = _
  rw [execDecSym, hvalid, hinner]
  rfl

theorem exec_decSym_of_tooBig (hvalid : s.tables.root.valid = true) (hinner : s.tables.root.isLeaf = false)
    (hbig : s.bitlen.toNat > 8 * s.params.ibufSize) : exec .decSym s = .next (raiseErr .param s) := by
  rw [exec_decSym_of_inner hvalid hinner, decSymWalk, if_pos (bitlenTooBig_of_gt hbig)]

theorem exec_decSym_of_end (hvalid : s.tables.root.valid = true) (hinner : s.tables.root.isLeaf = false)
    (hfits : s.bitlen.toNat ≤ 8 * s.params.ibufSize) (hend : s.bitlen.toNat ≤ s.iptr.toNat) :
    exec .decSym s = .next (endOfStream s) := by
  rw [exec_decSym_of_inner hvalid hinner, decSymWalk, bitlenTooBig_of_le hfits, if_pos hend]
  rfl

/-! ### DEC_SYM over a leaf root -/

theorem decSymLeafRoot_of_table (hsym : s.params.alphabet ≤ s.tables.root.val.toNat) :
    decSymLeafRoot s = .next (raiseErr .table s) := by
  rw [decSymLeafRoot, if_pos hsym]

theorem decSymLeafRoot_of_none_left (hsym : s.tables.root.val.toNat < s.params.alphabet) (hnone : s.degenRemain = 0) :
    decSymLeafRoot s = .next (endOfStream s) := by
  rw [decSymLeafRoot, if_neg (Nat.not_le.2 hsym), if_pos hnone]

/-- What DEC_SYM leaves that emitted the symbol of a leaf root once more (R142). -/
def leafEmitted (s : State) : State :=
  { s with result := s.tables.root.val.setWidth 32, degenRemain := s.degenRemain - 1, pend := none,
           status := { s.status with eos := false, resValid := true, done := true } }

theorem decSymLeafRoot_emits (hsym : s.tables.root.val.toNat < s.params.alphabet) (hleft : 0 < s.degenRemain.toNat) :
    decSymLeafRoot s = .next (leafEmitted s) := by
  have hne : s.degenRemain ≠ 0 := fun h => by simp [h] at hleft
  rw [decSymLeafRoot, if_neg (Nat.not_le.2 hsym), if_neg hne]
  rfl

theorem toNat_sub_one {x : Word} (h : 0 < x.toNat) : (x - 1).toNat = x.toNat - 1 := by
  bv_omega

/-! ### DEC_SYM's walk -/

/-- DEC_SYM's checks pass and its walk starts (R142): an internal root, BITLEN in range, a bit left. -/
structure WalkStarts (s : State) : Prop where
  valid : s.tables.root.valid = true
  inner : s.tables.root.isLeaf = false
  fits  : s.bitlen.toNat ≤ 8 * s.params.ibufSize
  left  : s.iptr.toNat < s.bitlen.toNat

/-- The walk of R142 from ROOT over the bits from IPTR on. -/
def walkFromRoot (s : State) : Except ErrFlag (BitVec 16 × Nat) × Nat :=
  walk s (s.bitlen.toNat - s.iptr.toNat) s.tables.root.val.toNat s.iptr.toNat s.draws

theorem exec_decSym_of_walk_error {e : ErrFlag} {d : Nat} (h : WalkStarts s) (hwalk : walkFromRoot s = (.error e, d)) :
    exec .decSym s = .next (raiseErr e (withDraws d s)) := by
  rw [walkFromRoot] at hwalk
  rw [exec_decSym_of_inner h.valid h.inner, decSymWalk, bitlenTooBig_of_le h.fits, if_neg (Nat.not_le.2 h.left), hwalk]
  rfl

/-- What DEC_SYM leaves that emitted `v` after a code of `k` bits, the draws then counted as `d` (R142). -/
def emitted (v : Word) (k d : Nat) (s : State) : State :=
  { s with result := v, iptr := s.iptr + BitVec.ofNat 32 k, pend := none, draws := d,
           status := { s.status with eos := false, resValid := true, done := true } }

theorem exec_decSym_of_walk_ok {sym : BitVec 16} {k d : Nat} (h : WalkStarts s)
    (hwalk : walkFromRoot s = (.ok (sym, s.iptr.toNat + k), d)) :
    exec .decSym s = .next (emitted (sym.setWidth 32) k d s) := by
  rw [walkFromRoot] at hwalk
  rw [exec_decSym_of_inner h.valid h.inner, decSymWalk, bitlenTooBig_of_le h.fits, if_neg (Nat.not_le.2 h.left), hwalk]
  simp only [ofNat_toNat_add]
  rfl

/-- A walk at a node out of range ends there, whatever bits are left (R142). -/
theorem walk_of_node_out_of_range {left node p d : Nat} (h : s.params.dtNodes ≤ node) :
    walk s left node p d = (.error .table, d) := by
  cases left <;> rw [walk, if_pos h]

/-- A walk that runs out of bits at a node in range (R142). -/
theorem walk_of_no_bit_left {node p d : Nat} (h : node < s.params.dtNodes) :
    walk s 0 node p d = (.error .malformed, d) := by
  rw [walk, if_neg (Nat.not_le.2 h)]

/-- A walk whose next bit leads to a written leaf child (R142). -/
theorem walk_of_leaf_child {left node p d : Nat} {b : Bool} {c : Desc} (hnode : node < s.params.dtNodes)
    (hbit : inBit s.ibuf p d = (b, d))
    (hchild : Memory.read? (if b then s.tables.dtRight else s.tables.dtLeft) node = some c) (hleaf : c.leaf = true) :
    walk s (left + 1) node p d =
      if c.val.toNat ≥ s.params.alphabet then (.error .table, d) else (.ok (c.val, p + 1), d) := by
  have hcell : readChild s b node d = (c, d) := readCell_written hchild
  rw [walk, if_neg (Nat.not_le.2 hnode), hbit]
  simp only [hcell, hleaf, if_true]

/-- Whatever DT and IBUF hold, the walk raises one of its two errors, or ends past its start and within its bits. -/
theorem walkFromRoot_cases (hleft : s.iptr.toNat < s.bitlen.toNat) :
    (∃ e d, (e = .table ∨ e = .malformed) ∧ s.draws ≤ d ∧ walkFromRoot s = (.error e, d)) ∨
    (∃ sym k d, sym.toNat < s.params.alphabet ∧ 1 ≤ k ∧ s.iptr.toNat + k ≤ s.bitlen.toNat ∧ s.draws ≤ d ∧
      walkFromRoot s = (.ok (sym, s.iptr.toNat + k), d)) := by
  obtain ⟨hdraws, hend⟩ : s.draws ≤ (walkFromRoot s).2 ∧ _ := walk_bound s _ _ _ s.draws
  cases hresult : (walkFromRoot s).1 with
  | error e => exact .inl ⟨e, _, walk_error s _ _ _ _ e hresult, hdraws, Prod.ext hresult rfl⟩
  | ok out =>
    obtain ⟨sym, q⟩ := out
    obtain ⟨hpast, hwithin, hsym⟩ := hend sym q hresult
    obtain ⟨k, rfl⟩ := Nat.exists_eq_add_of_lt hpast
    exact .inr ⟨sym, k + 1, _, hsym, Nat.le_add_left .., by omega, hdraws, Prod.ext hresult rfl⟩

end Decoding

/-- Settles O20: DEC_INIT has one word, and its checks come in R140's order. -/
theorem decInitStartsADecode : Obligations.DecInitStartsADecode :=
  ⟨fun _ _ => decode_formatZ_only_encode (i := .decInit) (by decide), fun _ =>
    ⟨exec_decInit_of_no_tree, exec_decInit_of_tooBig, exec_decInit_starts⟩⟩

/-- Settles O21: GET_BITS in R141's order; its loop reads a number of `n` bits, and over a written IBUF the bits of
`unpack`. -/
theorem getBitsReturnsTheNextBits : Obligations.GetBitsReturnsTheNextBits := by
  refine ⟨fun p w hopc hbits => (decode_eq_error_iff p w).2 (.inr (.inl ⟨by rw [hopc]; decide, hbits⟩)), ?_⟩
  intro s n hp hpos hmax
  refine ⟨?_, exec_getBits_of_tooBig, exec_getBits_of_underrun, fun hfits hroom => ?_⟩
  · have hdecode := encodedCommandDecodesBack s.params (.getBits n) hp (decide_eq_true ⟨hpos, hmax⟩)
    rwa [encode_getBits] at hdecode
  · refine ⟨_, _, exec_getBits_reads hfits hroom rfl, ?_, toNat_add_ofNat_of_le hroom, fun bytes hholds hlength => ?_⟩
    · simpa using (takeBits_bound s.ibuf n s.iptr.toNat 0 s.draws).1
    · have hread := takeBits_of_holds ⟨hholds, hlength, hfits⟩ hroom s.draws
      exact ⟨congrArg Prod.fst hread, congrArg Prod.snd hread⟩

/-- Settles O22: the leaf root's branch of R142 in its order. -/
theorem decSymOfALeafRootRepeatsItsSymbol : Obligations.DecSymOfALeafRootRepeatsItsSymbol := by
  intro s hvalid hleaf
  rw [exec_decSym_of_leaf hvalid hleaf]
  exact ⟨decSymLeafRoot_of_table, decSymLeafRoot_of_none_left, fun hsym hleft =>
    ⟨decSymLeafRoot_emits hsym hleft, toNat_sub_one hleft⟩⟩

/-- Settles O23: DEC_SYM has one word; a root index out of range ends the walk before its first bit. -/
theorem decSymChecksBeforeTheWalk : Obligations.DecSymChecksBeforeTheWalk := by
  refine ⟨fun _ _ => decode_formatZ_only_encode (i := .decSym) (by decide), fun s =>
    ⟨exec_decSym_of_no_tree, fun hvalid hinner =>
      ⟨exec_decSym_of_tooBig hvalid hinner, exec_decSym_of_end hvalid hinner, fun hfits hleft hroot => ?_⟩⟩⟩
  exact exec_decSym_of_walk_error ⟨hvalid, hinner, hfits, hleft⟩ (walk_of_node_out_of_range hroot)

/-- Settles O25: the walk follows the path to the node, and what it does there is the node's and its next bit's. -/
theorem decSymFollowsTheDecodeTable : Obligations.DecSymFollowsTheDecodeTable := by
  intro s bytes path node hvalid hinner hholds hlength hfits hleft hpath hfollow
  have hstarts : WalkStarts s := ⟨hvalid, hinner, hfits, hleft⟩
  have hwalk : walkFromRoot s =
      walk s (s.bitlen.toNat - (s.iptr.toNat + path.length)) node (s.iptr.toNat + path.length) s.draws :=
    walk_follow hholds hlength path _ node _ _ hpath hfollow
  refine ⟨fun hout => ?_, fun hnode hend => ?_, fun b c hnode hpre hchild hleaf => ?_⟩
  · rw [walk_of_node_out_of_range hout] at hwalk
    exact exec_decSym_of_walk_error hstarts hwalk
  · rw [hend, Nat.sub_eq_zero_of_le (by omega), walk_of_no_bit_left hnode] at hwalk
    exact exec_decSym_of_walk_error hstarts hwalk
  · have hnext : [b] <+: (unpackBits bytes s.bitlen.toNat).drop (s.iptr.toNat + path.length) := by
      simpa using hpre.drop path.length
    obtain ⟨hlt, hbit, -⟩ := inBit_of_prefix s.draws hholds hlength hnext
    obtain ⟨left, hleft⟩ : ∃ left, s.bitlen.toNat - (s.iptr.toNat + path.length) = left + 1 :=
      ⟨_, (Nat.succ_pred_eq_of_pos (by omega)).symm⟩
    rw [hleft, walk_of_leaf_child hnode hbit hchild hleaf] at hwalk
    constructor
    · intro hsym
      rw [if_pos hsym] at hwalk
      exact exec_decSym_of_walk_error hstarts hwalk
    · intro hsym
      rw [if_neg (Nat.not_le.2 hsym)] at hwalk
      exact exec_decSym_of_walk_ok hstarts hwalk

/-- Settles O57: DEC_SYM raises the walk's error or emits the walk's symbol. -/
theorem decSymWalkEmitsASymbolOrRaisesTableOrMalformed :
    Obligations.DecSymWalkEmitsASymbolOrRaisesTableOrMalformed := by
  intro s hvalid hinner hfits hleft
  have hstarts : WalkStarts s := ⟨hvalid, hinner, hfits, hleft⟩
  obtain ⟨e, d, he, hdraws, hwalk⟩ | ⟨sym, k, d, hsym, hpos, hwithin, hdraws, hwalk⟩ := walkFromRoot_cases hleft
  · have hexec := exec_decSym_of_walk_error hstarts hwalk
    obtain rfl | rfl := he
    · exact ⟨d, hdraws, .inl hexec⟩
    · exact ⟨d, hdraws, .inr (.inl hexec)⟩
  · exact ⟨d, hdraws, .inr (.inr ⟨sym, k, hsym, hpos, hwithin, exec_decSym_of_walk_ok hstarts hwalk⟩)⟩

end Sys2Proof.Machine
end

section
/-! SUPPORT. DEC_SYM over a loaded tree (spec/42_decode.md R142, spec/40_table_generation.md R113, R114). -/

namespace Sys2Proof.Machine

section LoadedTree

variable {s t : State} {tree : Tree} {bytes : List Byte} {l r : Tree} {w : Nat}

/-- DT and ROOT hold the image of a tree that fits the build (R113 to R115). -/
structure TreeLoaded (s : State) (tree : Tree) : Prop where
  legal   : s.params.legal
  image   : holdsTree s tree
  nodes   : internalNodes tree ≤ s.params.dtNodes
  symbols : ∀ x ∈ treeSymbols tree, x < s.params.alphabet

theorem TreeLoaded.congr (h : TreeLoaded s tree) (hsame : sameHostState s t) : TreeLoaded t tree := by
  obtain ⟨hparams, -, -, -, htables, -⟩ := hsame
  obtain ⟨legal, image, nodes, symbols⟩ := h
  exact ⟨hparams ▸ legal, by rwa [holdsTree, htables], hparams ▸ nodes, hparams ▸ symbols⟩

theorem InputHolds.congr (h : InputHolds s bytes) (hsame : sameHostState s t) : InputHolds t bytes := by
  obtain ⟨hparams, -, -, hbitlen, -, hibuf, -⟩ := hsame
  obtain ⟨holds, length, fits⟩ := h
  exact ⟨by rwa [ibufHolds, hibuf], hbitlen ▸ length, hbitlen ▸ hparams ▸ fits⟩

theorem TreeLoaded.root (h : TreeLoaded s tree) : s.tables.root = rootImage tree := h.image.2

theorem TreeLoaded.root_valid (h : TreeLoaded s tree) : s.tables.root.valid = true := by
  rw [h.root]
  cases tree <;> rfl

theorem TreeLoaded.root_inner (h : TreeLoaded s (.node l r w)) : s.tables.root.isLeaf = false := by
  rw [h.root]
  rfl

theorem TreeLoaded.walkStarts (h : TreeLoaded s (.node l r w)) (hin : InputHolds s bytes)
    (hleft : s.iptr.toNat < s.bitlen.toNat) : WalkStarts s :=
  ⟨h.root_valid, h.root_inner, hin.fits, hleft⟩

/-- The two outcomes of the walk over a loaded tree, from its root. -/
theorem TreeLoaded.walkFromRoot (h : TreeLoaded s (.node l r w)) (hin : InputHolds s bytes)
    (hle : s.iptr.toNat ≤ s.bitlen.toNat) :
    (∀ sym code, (sym, code) ∈ assignCodes (.node l r w) → code <+: bitsAhead s bytes →
      walkFromRoot s = (.ok (BitVec.ofNat 16 sym, s.iptr.toNat + code.length), s.draws)) ∧
    ((∀ sym code, (sym, code) ∈ assignCodes (.node l r w) → ¬ code <+: bitsAhead s bytes) →
      walkFromRoot s = (.error .malformed, s.draws)) := by
  have hroot : s.tables.root.val.toNat = 0 := by rw [h.root]; rfl
  have hwalk := walk_tree hin.holds hin.length (alphabet_le h.legal) (.node l r w) 0 h.image.1
    (by rw [Nat.zero_add]; exact h.nodes) h.symbols s.iptr.toNat s.draws hle
  rw [Machine.walkFromRoot, hroot]
  exact hwalk

/-- A symbol of 16 bits, widened to RESULT. -/
theorem setWidth_ofNat_symbol {sym : Nat} (h : sym < 65536) :
    (BitVec.ofNat 16 sym).setWidth 32 = BitVec.ofNat 32 sym := by
  apply BitVec.eq_of_toNat_eq
  simp only [BitVec.toNat_setWidth, BitVec.toNat_ofNat]
  omega

theorem symbol_mem_of_code {sym : Nat} {code : List Bool} (h : (sym, code) ∈ assignCodes tree) :
    sym ∈ treeSymbols tree := by
  rw [← assignCodes_symbols]
  exact List.mem_map_of_mem h

/-- The bits ahead that start with a bit string reach as far as it does. -/
theorem iptr_add_length_le (hin : InputHolds s bytes) {code : List Bool} (hne : code ≠ [])
    (hpre : code <+: bitsAhead s bytes) : s.iptr.toNat + code.length ≤ s.bitlen.toNat := by
  have hlen := hpre.length_le
  have hpos := List.length_pos_iff.2 hne
  rw [length_bitsAhead hin] at hlen
  omega

/-- A code next in the stream is consumed and its symbol emitted. -/
theorem TreeLoaded.exec_emits (h : TreeLoaded s (.node l r w)) (hin : InputHolds s bytes) {sym : Nat}
    {code : List Bool} (hcode : (sym, code) ∈ assignCodes (.node l r w)) (hpre : code <+: bitsAhead s bytes) :
    exec .decSym s = .next (emitted (BitVec.ofNat 32 sym) code.length s.draws s) := by
  have hne : code ≠ [] := ne_nil_of_mem_walkCodes_node (w := w) hcode
  have hpos := List.length_pos_iff.2 hne
  have hroom := iptr_add_length_le hin hne hpre
  have hsym := h.symbols sym (symbol_mem_of_code hcode)
  rw [← setWidth_ofNat_symbol (hsym.trans_le (alphabet_le h.legal))]
  exact exec_decSym_of_walk_ok (h.walkStarts hin (by omega)) ((h.walkFromRoot hin (by omega)).1 sym code hcode hpre)

/-- Bits that run out before any code is complete move nothing. -/
theorem TreeLoaded.exec_malformed (h : TreeLoaded s (.node l r w)) (hin : InputHolds s bytes)
    (hleft : s.iptr.toNat < s.bitlen.toNat)
    (hno : ∀ sym code, (sym, code) ∈ assignCodes (.node l r w) → ¬ code <+: bitsAhead s bytes) :
    exec .decSym s = .next (raiseErr .malformed s) :=
  exec_decSym_of_walk_error (h.walkStarts hin hleft) ((h.walkFromRoot hin hleft.le).2 hno)

end LoadedTree

/-- Settles O24: the walk from the root over a loaded tree, with a code next in the stream and with none. -/
theorem decSymWalksTheLoadedTree : Obligations.DecSymWalksTheLoadedTree := by
  intro s l r w bytes hp himage hnodes hsymbols hholds hlength hfits
  have hloaded : TreeLoaded s (.node l r w) := ⟨hp, himage, hnodes, hsymbols⟩
  have hin : InputHolds s bytes := ⟨hholds, hlength, hfits⟩
  exact ⟨fun sym code => hloaded.exec_emits hin, hloaded.exec_malformed hin⟩

end Sys2Proof.Machine
end

section
/-! SUPPORT. The padding is never read (spec/42_decode.md R147): every command is the same over two IBUFs that agree
below BITLEN. -/

namespace Sys2Proof.Machine

section Padding

variable {s : State} {i : Instr} {n : Nat}

/-- IBUF replaced. -/
def withIbuf (m : Memory Byte) (s : State) : State := { s with ibuf := m }

/-- The command answers the same but for IBUF when IBUF is replaced by `m`. -/
def RunsAlikeOver (m : Memory Byte) (i : Instr) (s : State) : Prop :=
  ∃ t, exec i s = .next t ∧ exec i (withIbuf m s) = .next (withIbuf m t)

theorem pushBits_of_room {v : Word} (hroom : s.optr.toNat + (s.accN.toNat + n) / 8 ≤ s.params.obufSize) :
    pushBits n v s =
      .ok { withPacker (pushLoop v n (packerOf s)) s with bitcount := s.bitcount + BitVec.ofNat 32 n } := by
  rw [pushBits, if_neg (Nat.not_lt.2 hroom)]

theorem exec_putBits_of_pushed {u : State} (hopen : s.status.encClosed = false) (hpush : pushBits n s.data s = .ok u) :
    exec (.putBits n) s = .next (complete false u) := by
  show execPutBits n s = _
  rw [execPutBits, hopen, hpush]
  rfl

variable (m : Memory Byte)

theorem putBits_runsAlikeOver : RunsAlikeOver m (.putBits n) s := by
  cases hclosed : s.status.encClosed with
  | true => exact ⟨_, exec_putBits_of_closed hclosed, exec_putBits_of_closed hclosed⟩
  | false =>
    rcases Nat.lt_or_ge s.params.obufSize (s.optr.toNat + (s.accN.toNat + n) / 8) with hfull | hroom
    · exact ⟨_, exec_putBits_of_full hclosed hfull, exec_putBits_of_full hclosed hfull⟩
    · exact ⟨_, exec_putBits_of_pushed hclosed (pushBits_of_room hroom),
        exec_putBits_of_pushed (s := withIbuf m s) hclosed (pushBits_of_room hroom)⟩

theorem encSym_runsAlikeOver (sym : Nat) : RunsAlikeOver m (.encSym sym) s := by
  have hsame : lookup (withIbuf m s) sym = lookup s sym := rfl
  cases hclosed : s.status.encClosed with
  | true => exact ⟨_, exec_encSym_of_closed hclosed, exec_encSym_of_closed hclosed⟩
  | false =>
    rcases hlookup : lookup s sym with ⟨e | f, d⟩
    · exact ⟨_, exec_encSym_of_lookup_error hclosed hlookup, exec_encSym_of_lookup_error hclosed (hsame.trans hlookup)⟩
    · rcases Nat.lt_or_ge s.params.obufSize (s.optr.toNat + (s.accN.toNat + f.len) / 8) with hfull | hroom
      · exact ⟨_, exec_encSym_of_full hclosed hlookup hfull, exec_encSym_of_full hclosed (hsame.trans hlookup) hfull⟩
      · refine ⟨_, exec_encSym_of_pushed hclosed hlookup (pushBits_of_room (s := withDraws d s) hroom), ?_⟩
        rw [exec_encSym_of_pushed (s := withIbuf m s) hclosed (hsame.trans hlookup) (pushBits_of_room hroom)]
        cases f.fallback <;> rfl

theorem flush_runsAlikeOver : RunsAlikeOver m .flush s := by
  cases hclosed : s.status.encClosed with
  | true => exact ⟨_, exec_flush_of_closed hclosed, exec_flush_of_closed hclosed⟩
  | false =>
    rcases Nat.eq_zero_or_pos s.accN.toNat with hnone | hpending
    · have hnone : s.accN = 0 := BitVec.eq_of_toNat_eq hnone
      exact ⟨_, exec_flush_of_none_pending hclosed hnone, exec_flush_of_none_pending hclosed hnone⟩
    · rcases Nat.lt_or_ge s.params.obufSize (s.optr.toNat + 1) with hfull | hroom
      · exact ⟨_, exec_flush_of_full hclosed hpending hfull, exec_flush_of_full hclosed hpending hfull⟩
      · exact ⟨_, exec_flush_of_room hclosed hpending hroom, exec_flush_of_room hclosed hpending hroom⟩

theorem decInit_runsAlikeOver : RunsAlikeOver m .decInit s := by
  cases hvalid : s.tables.root.valid with
  | false => exact ⟨_, exec_decInit_of_no_tree hvalid, exec_decInit_of_no_tree hvalid⟩
  | true =>
    cases hleaf : s.tables.root.isLeaf with
    | true => exact ⟨_, exec_decInit_starts hvalid (.inl hleaf), exec_decInit_starts hvalid (.inl hleaf)⟩
    | false =>
      rcases Nat.lt_or_ge (8 * s.params.ibufSize) s.bitlen.toNat with hbig | hfits
      · exact ⟨_, exec_decInit_of_tooBig hvalid hleaf hbig, exec_decInit_of_tooBig hvalid hleaf hbig⟩
      · exact ⟨_, exec_decInit_starts hvalid (.inr hfits), exec_decInit_starts hvalid (.inr hfits)⟩

variable {m}

/-- Two IBUFs agree below BITLEN: each bit there is the same in both, or written in neither (R147). -/
def AgreeBelowBitlen (s : State) (m : Memory Byte) : Prop :=
  ∀ k < s.bitlen.toNat, (Memory.read? s.ibuf (k / 8)).map (fun b => b.getLsbD (7 - k % 8)) =
    (Memory.read? m (k / 8)).map (fun b => b.getLsbD (7 - k % 8))

theorem getBits_runsAlikeOver (h : AgreeBelowBitlen s m) : RunsAlikeOver m (.getBits n) s := by
  rcases Nat.lt_or_ge (8 * s.params.ibufSize) s.bitlen.toNat with hbig | hfits
  · exact ⟨_, exec_getBits_of_tooBig hbig, exec_getBits_of_tooBig hbig⟩
  · rcases Nat.lt_or_ge s.bitlen.toNat (s.iptr.toNat + n) with hunder | hroom
    · exact ⟨_, exec_getBits_of_underrun hfits hunder, exec_getBits_of_underrun hfits hunder⟩
    · have hread : takeBits s.ibuf n s.iptr.toNat 0 s.draws = takeBits m n s.iptr.toNat 0 s.draws :=
        takeBits_congr n _ _ _ fun k _ hk d => inBit_congr d (h k (by omega))
      exact ⟨_, exec_getBits_reads hfits hroom hread, exec_getBits_reads (s := withIbuf m s) hfits hroom rfl⟩

theorem decSym_runsAlikeOver (h : AgreeBelowBitlen s m) : RunsAlikeOver m .decSym s := by
  cases hvalid : s.tables.root.valid with
  | false => exact ⟨_, exec_decSym_of_no_tree hvalid, exec_decSym_of_no_tree hvalid⟩
  | true =>
    cases hleaf : s.tables.root.isLeaf with
    | true =>
      rw [RunsAlikeOver, exec_decSym_of_leaf hvalid hleaf, exec_decSym_of_leaf (s := withIbuf m s) hvalid hleaf]
      rcases Nat.lt_or_ge s.tables.root.val.toNat s.params.alphabet with hsym | hsym
      · rcases Nat.eq_zero_or_pos s.degenRemain.toNat with hnone | hleft
        · have hnone : s.degenRemain = 0 := BitVec.eq_of_toNat_eq hnone
          exact ⟨_, decSymLeafRoot_of_none_left hsym hnone, decSymLeafRoot_of_none_left hsym hnone⟩
        · exact ⟨_, decSymLeafRoot_emits hsym hleft, decSymLeafRoot_emits hsym hleft⟩
      · exact ⟨_, decSymLeafRoot_of_table hsym, decSymLeafRoot_of_table hsym⟩
    | false =>
      rcases Nat.lt_or_ge (8 * s.params.ibufSize) s.bitlen.toNat with hbig | hfits
      · exact ⟨_, exec_decSym_of_tooBig hvalid hleaf hbig, exec_decSym_of_tooBig hvalid hleaf hbig⟩
      · rcases Nat.lt_or_ge s.iptr.toNat s.bitlen.toNat with hleft | hend
        · have hsame : walkFromRoot (withIbuf m s) = walkFromRoot s :=
            walk_congr s m (s.bitlen.toNat - s.iptr.toNat) _ s.iptr.toNat _ fun k _ hk d => inBit_congr d (h k (by omega))
          have hstarts : WalkStarts s := ⟨hvalid, hleaf, hfits, hleft⟩
          have hstarts' : WalkStarts (withIbuf m s) := ⟨hvalid, hleaf, hfits, hleft⟩
          obtain ⟨e, d, -, -, hwalk⟩ | ⟨sym, k, d, -, -, -, -, hwalk⟩ := walkFromRoot_cases hleft
          · exact ⟨_, exec_decSym_of_walk_error hstarts hwalk,
              exec_decSym_of_walk_error hstarts' (hsame.trans hwalk)⟩
          · exact ⟨_, exec_decSym_of_walk_ok hstarts hwalk, exec_decSym_of_walk_ok hstarts' (hsame.trans hwalk)⟩
        · exact ⟨_, exec_decSym_of_end hvalid hleaf hfits hend, exec_decSym_of_end hvalid hleaf hfits hend⟩

end Padding

/-- Settles O52: GET_BITS and DEC_SYM read bits below BITLEN only, and no other command reads IBUF. -/
theorem paddingBitsAreNeverRead : Obligations.PaddingBitsAreNeverRead := by
  intro i s m hagree
  show RunsAlikeOver m i s
  cases i with
  | nop | encInit | softReset => exact ⟨_, rfl, rfl⟩
  | putBits n => exact putBits_runsAlikeOver m
  | encSym sym => exact encSym_runsAlikeOver m sym
  | flush => exact flush_runsAlikeOver m
  | decInit => exact decInit_runsAlikeOver m
  | getBits n => exact getBits_runsAlikeOver hagree
  | decSym => exact decSym_runsAlikeOver hagree

end Sys2Proof.Machine
end

section
/-! SUPPORT. Packed bits unpacked (spec/41_encode.md R126, spec/42_decode.md R143). -/

namespace Sys2Proof.Machine

/-- The bytes of `pack` expand to the bits and their padding (R126, R143). -/
theorem prefix_flatMap_packBytes (bits : List Bool) : bits <+: (packBytes bits).flatMap byteBits := by
  induction hn : bits.length using Nat.strong_induction_on generalizing bits with
  | _ n ih =>
    subst hn
    rcases Nat.lt_or_ge bits.length 8 with hlen | hlen
    · rcases Nat.eq_zero_or_pos bits.length with hnil | hpos
      · rw [List.length_eq_zero_iff.1 hnil]
        exact List.nil_prefix
      · have hpad : (padBits bits).length = 8 := by
          rw [padBits, List.length_append, List.length_replicate]
          omega
        have hbyte : packBytes bits = [BitVec.ofNat 8 (bitsValue (padBits bits))] := by
          simp [packBytes, hpad, List.take_of_length_le]
        rw [hbyte, List.flatMap_singleton, byteBits_bitsValue _ hpad]
        exact List.prefix_append ..
    · have hbyte : byteBits (BitVec.ofNat 8 (bitsValue (bits.take 8))) = bits.take 8 :=
        byteBits_bitsValue _ (by rw [List.length_take]; omega)
      have hrest := ih (bits.drop 8).length (by rw [List.length_drop]; omega) (bits.drop 8) rfl
      have hsplit : bits = byteBits (BitVec.ofNat 8 (bitsValue (bits.take 8))) ++ bits.drop 8 := by
        rw [hbyte, List.take_append_drop]
      rw [hsplit, packBytes_cons, List.flatMap_cons]
      exact (List.prefix_append_right_inj _).2 hrest

theorem unpackBits_packBytes (bits : List Bool) : unpackBits (packBytes bits) bits.length = bits :=
  (List.prefix_iff_eq_take.1 (prefix_flatMap_packBytes bits)).symm

end Sys2Proof.Machine
end

section
/-! SUPPORT. Runs of decode commands (spec/42_decode.md R143 to R145): consecutive slices of the input stream, the symbols
of a concatenation of codes, a stream that ends inside a code, and a leaf root. -/

namespace Sys2Proof.Machine

section DecodeRuns

variable {s t u : State} {i : Instr} {n : Nat} {out : List Word} {bytes : List Byte}

/-- A run whose first command wrote RESULT. -/
theorem collect_succ_of_emits (hexec : exec i s = .next t) (hvalid : t.status.resValid = true)
    (hrest : collect i n t = some (u, out)) : collect i (n + 1) s = some (u, t.result :: out) := by
  rw [collect, execNext_eq_some_iff.2 hexec]
  simp only [hrest, hvalid]
  rfl

/-- A run whose first command wrote no RESULT. -/
theorem collect_succ_of_silent (hexec : exec i s = .next t) (hsilent : t.status.resValid = false) :
    collect i (n + 1) s = collect i n t := by
  rw [collect, execNext_eq_some_iff.2 hexec]
  simp [hsilent]

/-- A run of GET_BITS whose first command wrote RESULT. -/
theorem getBitsRun_cons_of_reads {ns : List Nat} (hexec : exec (.getBits n) s = .next t)
    (hvalid : t.status.resValid = true) (hrest : getBitsRun ns t = some (u, out)) :
    getBitsRun (n :: ns) s = some (u, t.result :: out) := by
  rw [getBitsRun, execNext_eq_some_iff.2 hexec]
  simp only [hrest, hvalid]
  rfl

theorem bitsAhead_bitsRead {v d : Nat} (hroom : s.iptr.toNat + n ≤ s.bitlen.toNat) :
    bitsAhead (bitsRead v n d s) bytes = (bitsAhead s bytes).drop n := by
  rw [bitsAhead, bitsAhead, List.drop_drop, ← toNat_add_ofNat_of_le hroom]
  rfl

theorem bitsAhead_emitted {v : Word} {d : Nat} (hroom : s.iptr.toNat + n ≤ s.bitlen.toNat) :
    bitsAhead (emitted v n d s) bytes = (bitsAhead s bytes).drop n := by
  rw [bitsAhead, bitsAhead, List.drop_drop, ← toNat_add_ofNat_of_le hroom]
  rfl

/-! ### Slices of the input stream -/

theorem getBitsRun_slices {ns : List Nat} (hin : InputHolds s bytes) (hroom : s.iptr.toNat + ns.sum ≤ s.bitlen.toNat) :
    ∃ t, getBitsRun ns s =
      some (t, (slices ns (bitsAhead s bytes)).map (fun bs => BitVec.ofNat 32 (bitsValue bs))) := by
  induction ns generalizing s with
  | nil => exact ⟨s, rfl⟩
  | cons n ns ih =>
    rw [List.sum_cons] at hroom
    have hnext : s.iptr.toNat + n ≤ s.bitlen.toNat := by omega
    have hexec := exec_getBits_reads hin.fits hnext (takeBits_of_holds hin hnext s.draws)
    have hroom' : (s.iptr + BitVec.ofNat 32 n).toNat + ns.sum ≤ s.bitlen.toNat := by
      rw [toNat_add_ofNat_of_le hnext]
      omega
    obtain ⟨t, hrest⟩ := ih (hin.congr (exec_sameHostState hexec)) hroom'
    rw [bitsAhead_bitsRead hnext] at hrest
    exact ⟨t, getBitsRun_cons_of_reads hexec rfl hrest⟩

/-! ### Concatenations of codes -/

theorem mapM_cons_eq_some {α β : Type} {f : α → Option β} {x : α} {xs : List α} {ys : List β}
    (h : (x :: xs).mapM f = some ys) : ∃ y ys', f x = some y ∧ xs.mapM f = some ys' ∧ ys = y :: ys' := by
  obtain ⟨y, hy, ys', hys, rfl⟩ : ∃ y, f x = some y ∧ ∃ ys', xs.mapM f = some ys' ∧ y :: ys' = ys := by
    simpa [List.mapM_cons, Option.bind_eq_some_iff] using h
  exact ⟨y, ys', hy, hys, rfl⟩

variable {l r tree : Tree} {w : Nat}

/-- DEC_SYM emits the symbols of the codes at the front of the stream, one per command, and stands after them. -/
theorem collect_decSym_text {text : List Nat} {codes : List (List Bool)} {tail : List Bool}
    (hloaded : TreeLoaded s (.node l r w)) (hin : InputHolds s bytes)
    (hcodes : text.mapM (codeOf (assignCodes (.node l r w))) = some codes)
    (hahead : bitsAhead s bytes = codes.flatten ++ tail) (heos : s.status.eos = false) :
    ∃ t, collect .decSym text.length s = some (t, text.map (BitVec.ofNat 32)) ∧
      TreeLoaded t (.node l r w) ∧ InputHolds t bytes ∧ bitsAhead t bytes = tail ∧ t.status.eos = false := by
  induction text generalizing s codes with
  | nil =>
    obtain rfl : [] = codes := by simpa using hcodes
    exact ⟨s, rfl, hloaded, hin, hahead, heos⟩
  | cons x text ih =>
    obtain ⟨code, codes, hcode, hrest, rfl⟩ := mapM_cons_eq_some hcodes
    rw [List.flatten_cons, List.append_assoc] at hahead
    have hmem : (x, code) ∈ assignCodes (.node l r w) := Memory.mem_of_read? hcode
    have hpre : code <+: bitsAhead s bytes := ⟨_, hahead.symm⟩
    have hexec := hloaded.exec_emits hin hmem hpre
    have hsame := exec_sameHostState hexec
    have hroom := iptr_add_length_le hin (ne_nil_of_mem_walkCodes_node (w := w) hmem) hpre
    have hahead' : bitsAhead (emitted (BitVec.ofNat 32 x) code.length s.draws s) bytes = codes.flatten ++ tail := by
      rw [bitsAhead_emitted hroom, hahead, List.drop_left]
    obtain ⟨t, hcollect, ht⟩ := ih (hloaded.congr hsame) (hin.congr hsame) hrest hahead' rfl
    exact ⟨t, collect_succ_of_emits hexec rfl hcollect, ht⟩

/-- With no bit ahead DEC_SYM reports EOS. -/
theorem exec_decSym_of_none_ahead (hloaded : TreeLoaded s (.node l r w)) (hin : InputHolds s bytes)
    (hnone : bitsAhead s bytes = []) : exec .decSym s = .next (endOfStream s) := by
  have hlen := length_bitsAhead hin
  rw [hnone, List.length_nil] at hlen
  exact exec_decSym_of_end hloaded.root_valid hloaded.root_inner hin.fits (by omega)

/-- Where R111's loop stands once it has reached the node `m`: a leaf gives its symbol, and the loop is at the root. -/
def decodeAt (root m : Tree) (bits : List Bool) : Option (List Nat) :=
  match m with
  | .leaf s _   => (decodeLoop root root bits).map (s :: ·)
  | .node _ _ _ => decodeLoop root m bits

theorem decodeLoop_cons (root : Tree) (b : Bool) (bits : List Bool) :
    decodeLoop root (.node l r w) (b :: bits) = decodeAt root (if b then r else l) bits := by
  rw [decodeLoop]
  cases (if b then r else l) <;> rfl

/-- R111's loop consumes a code below a node and gives its symbol. -/
theorem decodeAt_code (root : Tree) {sym : Nat} {code bits : List Bool} (h : (sym, code) ∈ walkCodes tree []) :
    decodeAt root tree (code ++ bits) = (decodeLoop root root bits).map (sym :: ·) := by
  induction tree generalizing code with
  | leaf x v =>
    obtain ⟨rfl, rfl⟩ : sym = x ∧ code = [] := by simpa [walkCodes] using h
    rfl
  | node l r w ihl ihr =>
    show decodeLoop root (.node l r w) (code ++ bits) = _
    obtain ⟨c, hc, rfl⟩ | ⟨c, hc, rfl⟩ := (mem_walkCodes_node l r w sym code).1 h
    · exact (decodeLoop_cons root false _).trans (ihl hc)
    · exact (decodeLoop_cons root true _).trans (ihr hc)

/-- `decode` of a concatenation of codes is its symbols (R111). -/
theorem decodeText_of_codes {text : List Nat} {codes : List (List Bool)}
    (hcodes : text.mapM (codeOf (assignCodes (.node l r w))) = some codes) :
    decodeText (.node l r w) codes.flatten = some text := by
  show decodeLoop (.node l r w) (.node l r w) codes.flatten = some text
  induction text generalizing codes with
  | nil =>
    obtain rfl : [] = codes := by simpa using hcodes
    simp [decodeLoop]
  | cons x text ih =>
    obtain ⟨code, codes, hcode, hrest, rfl⟩ := mapM_cons_eq_some hcodes
    have hmem : (x, code) ∈ walkCodes (.node l r w) [] := Memory.mem_of_read? hcode
    rw [List.flatten_cons, show decodeLoop _ _ _ = _ from decodeAt_code (.node l r w) hmem, ih hrest]
    rfl

/-! ### A stream that ends inside a code -/

/-- Bits ahead that hold no whole code: the stream has been cut inside one (R144). -/
structure CutCode (s : State) (tree : Tree) (bytes : List Byte) : Prop where
  loaded : TreeLoaded s tree
  input  : InputHolds s bytes
  left   : s.iptr.toNat < s.bitlen.toNat
  noCode : ∀ sym code, (sym, code) ∈ assignCodes tree → ¬ code <+: bitsAhead s bytes
  eos    : s.status.eos = false

/-- Bits that a code starts with but goes on after start with no code (R108). -/
theorem not_prefix_of_cut {sym : Nat} {code tail : List Bool} (hmem : (sym, code) ∈ assignCodes tree)
    (hpre : tail <+: code) (hne : tail ≠ code) {sym' : Nat} {code' : List Bool}
    (hmem' : (sym', code') ∈ assignCodes tree) : ¬ code' <+: tail := by
  intro hpre'
  by_cases hsame : (sym', code') = (sym, code)
  · obtain ⟨-, rfl⟩ := Prod.mk.inj hsame
    exact hne (hpre.eq_of_length_le hpre'.length_le)
  · have hfree := (codesAreNonEmptyAndPrefixFree tree).2
    have : Std.Symm fun c c' : Nat × List Bool => ¬ c.2 <+: c'.2 ∧ ¬ c'.2 <+: c.2 := ⟨fun _ _ => And.symm⟩
    exact (hfree.forall hmem' hmem hsame).1 (hpre'.trans hpre)

theorem CutCode.exec_decSym (h : CutCode s (.node l r w) bytes) : exec .decSym s = .next (raiseErr .malformed s) :=
  h.loaded.exec_malformed h.input h.left h.noCode

/-- ERR_MALFORMED moves nothing, so the stream stays cut. -/
theorem CutCode.raiseErr (h : CutCode s tree bytes) (e : ErrFlag) : CutCode (raiseErr e s) tree bytes := by
  obtain ⟨loaded, input, left, noCode, eos⟩ := h
  exact ⟨loaded.congr ⟨rfl, rfl, rfl, rfl, rfl, rfl, rfl, rfl⟩, input.congr ⟨rfl, rfl, rfl, rfl, rfl, rfl, rfl, rfl⟩,
    left, noCode, eos⟩

/-- DEC_SYM over a cut stream emits nothing, however often it is repeated. -/
theorem CutCode.collect (h : CutCode s (.node l r w) bytes) (hrun : collect .decSym n s = some (t, out)) :
    out = [] ∧ CutCode t (.node l r w) bytes := by
  induction n generalizing s with
  | zero =>
    obtain ⟨rfl, rfl⟩ : s = t ∧ [] = out := by simpa [Machine.collect] using hrun
    exact ⟨rfl, h⟩
  | succ n ih =>
    rw [collect_succ_of_silent h.exec_decSym rfl] at hrun
    exact ih (h.raiseErr .malformed) hrun

/-! ### A leaf root -/

/-- ROOT is a valid leaf of a symbol below ALPHABET (R145). -/
structure LeafRoot (s : State) (sym : BitVec 16) : Prop where
  root   : s.tables.root = { valid := true, isLeaf := true, val := sym }
  symbol : sym.toNat < s.params.alphabet

variable {sym : BitVec 16}

theorem LeafRoot.exec_emits (h : LeafRoot s sym) (hleft : 0 < s.degenRemain.toNat) :
    exec .decSym s = .next (leafEmitted s) := by
  rw [exec_decSym_of_leaf (by rw [h.root]) (by rw [h.root])]
  exact decSymLeafRoot_emits (by rw [h.root]; exact h.symbol) hleft

theorem LeafRoot.exec_ends (h : LeafRoot s sym) (hnone : s.degenRemain = 0) :
    exec .decSym s = .next (endOfStream s) := by
  rw [exec_decSym_of_leaf (by rw [h.root]) (by rw [h.root])]
  exact decSymLeafRoot_of_none_left (by rw [h.root]; exact h.symbol) hnone

/-- DEC_SYM emits the symbol of a leaf root DEGEN_REMAIN times. -/
theorem LeafRoot.collect (h : LeafRoot s sym) (hn : s.degenRemain.toNat = n) :
    collect .decSym n s = some (leafEmitted^[n] s, List.replicate n (sym.setWidth 32)) ∧
      (leafEmitted^[n] s).degenRemain = 0 := by
  induction n generalizing s with
  | zero => exact ⟨rfl, BitVec.eq_of_toNat_eq hn⟩
  | succ n ih =>
    have hleft : 0 < s.degenRemain.toNat := by omega
    have hcount : (leafEmitted s).degenRemain.toNat = n := (toNat_sub_one hleft).trans (by omega)
    obtain ⟨hrest, hzero⟩ := ih (s := leafEmitted s) ⟨h.root, h.symbol⟩ hcount
    have hresult : (leafEmitted s).result = sym.setWidth 32 := by rw [leafEmitted, h.root]
    have hrun := collect_succ_of_emits (h.exec_emits hleft) rfl hrest
    rw [hresult] at hrun
    exact ⟨hrun, hzero⟩

/-- Emitting the symbol of a leaf root moves no bit index and takes no draw, whatever IBUF holds. -/
theorem leafEmitted_iterate (n : Nat) (s : State) :
    (leafEmitted^[n] s).tables = s.tables ∧ (leafEmitted^[n] s).params = s.params ∧
    (leafEmitted^[n] s).iptr = s.iptr ∧ (leafEmitted^[n] s).draws = s.draws ∧
    ∀ m, leafEmitted^[n] (withIbuf m s) = withIbuf m (leafEmitted^[n] s) := by
  induction n generalizing s with
  | zero => exact ⟨rfl, rfl, rfl, rfl, fun _ => rfl⟩
  | succ n ih => exact ih (leafEmitted s)

end DecodeRuns

/-- Settles O48: the slices by induction on the sizes, the packing invariant byte by byte, and O47 for the payload. -/
theorem unpackLaw : Obligations.UnpackLaw := by
  refine ⟨fun s0 s1 bytes ns _ hholds hlength hfits hvalid hinit _ hsum => ?_, unpackBits_packBytes, ?_⟩
  · rw [exec_decInit_starts hvalid (.inr hfits)] at hinit
    obtain rfl : decodeStart s0 = s1 := by injection hinit
    exact getBitsRun_slices (s := decodeStart s0) ⟨hholds, hlength, hfits⟩ ((Nat.zero_add _).trans_le hsum)
  · intro s0 s1 s2 t u cmds bits bytes hp hinit hcmds hrun hflush hclosed hpayload _ hbitlen
    obtain ⟨hcount, -, hpacked, -⟩ := packLaw s0 s1 s2 t cmds bits hp hinit hcmds hrun hflush hclosed
    obtain rfl : bytes = packBytes bits := Option.some.inj (hpayload.symm.trans hpacked)
    rw [hbitlen, hcount, unpackBits_packBytes]

/-- Settles O49: the codes one by one, then the end of the stream, or for ever the rest of a cut code. -/
theorem decodeLaw : Obligations.DecodeLaw := by
  intro s0 s1 l r w bytes text codes tail hp himage hnodes hsymbols hholds hlength hfits hinit hcodes hstream
  have hloaded : TreeLoaded s0 (.node l r w) := ⟨hp, himage, hnodes, hsymbols⟩
  rw [exec_decInit_starts hloaded.root_valid (.inr hfits)] at hinit
  obtain rfl : decodeStart s0 = s1 := by injection hinit
  obtain ⟨s2, hcollect, hloaded', hin, hahead, heos⟩ := collect_decSym_text (s := decodeStart s0) (bytes := bytes)
    (hloaded.congr ⟨rfl, rfl, rfl, rfl, rfl, rfl, rfl, rfl⟩) ⟨hholds, hlength, hfits⟩ hcodes hstream rfl
  refine ⟨fun htail => ⟨decodeText_of_codes hcodes, s2, _, hcollect,
    exec_decSym_of_none_ahead hloaded' hin (hahead.trans htail), rfl, rfl⟩, ?_⟩
  rintro htail ⟨sym, code, hmem, hpre, hne⟩
  have hcut : CutCode s2 (.node l r w) bytes :=
    { loaded := hloaded', input := hin, eos := heos
      left := by
        have hlen := length_bitsAhead hin
        have hpos := List.length_pos_iff.2 htail
        rw [hahead] at hlen
        omega
      noCode := fun sym' code' hmem' => hahead ▸ not_prefix_of_cut hmem hpre hne hmem' }
  refine ⟨s2, hcollect, fun n s' out hrun => ?_⟩
  obtain ⟨hout, hcut'⟩ := hcut.collect hrun
  exact ⟨hout, hcut'.eos, hcut'.exec_decSym⟩

/-- Settles O50: DEC_INIT loads the weight, each DEC_SYM takes one off, and none looks at IPTR, a draw or IBUF. -/
theorem degenerateLaw : Obligations.DegenerateLaw := by
  intro s0 s1 sym hroot hsym hinit
  rw [exec_decInit_starts (by rw [hroot]) (.inl (by rw [hroot]))] at hinit
  obtain rfl : decodeStart s0 = s1 := by injection hinit
  have hleaf : LeafRoot (decodeStart s0) sym := ⟨hroot, hsym⟩
  obtain ⟨htables, hparams, hiptr, hdraws, hibuf⟩ := leafEmitted_iterate s0.tables.degenWeight.toNat (decodeStart s0)
  obtain ⟨hcollect, hzero⟩ := hleaf.collect rfl
  have hleaf' : LeafRoot _ sym := ⟨(congrArg TableImage.root htables).trans hroot, hparams ▸ hsym⟩
  refine ⟨_, _, hcollect, hiptr, hdraws, hleaf'.exec_ends hzero, rfl, rfl, hiptr, fun m => ?_⟩
  obtain ⟨hrun, -⟩ := LeafRoot.collect (s := withIbuf m (decodeStart s0)) (n := s0.tables.degenWeight.toNat)
    ⟨hroot, hsym⟩ rfl
  rwa [hibuf m] at hrun

end Sys2Proof.Machine
end

section
/-! SUPPORT. The tree of a text (spec/40_table_generation.md R101 to R105): the table counts each symbol of the text, and
the leaves of the tree are the entries of the table, merged in whatever order. -/

namespace Sys2Proof.Machine

section TextTree

/-! ### The frequency table -/

theorem buildFrequencies_append (text : List Nat) (x : Nat) :
    buildFrequencies (text ++ [x]) =
      Memory.write (buildFrequencies text) x ((Memory.read? (buildFrequencies text) x).getD 0 + 1) := by
  rw [buildFrequencies, List.foldl_append]
  rfl

theorem buildFrequencies_wf (text : List Nat) : Memory.wf (buildFrequencies text) := by
  induction text using List.reverseRecOn with
  | nil => exact List.Pairwise.nil
  | append_singleton text x ih =>
    rw [buildFrequencies_append]
    exact Memory.wf_write ih _ _

/-- The table lists the symbols of the text, each with its count (R101). -/
theorem read?_buildFrequencies (text : List Nat) (y : Nat) :
    Memory.read? (buildFrequencies text) y = if y ∈ text then some (text.count y) else none := by
  induction text using List.reverseRecOn with
  | nil => rfl
  | append_singleton text x ih =>
    rw [buildFrequencies_append, Memory.read?_write]
    by_cases hyx : y = x
    · subst hyx
      by_cases hy : y ∈ text
      · simp [ih, hy]
      · simp [ih, hy, List.count_eq_zero_of_not_mem hy]
    · simp [ih, hyx, Ne.symm hyx]

theorem Memory.keys_nodup {α : Type} {m : Memory α} (h : Memory.wf m) : (m.map Prod.fst).Nodup :=
  (List.pairwise_map.2 h).imp Nat.ne_of_lt

/-! ### The leaves of the tree -/

/-- The leaves of a tree, left to right: symbol and weight. -/
def treeLeaves : Tree → List (Nat × Nat)
  | .leaf s w   => [(s, w)]
  | .node l r _ => treeLeaves l ++ treeLeaves r

theorem treeLeaves_symbols (t : Tree) : (treeLeaves t).map Prod.fst = treeSymbols t := by
  induction t with
  | leaf => rfl
  | node l r w ihl ihr => rw [treeLeaves, List.map_append, ihl, ihr, treeSymbols]

/-- The leaves of all trees in the queue. -/
def queueLeaves (q : List QueueItem) : List (Nat × Nat) := q.flatMap (fun x => treeLeaves x.tree)

theorem queueInsert_perm (x : QueueItem) (q : List QueueItem) : (queueInsert x q).Perm (x :: q) := by
  induction q with
  | nil => exact List.Perm.refl _
  | cons y q ih =>
    rw [queueInsert]
    split
    · exact List.Perm.refl _
    · exact (ih.cons y).trans (List.Perm.swap x y q)

theorem queueLeaves_queueInsert (x : QueueItem) (q : List QueueItem) :
    (queueLeaves (queueInsert x q)).Perm (treeLeaves x.tree ++ queueLeaves q) :=
  (queueInsert_perm x q).flatMap_right _

/-- R104's loop keeps the leaves. -/
theorem mergeQueue_leaves {fuel seq : Nat} {q : List QueueItem} {t : Tree} (h : mergeQueue fuel seq q = some t) :
    (treeLeaves t).Perm (queueLeaves q) := by
  induction fuel generalizing seq q with
  | zero =>
    match q, h with
    | [x], h =>
      obtain rfl := Option.some.inj h
      simp [queueLeaves]
  | succ fuel ih =>
    match q, h with
    | [x], h =>
      obtain rfl := Option.some.inj h
      simp [queueLeaves]
    | x :: y :: rest, h =>
      have hmerged := (ih h).trans (queueLeaves_queueInsert _ rest)
      simpa [treeLeaves, queueLeaves] using hmerged

theorem foldl_queueInsert_leaves (items q : List QueueItem) :
    (queueLeaves (items.foldl (fun q x => queueInsert x q) q)).Perm (queueLeaves items ++ queueLeaves q) := by
  induction items generalizing q with
  | nil => exact List.Perm.refl _
  | cons x items ih =>
    have hx := (queueLeaves_queueInsert x q).append_left (queueLeaves items)
    refine (ih _).trans (hx.trans ?_)
    show (queueLeaves items ++ (treeLeaves x.tree ++ queueLeaves q)).Perm
      (treeLeaves x.tree ++ queueLeaves items ++ queueLeaves q)
    rw [← List.append_assoc]
    exact (List.perm_append_comm).append_right _

theorem initialQueue_leaves (table : Memory Nat) : (queueLeaves (initialQueue table)).Perm table := by
  have hitems (k : Nat) :
      queueLeaves ((table.zipIdx k).map (fun e => { seq := e.2, tree := Tree.leaf e.1.1 e.1.2 })) = table := by
    induction table generalizing k with
    | nil => rfl
    | cons e table ih => exact congrArg (e :: ·) (ih (k + 1))
  have hqueue := foldl_queueInsert_leaves
    (table.zipIdx.map (fun e => { seq := e.2, tree := Tree.leaf e.1.1 e.1.2 })) []
  rw [hitems 0] at hqueue
  simpa [initialQueue, queueLeaves] using hqueue

/-- The leaves of the tree are the entries of the table. -/
theorem buildTree_leaves {table : Memory Nat} {t : Tree} (h : buildTree table = some t) : (treeLeaves t).Perm table :=
  (mergeQueue_leaves h).trans (initialQueue_leaves table)

variable {text : List Nat} {tree : Tree}

theorem buildTree_symbols_nodup (h : buildTree (buildFrequencies text) = some tree) : (treeSymbols tree).Nodup := by
  rw [← treeLeaves_symbols]
  exact ((buildTree_leaves h).map Prod.fst).nodup_iff.2 (Memory.keys_nodup (buildFrequencies_wf text))

/-- Every symbol of the text has a code of its tree. -/
theorem codeOf_isSome_of_mem (h : buildTree (buildFrequencies text) = some tree) {x : Nat} (hx : x ∈ text) :
    (codeOf (assignCodes tree) x).isSome = true := by
  have hentry : (x, text.count x) ∈ buildFrequencies text :=
    Memory.mem_of_read? (by rw [read?_buildFrequencies, if_pos hx])
  have hsym : x ∈ (assignCodes tree).map Prod.fst := by
    rw [assignCodes_symbols, ← treeLeaves_symbols]
    exact List.mem_map_of_mem ((buildTree_leaves h).mem_iff.2 hentry)
  by_contra hnone
  exact Memory.notMem_keys_of_read?_none (Option.not_isSome_iff_eq_none.1 hnone) hsym

/-- A tree that is a leaf is that of a text of one symbol, repeated as often as the leaf weighs. -/
theorem text_of_buildTree_leaf {sym count : Nat} (h : buildTree (buildFrequencies text) = some (.leaf sym count)) :
    text = List.replicate count sym := by
  have htable : buildFrequencies text = [(sym, count)] := List.perm_singleton.1 (buildTree_leaves h).symm
  have hread (y : Nat) : (if sym = y then some count else none) = if y ∈ text then some (text.count y) else none := by
    rw [← read?_buildFrequencies, htable]
    rfl
  have hall : ∀ y ∈ text, sym = y := by
    intro y hy
    by_contra hne
    simpa [hne, hy] using hread y
  have hcount : count = text.count sym := by
    have hsym := hread sym
    rw [if_pos rfl] at hsym
    split at hsym
    · exact Option.some.inj hsym
    · cases hsym
  exact List.eq_replicate_iff.2
    ⟨(hcount.trans (List.count_eq_length.2 hall)).symm, fun y hy => (hall y hy).symm⟩

/-- Different symbols below `n` are at most `n`. -/
theorem length_le_of_nodup_of_lt {l : List Nat} {n : Nat} (hl : l.Nodup) (h : ∀ x ∈ l, x < n) : l.length ≤ n := by
  have hsub := (hl.subperm fun x hx => List.mem_range.2 (h x hx)).length_le
  rwa [List.length_range] at hsub

theorem symbols_lt_of_fitsBuild {p : Params} (h : fitsBuild p (assignCodes tree) = true) :
    ∀ x ∈ treeSymbols tree, x < p.alphabet := by
  intro x hx
  rw [← assignCodes_symbols] at hx
  obtain ⟨c, hc, rfl⟩ := List.mem_map.1 hx
  have hfit := List.all_eq_true.1 h c hc
  rw [Bool.and_eq_true, decide_eq_true_eq] at hfit
  exact hfit.1

/-- The Internal nodes of a text's tree that fits the build fit DT (R7, R113). -/
theorem internalNodes_le_dtNodes {p : Params} (h : buildTree (buildFrequencies text) = some tree)
    (hfits : fitsBuild p (assignCodes tree) = true) : internalNodes tree ≤ p.dtNodes := by
  have hcount := length_le_of_nodup_of_lt (buildTree_symbols_nodup h) (symbols_lt_of_fitsBuild hfits)
  rw [length_treeSymbols] at hcount
  exact Nat.le_sub_one_of_lt hcount

end TextTree

end Sys2Proof.Machine
end

section
/-! SUPPORT. Encoding a text with its own tree and decoding the payload (spec/42_decode.md R146). -/

namespace Sys2Proof.Machine

section RoundTrip

variable {s t u : State} {i : Instr} {v : Word} {text : List Nat} {codes : List (Nat × List Bool)} {bytes : List Byte}

/-! ### The encode sequence -/

theorem sameHostState.data (h : sameHostState s t) : t.data = s.data := by
  obtain ⟨-, -, hdata, -⟩ := h
  exact hdata

theorem execAll_cons {rest : List Instr} (h : execAll (i :: rest) s = some u) :
    ∃ t, exec i s = .next t ∧ execAll rest t = some u := by
  rw [execAll] at h
  split at h
  · exact ⟨_, ‹_›, h⟩
  · cases h

theorem encodeRun_cons_of_exec {rest : List (Word × Instr)} {bits : List Bool}
    (hexec : exec i { s with data := v } = .next t) (hrest : encodeRun rest t = some (u, bits)) :
    encodeRun ((v, i) :: rest) s = some (u, bitsPacked i { s with data := v } t ++ bits) := by
  rw [encodeRun, execNext_eq_some_iff.2 hexec]
  simp only [hrest]
  rfl

theorem noneFails_cons_of_exec {rest : List (Word × Instr)} (hexec : exec i { s with data := v } = .next t)
    (hno : setsNoError i { s with data := v } = true) (hrest : noneFails rest t = true) :
    noneFails ((v, i) :: rest) s = true := by
  rw [noneFails, execNext_eq_some_iff.2 hexec, hno]
  exact hrest

/-- Commands run with DATA left as it is are a run of R126, the last of them taken apart. -/
theorem encodeRun_of_execAll {cmds : List Instr} (hdata : s.data = v) (hrun : execAll (cmds ++ [i]) s = some u)
    (hno : noneFails ((cmds ++ [i]).map (Prod.mk v)) s = true) :
    ∃ t bits, encodeRun (cmds.map (Prod.mk v)) s = some (t, bits) ∧ noneFails (cmds.map (Prod.mk v)) s = true ∧
      exec i t = .next u ∧ setsNoError i t = true ∧ sameHostState s t := by
  subst hdata
  induction cmds generalizing s with
  | nil =>
    obtain ⟨t, hexec, hend⟩ := execAll_cons hrun
    obtain rfl := Option.some.inj hend
    exact ⟨s, [], rfl, rfl, hexec, (noneFails_cons (v := s.data) hno hexec).1, rfl, rfl, rfl, rfl, rfl, rfl, rfl, rfl⟩
  | cons j cmds ih =>
    obtain ⟨t, hexec, hrun⟩ := execAll_cons hrun
    obtain ⟨hset, hno⟩ := noneFails_cons (v := s.data) hno hexec
    have hsame := exec_sameHostState hexec
    rw [← hsame.data] at hno
    obtain ⟨t', bits, henc, hnone, hlast, hsetLast, hsame'⟩ := ih hrun hno
    rw [hsame.data] at henc hnone
    exact ⟨t', _, encodeRun_cons_of_exec hexec henc, noneFails_cons_of_exec hexec hset hnone, hlast, hsetLast,
      hsame.trans hsame'⟩

/-- A FLUSH that sets no error closes the stream (R125). -/
theorem flush_closes (hexec : exec .flush s = .next t) (hno : setsNoError .flush s = true) :
    t.status.encClosed = true := by
  obtain ⟨t', hexec', hclear⟩ := exec_of_setsNoError hno
  obtain herr | ⟨hclosed, -⟩ | ⟨hopen, hpending, hroom, -⟩ | ⟨hopen, hnone, -⟩ := exec_flush_cases hexec'
  · exact absurd hclear herr.errors_ne_zero
  · rw [exec_flush_of_closed (s := s) hclosed] at hexec
    injection hexec with hexec
    exact hexec ▸ hclosed
  · rw [exec_flush_of_room (s := s) hopen hpending hroom] at hexec
    injection hexec with hexec
    exact hexec ▸ rfl
  · rw [exec_flush_of_none_pending (s := s) hopen (BitVec.eq_of_toNat_eq hnone)] at hexec
    injection hexec with hexec
    exact hexec ▸ rfl

/-- `encode` of a text whose symbols all have codes is the concatenation of these (R110). -/
theorem encodeText_of_coded (space : Nat) (hcoded : ∀ x ∈ text, (codeOf codes x).isSome = true) :
    ∃ ks, text.mapM (codeOf codes) = some ks ∧ encodeText codes space text = some ks.flatten := by
  induction text with
  | nil => exact ⟨[], rfl, rfl⟩
  | cons x text ih =>
    obtain ⟨k, hk⟩ := Option.isSome_iff_exists.1 (hcoded x List.mem_cons_self)
    obtain ⟨ks, hks, htext⟩ := ih fun y hy => hcoded y (List.mem_cons_of_mem x hy)
    exact ⟨k :: ks, by simp [List.mapM_cons, hk, hks], encodeText_cons hk htext⟩

/-- The encode sequence of a text, none of its commands failing, leaves the packed codes of the text (R126). -/
theorem payload_of_encodeSequence (hp : s.params.legal) (hheld : holdsCodes s codes)
    (hfits : fitsBuild s.params codes = true) (hcoded : ∀ x ∈ text, (codeOf codes x).isSome = true)
    (hrun : execAll (Instr.encInit :: text.map Instr.encSym ++ [Instr.flush]) s = some u)
    (hno : noneFails ((Instr.encInit :: text.map Instr.encSym ++ [Instr.flush]).map (Prod.mk s.data)) s = true) :
    ∃ ks, text.mapM (codeOf codes) = some ks ∧ u.bitcount.toNat = ks.flatten.length ∧
      payload u = some (packBytes ks.flatten) ∧ sameHostState s u := by
  obtain ⟨t, hinit, hrun⟩ := execAll_cons hrun
  obtain ⟨-, hno⟩ := noneFails_cons (v := s.data) hno hinit
  have hsame := exec_sameHostState hinit
  obtain ⟨t', bits, henc, hnone, hflush, hset, hsame'⟩ := encodeRun_of_execAll hsame.data hrun hno
  have hcmds : ∀ c ∈ (text.map Instr.encSym).map (Prod.mk s.data), PackingCommand c.2 := by
    simp only [List.map_map, List.mem_map]
    rintro c ⟨x, -, rfl⟩
    exact .inr ⟨x, rfl⟩
  obtain ⟨hcount, -, hpayload, htext⟩ := packLaw s t t' u _ bits hp hinit hcmds henc hflush (flush_closes hflush hset)
  obtain ⟨ks, hks, hencoded⟩ := encodeText_of_coded s.ctrl.spaceSym.toNat hcoded
  have hbits : bits = ks.flatten := Option.some.inj
    ((htext text codes (by simp [Function.comp_def]) hheld hfits hcoded hnone).symm.trans hencoded)
  subst hbits
  exact ⟨ks, hks, hcount, hpayload, (hsame.trans hsame').trans (exec_sameHostState hflush)⟩

end RoundTrip

/-- Settles O51: the payload unpacks to the codes of the text, which O49 decodes; a leaf root weighs the text's length,
and O50 repeats its symbol so often. -/
theorem roundTripLaw : Obligations.RoundTripLaw := by
  intro s0 s1 s2 s3 text tree bytes m hp _ halpha htree hfits hcodes hloaded hweight hrun hno hpayload hroom hs2 hholds
    hinit
  obtain ⟨ks, hks, hcount, hpacked, hparams, -, -, -, htables, -⟩ := payload_of_encodeSequence hp hcodes hfits
    (fun _ => codeOf_isSome_of_mem htree) hrun hno
  obtain rfl : bytes = packBytes ks.flatten := Option.some.inj (hpayload.symm.trans hpacked)
  have hparams2 : s2.params = s0.params := by rw [hs2]; exact hparams
  have htables2 : s2.tables = s0.tables := by rw [hs2]; exact htables
  have hsymbols := symbols_lt_of_fitsBuild hfits
  cases tree with
  | leaf sym count =>
    have hsym : sym < s0.params.alphabet := hsymbols sym (List.mem_singleton_self sym)
    have hsmall : sym < 65536 := hsym.trans_le (alphabet_le hp)
    have hval : (BitVec.ofNat 16 sym).toNat < s2.params.alphabet := by
      rwa [hparams2, BitVec.toNat_ofNat, Nat.mod_eq_of_lt hsmall]
    obtain ⟨s4, s5, hcollect, -, -, hend, heos, hres, -⟩ :=
      degenerateLaw s2 s3 (BitVec.ofNat 16 sym) (by rw [htables2]; exact hloaded.2) hval hinit
    rw [htables2, hweight sym count rfl, setWidth_ofNat_symbol hsmall] at hcollect
    rw [text_of_buildTree_leaf htree, List.length_replicate, List.map_replicate]
    exact ⟨s4, s5, hcollect, hend, heos, hres⟩
  | node l r w =>
    have hbitlen : s2.bitlen.toNat = ks.flatten.length := by rw [hs2]; exact hcount
    have hlength : ks.flatten.length ≤ 8 * (packBytes ks.flatten).length := by
      rw [← length_flatMap_byteBits]
      exact (prefix_flatMap_packBytes _).length_le
    have hfit : ks.flatten.length ≤ 8 * s2.params.ibufSize := by
      rw [hparams2, ← hparams]
      omega
    obtain ⟨hwhole, -⟩ := decodeLaw s2 s3 l r w (packBytes ks.flatten) text ks [] (hparams2 ▸ hp)
      (by rwa [holdsTree, htables2]) (hparams2 ▸ internalNodes_le_dtNodes htree hfits) (hparams2 ▸ hsymbols) hholds
      (hbitlen ▸ hlength) (hbitlen ▸ hfit) hinit hks (by rw [hbitlen, unpackBits_packBytes, List.append_nil])
    exact (hwhole rfl).2

end Sys2Proof.Machine
end

section
/-! SUPPORT. NOP and SOFT_RESET (spec/43_control.md R160, R161), and STATUS after a command that completes. -/

namespace Sys2Proof.Machine

section Control

variable {s : State}

/-- STATUS after `complete`: BUSY is 0, DONE is 1, RES_VALID is what `complete` is given, the other bits stay. -/
theorem statusWord_complete_toNat (b : Bool) :
    (statusWord (complete b s)).toNat =
      2 + 2 ^ 2 * b.toNat + 2 ^ 3 * s.status.eos.toNat + 2 ^ 4 * s.status.encClosed.toNat +
        2 ^ 8 * s.status.errors.toNat := by
  simp [statusWord_toNat]

/-- With EOS, ENC_CLOSED and the error bits 0, a command that completes without a result leaves DONE alone. -/
theorem statusWord_complete_of_cleared (heos : s.status.eos = false) (hclosed : s.status.encClosed = false)
    (herrors : s.status.errors = 0) : statusWord (complete false s) = 0x00000002 := by
  apply BitVec.eq_of_toNat_eq
  rw [statusWord_complete_toNat, heos, hclosed, herrors]
  rfl

/-- Where STATUS shows RES_VALID alone, a command that completes without a result leaves DONE alone (R160). -/
theorem statusWord_complete_of_resValid (h : statusWord s = 0x00000004) :
    statusWord (complete false s) = 0x00000002 := by
  have hfields : (statusWord s).toNat = 4 := congrArg BitVec.toNat h
  rw [statusWord_toNat] at hfields
  apply BitVec.eq_of_toNat_eq
  rw [statusWord_complete_toNat, Bool.toNat_false, show (0x00000002 : Word).toNat = 2 from rfl]
  omega

end Control

/-- Settles O28: NOP has one word, and its meaning is `complete` alone. -/
theorem nopOnlyCompletes : Obligations.NopOnlyCompletes := by
  refine ⟨fun _ _ => decode_formatZ_only_encode (i := .nop) (by decide), fun _ => rfl, fun s t hstatus hexec => ?_⟩
  rw [exec_nop hexec]
  exact statusWord_complete_of_resValid hstatus

/-- Settles O29: SOFT_RESET has one word; it clears the streams and STATUS before it completes, and writes no host
state. -/
theorem softResetClearsTheStreamsAndStatus : Obligations.SoftResetClearsTheStreamsAndStatus :=
  ⟨fun _ _ => decode_formatZ_only_encode (i := .softReset) (by decide), fun _ =>
    ⟨_, rfl, rfl, rfl, rfl, rfl, rfl, rfl, rfl, statusWord_complete_of_cleared rfl rfl rfl, rfl, rfl,
      exec_sameHostState (i := .softReset) rfl, rfl⟩⟩

end Sys2Proof.Machine
end

section
/-! SUPPORT. STATUS bit by bit after an error and after a completion (spec/60_exceptions.md R171 to R173,
spec/30_encoding.md R93). -/

namespace Sys2Proof.Machine

theorem errIndex_lt (e : ErrFlag) : errIndex e < 12 := by
  cases e <;> decide

theorem errMask_getLsbD (e : ErrFlag) (k : Nat) : (errMask e).getLsbD k = decide (k = errIndex e) := by
  rw [errMask, BitVec.getLsbD_twoPow, decide_eq_true (errIndex_lt e), Bool.true_and, decide_eq_decide, eq_comm]

/-- Setting an error sets the STATUS bit of its cause code alone (R172, R180). -/
theorem statusWord_setErr_getLsbD (e : ErrFlag) (s : State) (j : Nat) :
    (statusWord (setErr e s)).getLsbD j = if j = causeCode e then true else (statusWord s).getLsbD j := by
  by_cases herr : 8 ≤ j ∧ j ≤ 19
  · obtain ⟨k, rfl⟩ := Nat.exists_eq_add_of_le herr.1
    have hk : k < 12 := by omega
    rw [statusWord_getLsbD_error _ hk, statusWord_getLsbD_error _ hk, setErr_status_errors, BitVec.getLsbD_or,
      errMask_getLsbD, causeCode]
    by_cases hcode : k = errIndex e <;> simp [hcode]
  · have hcode : j ≠ causeCode e := by
      have := errIndex_lt e
      rw [causeCode]
      omega
    rw [statusWord_getLsbD, statusWord_getLsbD]
    simp [herr, hcode, busy]

/-- Completing sets DONE, writes RES_VALID and clears BUSY; every other STATUS bit stays (R93). -/
theorem statusWord_complete_getLsbD (b : Bool) (s : State) (j : Nat) :
    (statusWord (complete b s)).getLsbD j =
      if j = 0 then false else if j = 1 then true else if j = 2 then b else (statusWord s).getLsbD j := by
  rw [statusWord_getLsbD, statusWord_getLsbD]
  split_ifs <;> rfl

/-- `raise Err(e)` sets the error and completes without a result (R171). -/
theorem raiseErr_eq_complete_setErr (e : ErrFlag) (s : State) : raiseErr e s = complete false (setErr e s) := rfl

theorem statusWord_raiseErr_getLsbD (e : ErrFlag) (s : State) (j : Nat) :
    (statusWord (raiseErr e s)).getLsbD j =
      if j = causeCode e ∨ j = 1 then true else if j = 2 ∨ j = 0 then false else (statusWord s).getLsbD j := by
  have hcause : 8 ≤ causeCode e := Nat.le_add_right 8 _
  rw [raiseErr_eq_complete_setErr, statusWord_complete_getLsbD, statusWord_setErr_getLsbD]
  grind

/-- Settles O12: an error ORs the bit of its cause code into STATUS, and a command's error completes besides. -/
theorem raisedErrorShowsInStatusAlone : Obligations.RaisedErrorShowsInStatusAlone :=
  ⟨rfl, fun e s => ⟨statusWord_setErr_getLsbD e s, rfl, statusWord_raiseErr_getLsbD e s,
    ⟨rfl, rfl, rfl, rfl, rfl, rfl, rfl, rfl⟩, ⟨rfl, rfl, rfl, rfl⟩, ⟨rfl, rfl, rfl, rfl, rfl, rfl⟩, rfl⟩⟩

end Sys2Proof.Machine
end

section
/-! SUPPORT. That a step always answers a next state (spec/60_exceptions.md R170). -/

namespace Sys2Proof.Machine

theorem engineTurn_total (s : State) : ∃ t, engineTurn s = .next t := by
  cases hpend : s.pend with
  | none => exact ⟨s, engineTurn_of_pend_none hpend⟩
  | some w =>
    cases hdecode : decode s.params w with
    | error e => exact ⟨_, engineTurn_of_illegal hpend hdecode⟩
    | ok i =>
      rw [engineTurn_of_decode hpend hdecode]
      exact exec_total i s

theorem step_total (s : State) : ∃ t, step s = .next t := by
  cases hagenda : s.agenda with
  | nil =>
    rw [step_of_agenda_nil hagenda]
    exact engineTurn_total s
  | cons x rest =>
    cases x with
    | busRead a => exact ⟨_, step_of_agenda_busRead hagenda⟩
    | busWrite a w => exact ⟨_, step_of_agenda_busWrite hagenda⟩
    | engine =>
      rw [step_of_agenda_engine hagenda]
      exact engineTurn_total _
    | hardReset => exact ⟨_, step_of_agenda_hardReset hagenda⟩

/-- Settles O8: the turns of the host and of reset are functions, and the engine's is an idle turn, ERR_ILLEGAL or a
command. -/
theorem everyStepAnswersANextState : Obligations.EveryStepAnswersANextState :=
  ⟨step_total, exec_total⟩

end Sys2Proof.Machine
end

section
/-! SUPPORT. How a command completes (spec/30_encoding.md R93, spec/60_exceptions.md R174, R175). -/

namespace Sys2Proof.Machine

section Completions

variable {s t u : State} {i : Instr}

/-- The command wrote RESULT: GET_BITS, and a DEC_SYM that leaves EOS 0 (spec/10_state.md R26). -/
def WroteResult (i : Instr) (t : State) : Prop :=
  (∃ n, i = .getBits n) ∨ (i = .decSym ∧ t.status.eos = false)

/-- The error bits are as before, but that an ENC_SYM may have warned with MISSING (R174). -/
def ErrorsKeptOrWarned (i : Instr) (s t : State) : Prop :=
  t.status.errors = s.status.errors ∨
    (∃ sym, i = .encSym sym) ∧ t.status.errors = s.status.errors ||| errMask .missing

/-- The command `i` took `s` to a completion `t` (R93, R175). -/
def Completed (i : Instr) (s t : State) : Prop :=
  t.status.done = true ∧ t.pend = none ∧ (t.status.resValid = true ↔ WroteResult i t) ∧ ErrorsKeptOrWarned i s t

theorem completed_with_result (hwrote : WroteResult i (complete true u))
    (herrors : u.status.errors = s.status.errors) : Completed i s (complete true u) :=
  ⟨rfl, rfl, iff_of_true rfl hwrote, .inl herrors⟩

theorem completed_without_result (hnone : ¬ WroteResult i (complete false u))
    (herrors : ErrorsKeptOrWarned i s u) : Completed i s (complete false u) :=
  ⟨rfl, rfl, iff_of_false Bool.false_ne_true hnone, herrors⟩

theorem pushBits_errors {n : Nat} {v : Word} (h : pushBits n v s = .ok u) : u.status.errors = s.status.errors := by
  obtain ⟨q, rfl⟩ := pushBits_ok h
  rfl

theorem exec_encSym_completed {sym : Nat} (h : exec (.encSym sym) s = .next t) :
    EndsInError s t ∨ Completed (.encSym sym) s t := by
  refine (exec_encSym_cases h).imp_right ?_
  rintro ⟨-, f, u, -, hpush, rfl⟩
  have herrors : u.status.errors = s.status.errors := pushBits_errors (s := withDraws (lookup s sym).2 s) hpush
  refine completed_without_result (by simp [WroteResult]) ?_
  cases f.fallback
  · exact .inl herrors
  · exact .inr ⟨⟨sym, rfl⟩, congrArg (· ||| errMask .missing) herrors⟩

theorem exec_decSym_completed (h : exec .decSym s = .next t) : EndsInError s t ∨ Completed .decSym s t := by
  refine (exec_decSym_cases h).imp_right ?_
  rintro (rfl | ⟨v, r, rfl⟩ | ⟨-, v, d, q, -, -, rfl⟩)
  · exact completed_without_result (by simp [WroteResult]) (.inl rfl)
  all_goals exact completed_with_result (.inr ⟨rfl, rfl⟩) rfl

/-- Every command but SOFT_RESET, which clears the error bits, has the effect of one error or completes. -/
theorem exec_endsInError_or_completed (hi : i ≠ .softReset) (h : exec i s = .next t) :
    EndsInError s t ∨ Completed i s t := by
  cases i with
  | nop =>
    obtain rfl := exec_nop h
    exact .inr (completed_without_result (by simp [WroteResult]) (.inl rfl))
  | encInit =>
    obtain rfl := exec_encInit h
    exact .inr (completed_without_result (by simp [WroteResult]) (.inl rfl))
  | putBits n =>
    refine (exec_putBits_cases h).imp_right ?_
    rintro ⟨-, u, hpush, rfl⟩
    exact completed_without_result (by simp [WroteResult]) (.inl (pushBits_errors hpush))
  | encSym sym => exact exec_encSym_completed h
  | flush =>
    refine (exec_flush_cases h).imp_right ?_
    rintro (⟨-, rfl⟩ | ⟨-, -, -, rfl⟩ | ⟨-, -, rfl⟩)
    all_goals exact completed_without_result (by simp [WroteResult]) (.inl rfl)
  | decInit =>
    refine (exec_decInit_cases h).imp_right ?_
    rintro rfl
    exact completed_without_result (by simp [WroteResult]) (.inl rfl)
  | getBits n =>
    refine (exec_getBits_cases h).imp_right ?_
    rintro ⟨-, -, v, d, rfl⟩
    exact completed_with_result (.inl ⟨n, rfl⟩) rfl
  | decSym => exact exec_decSym_completed h
  | softReset => exact absurd rfl hi

end Completions

/-- Settles O10: each command's inversion lemma, its completions told by whether they write RESULT. -/
theorem commandCompletesOrSetsExactlyOneErrorBit : Obligations.CommandCompletesOrSetsExactlyOneErrorBit :=
  fun _ _ _ => exec_endsInError_or_completed

end Sys2Proof.Machine
end

section
/-! SUPPORT. What is blind to the error bits (spec/60_exceptions.md R179, R180): the branches the commands are made of,
and the commands. -/

namespace Sys2Proof.Machine

/-- Whatever error bits are set, `f` does the same, and ORs the bits it raises into those set before (R179, R180). -/
def ErrorBlind (f : State → Host.Outcome State Fault Refusal) : Prop :=
  ∀ (s : State) (e : BitVec 12), ∃ (t : State) (raised : BitVec 12),
    f s = .next t ∧ t.status.errors = s.status.errors ||| raised ∧
      f (withErrors e s) = .next (withErrors (e ||| raised) t)

section Branches

variable {f g : State → Host.Outcome State Fault Refusal}

theorem ErrorBlind.raise (x : ErrFlag) : ErrorBlind (fun s => .next (raiseErr x s)) :=
  fun s _ => ⟨raiseErr x s, errMask x, rfl, rfl, rfl⟩

/-- An update that commutes with replacing the error bits neither reads nor writes them. -/
theorem ErrorBlind.update {h : State → State} (hcomm : ∀ s e, h (withErrors e s) = withErrors e (h s)) :
    ErrorBlind (fun s => .next (h s)) := by
  intro s e
  refine ⟨h s, 0#12, rfl, ?_, ?_⟩
  · have hkept := hcomm s s.status.errors
    rw [withErrors_self] at hkept
    rw [BitVec.or_zero, hkept, withErrors_status_errors]
  · simp only [BitVec.or_zero, hcomm]

/-- A branch on a condition that does not read the error bits. -/
theorem ErrorBlind.ite {c : State → Prop} {dec : ∀ s, Decidable (c s)} (hc : ∀ s e, c (withErrors e s) = c s)
    (hf : ErrorBlind f) (hg : ErrorBlind g) : ErrorBlind (fun s => if c s then f s else g s) := by
  intro s e
  by_cases h : c s
  · simpa only [hc, if_pos h] using hf s e
  · simpa only [hc, if_neg h] using hg s e

end Branches

theorem execNop_errorBlind : ErrorBlind execNop :=
  .update fun _ _ => rfl

theorem execEncInit_errorBlind : ErrorBlind execEncInit :=
  .update fun _ _ => rfl

/-- The packer raises OFLOW or completes alike, whatever error bits stand. -/
theorem execPutBits_errorBlind (n : Nat) : ErrorBlind (execPutBits n) := by
  refine .ite (fun _ _ => rfl) (.raise .seq) fun s e => ?_
  simp only [withErrors_data, pushBits_withErrors]
  rcases hpush : pushBits n s.data s with x | u
  · exact ⟨raiseErr x s, errMask x, rfl, rfl, rfl⟩
  · have herrors : u.status.errors = s.status.errors := pushBits_errors hpush
    refine ⟨complete false u, 0#12, rfl, ?_, ?_⟩ <;> rw [BitVec.or_zero]
    · exact herrors
    · rfl

/-- `Lookup` and the packer are blind; a fallback ORs in MISSING. -/
theorem execEncSym_errorBlind (sym : Nat) : ErrorBlind (execEncSym sym) := by
  refine .ite (fun _ _ => rfl) (.raise .seq) fun s e => ?_
  simp only [lookup_withErrors]
  rcases lookup s sym with ⟨x | f, d⟩
  · exact ⟨raiseErr x (withDraws d s), errMask x, rfl, rfl, rfl⟩
  · simp only [withDraws_withErrors, pushBits_withErrors]
    rcases hpush : pushBits f.len f.code (withDraws d s) with x | u
    · exact ⟨raiseErr x (withDraws d s), errMask x, rfl, rfl, rfl⟩
    · have herrors : u.status.errors = s.status.errors := pushBits_errors (s := withDraws d s) hpush
      cases f.fallback
      · refine ⟨complete false u, 0#12, rfl, ?_, ?_⟩ <;> rw [BitVec.or_zero]
        · exact herrors
        · rfl
      · exact ⟨complete false (setErr .missing u), errMask .missing, rfl,
          congrArg (· ||| errMask .missing) herrors, rfl⟩

theorem execFlush_errorBlind : ErrorBlind execFlush :=
  .ite (fun _ _ => rfl) (.update fun _ _ => rfl)
    (.ite (fun _ _ => rfl) (.ite (fun _ _ => rfl) (.raise .oflow) (.update fun _ _ => rfl)) (.update fun _ _ => rfl))

theorem execDecInit_errorBlind : ErrorBlind execDecInit :=
  .ite (fun _ _ => rfl) (.raise .empty) (.ite (fun _ _ => rfl) (.raise .param) (.update fun _ _ => rfl))

theorem execGetBits_errorBlind (n : Nat) : ErrorBlind (execGetBits n) :=
  .ite (fun _ _ => rfl) (.raise .param) (.ite (fun _ _ => rfl) (.raise .underrun) (.update fun _ _ => rfl))

theorem decSymLeafRoot_errorBlind : ErrorBlind decSymLeafRoot :=
  .ite (fun _ _ => rfl) (.raise .table)
    (.ite (fun _ _ => rfl) (.update fun _ _ => rfl) (.update fun _ _ => rfl))

/-- The walk is the same, and so is the error or the symbol it ends in. -/
theorem decSymWalk_errorBlind : ErrorBlind decSymWalk := by
  refine .ite (fun _ _ => rfl) (.raise .param) (.ite (fun _ _ => rfl) (.update fun _ _ => rfl) fun s e => ?_)
  simp only [withErrors_bitlen, withErrors_iptr, withErrors_tables, withErrors_draws, walk_withErrors]
  rcases walk s (s.bitlen.toNat - s.iptr.toNat) s.tables.root.val.toNat s.iptr.toNat s.draws with
    ⟨x | ⟨sym, q⟩, d⟩
  · exact ⟨raiseErr x (withDraws d s), errMask x, rfl, rfl, rfl⟩
  · refine ⟨_, 0#12, rfl, ?_, ?_⟩ <;> rw [BitVec.or_zero] <;> rfl

theorem execDecSym_errorBlind : ErrorBlind execDecSym :=
  .ite (fun _ _ => rfl) (.raise .empty) (.ite (fun _ _ => rfl) decSymLeafRoot_errorBlind decSymWalk_errorBlind)

/-- Every command but SOFT_RESET, which clears the error bits, is blind to them. -/
theorem exec_errorBlind {i : Instr} (hi : i ≠ .softReset) : ErrorBlind (exec i) := by
  cases i with
  | nop => exact execNop_errorBlind
  | encInit => exact execEncInit_errorBlind
  | putBits n => exact execPutBits_errorBlind n
  | encSym sym => exact execEncSym_errorBlind sym
  | flush => exact execFlush_errorBlind
  | decInit => exact execDecInit_errorBlind
  | getBits n => exact execGetBits_errorBlind n
  | decSym => exact execDecSym_errorBlind
  | softReset => exact absurd rfl hi

/-- Settles O56: every command but SOFT_RESET is blind to the error bits, and SOFT_RESET writes over them. -/
theorem errorBitsBlockNothing : Obligations.ErrorBitsBlockNothing := by
  intro i s e
  by_cases hi : i = .softReset
  · subst hi
    exact ⟨_, 0, rfl, fun hne => absurd rfl hne, fun _ => ⟨rfl, rfl⟩⟩
  · obtain ⟨t, raised, hexec, herrors, hexec'⟩ := exec_errorBlind hi s e
    exact ⟨t, raised, hexec, fun _ => ⟨herrors, hexec'⟩, fun h => absurd h hi⟩

end Sys2Proof.Machine
end

section
/-! SUPPORT. Writes while a command is pending (spec/20_memory.md R55, R68, spec/70_reset_and_hazards.md R197). -/

namespace Sys2Proof.Machine

section BusyWrites

variable {s : State} {a : Addr} {x : Target}

/-- While BUSY = 1 a write can reach STATUS alone: no case of R55 fills PEND or performs the write. -/
theorem busWrite_of_busy (a : Addr) (w : Word) (hb : busy s = true) :
    ∃ st, busWrite a w s = { s with status := st } := by
  obtain ⟨e, h⟩ | h | h | ⟨-, hpend, -⟩ | ⟨y, -, hidle, -⟩ := busWrite_cases a w s
  · exact ⟨_, h⟩
  · exact ⟨_, h⟩
  · exact ⟨_, h⟩
  · exact absurd hpend ((busy_iff s).1 hb)
  · simp [hb] at hidle

/-- R55 case 6: a write to host-written state is refused while BUSY = 1. -/
theorem busWrite_hostWritten_of_busy (w : Word) (h : target s.params a = some x) (hb : busy s = true)
    (hx : hostWritten x = true) (htable : tableTarget x = true → s.params.tablesWritable = true) :
    busWrite a w s = setErr .busywr s := by
  have hfixed : ¬ (!s.params.tablesWritable && tableTarget x) = true := by
    cases hxt : tableTarget x <;> simp_all
  have hro : ¬ readOnly x = true := by simp [readOnly_of_hostWritten hx]
  rw [busWrite_of_target w h (by rintro rfl; cases hx) (by rintro rfl; cases hx), if_neg hro, if_neg hfixed, if_pos hb]

end BusyWrites

/-- Settles O38: each word named is one host-written target, and a busy write reaches STATUS alone. -/
theorem busyWritesAreRefused : Obligations.BusyWritesAreRefused := by
  refine ⟨fun s w hp hb => ⟨fun r hr => ?_, fun k hk => ?_, fun hwritable =>
    ⟨?_, ?_, fun i hi => ⟨?_, ?_⟩, fun i hi => ⟨?_, ?_⟩⟩⟩, fun s a w hb => ?_⟩
  · have hreg : hostWritten (.reg r) = true ∧ tableTarget (.reg r) = false := by
      revert r
      decide
    exact busWrite_hostWritten_of_busy w (target_regOffset _ r) hb hreg.1 (by simp [hreg.2])
  · exact busWrite_hostWritten_of_busy w (target_ibufAddr hp hk) hb rfl nofun
  · exact busWrite_hostWritten_of_busy w (target_regOffset _ .root) hb rfl fun _ => hwritable
  · exact busWrite_hostWritten_of_busy w (target_regOffset _ .degenWeight) hb rfl fun _ => hwritable
  · exact busWrite_hostWritten_of_busy w (target_dtLeftAddr hp hi) hb rfl fun _ => hwritable
  · exact busWrite_hostWritten_of_busy w (target_dtRightAddr hp hi) hb rfl fun _ => hwritable
  · exact busWrite_hostWritten_of_busy w (target_ctControlAddr hp hi) hb rfl fun _ => hwritable
  · exact busWrite_hostWritten_of_busy w (target_ctCodeAddr hp hi) hb rfl fun _ => hwritable
  · obtain ⟨st, h⟩ := busWrite_of_busy a w hb
    rw [h]
    exact ⟨rfl, rfl, rfl, rfl, rfl, rfl, rfl, rfl⟩

end Sys2Proof.Machine
end

section
/-! SUPPORT. A pending command waits through the host's turns and completes at the engine's (spec/30_encoding.md R90,
R93, spec/70_reset_and_hazards.md R202). -/

namespace Sys2Proof.Machine

section Waiting

variable {s t : State} {w : Word} {rest : List Turn}

/-- Every command leaves DONE set, in an error too (R93, R161, R171). -/
theorem exec_done {i : Instr} (h : exec i s = .next t) : t.status.done = true := by
  by_cases hi : i = .softReset
  · subst hi
    rw [exec_softReset h, complete_status_done]
  · obtain ⟨e, d, -, -, rfl⟩ | ⟨hdone, -⟩ := exec_endsInError_or_completed hi h
    · rfl
    · exact hdone

/-- The engine's turn on a pending word, legal or not, empties PEND and sets DONE. -/
theorem engineTurn_completes (hpend : s.pend = some w) :
    ∃ t, engineTurn s = .next t ∧ t.pend = none ∧ t.status.done = true ∧ t.agenda = s.agenda := by
  cases hdecode : decode s.params w with
  | error e => exact ⟨_, engineTurn_of_illegal hpend hdecode, rfl, rfl, rfl⟩
  | ok i =>
    obtain ⟨t, ht⟩ := exec_total i s
    obtain ⟨-, -, -, -, -, -, hagenda, -⟩ := exec_sameHostState ht
    exact ⟨t, (engineTurn_of_decode hpend hdecode).trans ht, exec_pend ht, exec_done ht, hagenda⟩

/-- A host transaction leaves a pending word where it is: a second write to CMD is dropped (R38, R55 case 3). -/
theorem step_of_hostTurn {x : Turn} (hx : isHostTurn x = true) (hpend : s.pend = some w)
    (hagenda : s.agenda = x :: rest) : ∃ t, step s = .next t ∧ t.pend = some w ∧ t.agenda = rest := by
  cases x with
  | busRead a =>
    obtain ⟨v, d, e, hread⟩ := busRead_eq a { s with agenda := rest }
    exact ⟨_, (step_of_agenda_busRead hagenda).trans (congrArg _ hread), hpend, rfl⟩
  | busWrite a v =>
    obtain ⟨st, hwrite⟩ := busWrite_of_busy (s := { s with agenda := rest }) a v (by simp [busy, hpend])
    exact ⟨_, (step_of_agenda_busWrite hagenda).trans (congrArg _ hwrite), hpend, rfl⟩
  | engine => cases hx
  | hardReset => cases hx

/-- However many host transactions come, the pending word is still there after them. -/
theorem run_hostTurns {host : List Turn} (hhost : ∀ x ∈ host, isHostTurn x = true) (hpend : s.pend = some w)
    (hagenda : s.agenda = host ++ rest) :
    ∃ t, Host.Core.run core host.length s = .next t ∧ t.pend = some w ∧ t.agenda = rest := by
  induction host generalizing s with
  | nil => exact ⟨s, rfl, hpend, hagenda⟩
  | cons x host ih =>
    obtain ⟨hx, hhost⟩ := List.forall_mem_cons.1 hhost
    obtain ⟨u, hstep, hupend, huagenda⟩ := step_of_hostTurn hx hpend hagenda
    obtain ⟨t, hrun, ht⟩ := ih hhost hupend huagenda
    exact ⟨t, (run_succ (M := core) host.length hstep).trans hrun, ht⟩

end Waiting

/-- Settles O9: the host's turns leave PEND full, by induction on them, and then the engine's turn completes. -/
theorem acceptedCommandCompletesAtTheEnginesTurn : Obligations.AcceptedCommandCompletesAtTheEnginesTurn := by
  intro s w host rest hpend hagenda hhost
  obtain ⟨u, hrun, hupend, huagenda⟩ := run_hostTurns hhost hpend hagenda
  obtain ⟨t, hturn, ht⟩ := engineTurn_completes (s := { u with agenda := rest }) hupend
  refine ⟨t, ?_, ht⟩
  calc Host.Core.run core (host.length + 1) s
      = Host.Core.run core 1 u := run_add (M := core) _ 1 hrun
    _ = .next t := run_succ (M := core) 0 ((step_of_agenda_engine huagenda).trans hturn)

end Sys2Proof.Machine
end

section
/-! SUPPORT. The state after reset (spec/70_reset_and_hazards.md R191), and what the commands then do. -/

namespace Sys2Proof.Machine

section Reset

variable {p : Params}

theorem resetTables_writable (h : p.tablesWritable = true) : resetTables p = .empty := by
  rw [resetTables, if_pos h]

theorem resetTables_wf (hp : BuildOk p) : TablesWf p (resetTables p) := by
  cases h : p.tablesWritable with
  | true => exact resetTables_writable h ▸ .empty p
  | false => exact resetTables_rom h ▸ hp.image

/-- A legal build comes out of reset with empty buffers, an empty open stream and IPTR 0. -/
theorem resetOf_inv (hp : BuildOk p) : Inv (State.resetOf p) :=
  have stream : StreamInv (State.resetOf p) := .of_empty .nil nofun rfl rfl rfl rfl rfl
  { stream with
    build := hp
    tables := resetTables_wf hp
    romFixed := resetTables_rom
    ibufWf := .nil
    ibufBelow := nofun
    iptrBound := Nat.zero_le _ }

theorem standard_buildOk : BuildOk .standard := ⟨by decide, .empty _⟩

end Reset

/-- Settles O44: the default build is legal, and every legal build resets into the invariant. -/
theorem invariantHoldsAtReset : Obligations.InvariantHoldsAtReset :=
  ⟨resetOf_inv standard_buildOk, fun _ => resetOf_inv⟩

section Unloaded

variable {s : State}

theorem ctValid_of_no_entries (h : s.tables.ctControl = []) (t : Nat) : ctValid s t = false := by
  rw [ctValid, h]
  rfl

/-- ENC_SYM of any symbol, in the alphabet or not, finds no entry in a CT without a valid one (R123). -/
theorem exec_encSym_of_none_valid (hopen : s.status.encClosed = false) (hnone : ∀ t, ctValid s t = false)
    (sym : Nat) : exec (.encSym sym) s = .next (raiseErr .empty s) := by
  have hchoose : chooseEntry s sym = .error .empty := by
    rw [chooseEntry, hnone sym, leastValid_none.2 fun t _ => hnone t]
    rfl
  exact exec_encSym_of_lookup_error hopen (lookup_of_chooseEntry_error hchoose)

end Unloaded

section AfterReset

variable {s : State} {n : Nat}

/-- GET_BITS finds BITLEN 0. -/
theorem exec_getBits_hardReset (hn : 1 ≤ n) :
    exec (.getBits n) (hardReset s) = .next (raiseErr .underrun (hardReset s)) :=
  exec_getBits_of_underrun (Nat.zero_le _) (show 0 < 0 + n by omega)

/-- PUT_BITS finds OPTR 0, and the least OBUF holds 32 bits (R6). -/
theorem exec_putBits_hardReset (hp : s.params.legal) (hn : n ≤ 32) :
    ∃ t, exec (.putBits n) (hardReset s) = .next t ∧ t.bitcount.toNat = n ∧ t.status.errors = 0 := by
  have ⟨_, _, ⟨_, hsize, _⟩, _⟩ := hp
  have hroom : 0 + (0 + n) / 8 ≤ s.params.obufSize := by omega
  obtain ⟨t, hexec, -, -, -, -, hbitcount, hstatus, -⟩ := exec_putBits_packs (s := hardReset s) hp rfl hroom
  refine ⟨t, hexec, ?_, by rw [hstatus]; rfl⟩
  have hcount : t.bitcount = 0#32 + BitVec.ofNat 32 n := hbitcount
  rw [hcount, BitVec.zero_add, BitVec.toNat_ofNat]
  omega

end AfterReset

/-- Settles O43: each composed register word from its fields, and each command by the check that decides it. -/
theorem hardResetLeavesTheResetValues : Obligations.HardResetLeavesTheResetValues := by
  intro s
  have hctrl : ctrlWord { strict := false, ieDone := false, ieErr := false, spaceSym := 0x0020 } = 0x00200000 := by
    decide
  have hstatus : statusWord (hardReset s) = 0 := BitVec.eq_of_toNat_eq (statusWord_toNat _)
  have hpack : packStateWord (hardReset s) = 0 := BitVec.eq_of_toNat_eq (packStateWord_toNat _)
  refine ⟨rfl, rfl, rfl, hctrl, hstatus, rfl, rfl, rfl, rfl, rfl, hpack, rfl, rfl, rfl, rfl, rfl, rfl, rfl, rfl, rfl,
    fun hwritable => ?_, resetTables_rom, fun n => exec_getBits_hardReset, fun hp n _ => exec_putBits_hardReset hp,
    ⟨_, exec_flush_of_none_pending rfl rfl, rfl, rfl⟩⟩
  have htables : (hardReset s).tables = .empty := resetTables_writable hwritable
  have hroot : (hardReset s).tables.root.valid = false := by rw [htables]; rfl
  have hinvalid := ctValid_of_no_entries (s := hardReset s) (by rw [htables]; rfl)
  refine ⟨?_, ?_, hinvalid, ?_, ?_, ?_, ?_, exec_encSym_of_none_valid rfl hinvalid,
    exec_decInit_of_no_tree hroot, exec_decSym_of_no_tree hroot⟩
  all_goals
    rw [htables]
    rfl

end Sys2Proof.Machine
end
